-- ==== Sys2Proof/Word.lean ====
section
/-! DEFINITION. The word types: a byte (a sample or a byte of memory) and a 32-bit word (a register, an
address, a command word). 00_scope.md R7: REG_W = ADDR_W = 32, SAMPLE_W = 8. -/

namespace Sys2Proof

/-- A sample, or one byte of memory (R6, R39). -/
abbrev Byte := BitVec 8

/-- A register, a bus address or a command word (R7). -/
abbrev Word := BitVec 32

end Sys2Proof
end

