-- ==== Sys2Proof/Config.lean ====
section
/-! DEFINITION. The free values: what the spec calls a draw. Each is an uninterpreted constant, so no proof can
know a value of it and every claim holds for every draw (00_scope.md glossary "Draw"). -/

namespace Sys2Proof.Config

/-- The byte a memory address holds before anything has written it, one free value per address
(10_state.md R39, 93 U1; log 1). -/
opaque unwrittenByte : Nat → Byte

/-- The n-th free byte: the bytes of a colliding or bus-error job (20_memory.md R59, 60_exceptions.md R145)
and what a host read of them during BUSY returns (R58); log 5. -/
opaque freeByte : Nat → Byte

/-- The n-th free choice between an old and a new byte (20_memory.md R58, 70_reset_and_hazards.md R161); logs 6, 7. -/
opaque freeBit : Nat → Bool

/-- The n-th free choice among the addresses still to be written, taken when the environment has no move left
(20_memory.md R56, 70_reset_and_hazards.md R168); log 4. -/
opaque freePick : Nat → Nat

end Sys2Proof.Config
end

