-- ==== Sys2Proof/Syntax.lean ====
section
/-! DEFINITION. The names of the block: formats, channels, registers, the request a host puts on the register
port, and `Instr`, one constructor per row of spec/opcode_table.json. -/

namespace Sys2Proof

/-- The closed set of target formats (00_scope.md R2). -/
inductive Format where
  | rgb888 | rgba8888 | yuyv422 | uyvy422 | yuv444 | iyuv | nv12 | nv21
  deriving DecidableEq, Repr

/-- A channel: one logical single-sample-per-pixel buffer (00_scope.md glossary). -/
inductive Channel where
  | r | g | b | a | y | u | v
  deriving DecidableEq, Repr

/-- The layout classes (41_format_descriptor.md R91). -/
inductive LayoutClass where
  | interleaved | packed | planar | semiplanar
  deriving DecidableEq, Repr

/-- The registers of the window (10_state.md R12), and the reserved offsets (30_encoding.md R71). -/
inductive Reg where
  | id | cmd | status | intStatus | intEnable | format | srcCount | dstCount
  | srcBase (c : Fin 4) | srcStride (c : Fin 4) | srcDim (c : Fin 4)
  | dstBase (p : Fin 3) | dstStride (p : Fin 3) | dstDim (p : Fin 3)
  | reserved
  deriving DecidableEq, Repr

/-- How wide an access of the register port is; only `word` is admitted (30_encoding.md R70). -/
inductive AccessWidth where
  | byte | half | word
  deriving DecidableEq, Repr

/-- What a host puts on the register port, before the model admits it: the transaction word `dir<<12 | off`
of opcode_table.json, how wide the access is, and the write data (meaningless in a read). -/
structure PortRequest where
  header : BitVec 16
  width  : AccessWidth
  data   : Word
  deriving DecidableEq, Repr

/-- The operations of the block, one constructor per row of spec/opcode_table.json (30_encoding.md R78). -/
inductive Instr where
  /-- REG_WRITE(off, data), 40_commands.md R79. -/
  | regWrite (off : BitVec 12) (data : Word)
  /-- REG_READ(off), 40_commands.md R80. -/
  | regRead (off : BitVec 12)
  /-- The command NOP, 40_commands.md R82. -/
  | nop
  /-- The command CONFIGURE, 40_commands.md R84. -/
  | configure
  /-- The command EXECUTE, 40_commands.md R85. -/
  | execute
  /-- The command SOFT_RESET, 40_commands.md R88. -/
  | softReset
  /-- An illegal command word, 40_commands.md R83. -/
  | illegal (w : Word)
  /-- The engine's write of the pending byte at address `a`, 40_commands.md R86. -/
  | engineWrite (a : Word)
  /-- The end of a job, 40_commands.md R87. -/
  | engineComplete
  /-- EXECUTE with FORMAT.FMT = 1, 43_combine_interleaved.md R111. -/
  | combineRgb888
  /-- EXECUTE with FORMAT.FMT = 2, 43_combine_interleaved.md R112. -/
  | combineRgba8888
  /-- EXECUTE with FORMAT.FMT = 3, 44_combine_packed.md R116. -/
  | combineYuyv422
  /-- EXECUTE with FORMAT.FMT = 4, 44_combine_packed.md R117. -/
  | combineUyvy422
  /-- EXECUTE with FORMAT.FMT = 5, 45_combine_planar.md R119. -/
  | combineYuv444
  /-- EXECUTE with FORMAT.FMT = 6, 45_combine_planar.md R120. -/
  | combineIyuv
  /-- EXECUTE with FORMAT.FMT = 7, 46_combine_semiplanar.md R122. -/
  | combineNv12
  /-- EXECUTE with FORMAT.FMT = 8, 46_combine_semiplanar.md R123. -/
  | combineNv21
  deriving DecidableEq, Repr

end Sys2Proof
end

