-- ==== Sys2Proof/Machine/State.lean ====
section
/-! DEFINITION. The state of the machine, as plain data: the registers of 10_state.md R12, the job record (R41), the
byte memory (R39), and the model's own fields (what the environment does next, what a read returned, the level of
rst_n, the platform's bus-error ranges, the count of free values taken). -/

namespace Sys2Proof.Machine

/-- The descriptor registers of one slot, `*_BASE`, `*_STRIDE` and `*_DIM` (10_state.md R26 to R31). -/
structure Slot where
  base   : Word
  stride : Word
  dim    : Word
  deriving DecidableEq, Repr

/-- The error codes of `STATUS.ERR` (60_exceptions.md R137). -/
inductive ErrCode where
  | none
  | unsupportedFormat
  | channelCountMismatch
  | shapeMismatch
  | destGeometryMismatch
  | illegalCommand
  | busError
  deriving DecidableEq, Repr

/-- `JOB.kind` (10_state.md R41). -/
inductive JobKind where
  | normal | collide | busErr
  deriving DecidableEq, Repr

/-- The record of one EXECUTE in progress (10_state.md R41). `pending` is a finite map and `wset` a set, each a list
with strictly rising addresses. `before` is the model's own: the bytes the write set held when the job was accepted,
which 20_memory.md R58 and 70_reset_and_hazards.md R161 name (log 6). -/
structure Job where
  pending : List Host.Cell
  wset    : List Nat
  kind    : JobKind
  before  : List Host.Cell
  deriving DecidableEq, Repr

/-- A range of addresses that answers with a bus error: `first` and the `count - 1` addresses after it (log 2). -/
structure ErrorRange where
  first : Nat
  count : Nat
  deriving DecidableEq, Repr

/-- What the environment does next (log 3): the host's register-port requests and its own accesses of memory
(10_state.md R9), the reset input (70_reset_and_hazards.md R159), a slot in which the engine acts
(20_memory.md R56; `pick` says which pending address it takes), and a job of another instance that runs at the same
time, given by its write and read sets (20_memory.md R64; log 15). -/
inductive Move where
  | port (r : PortRequest)
  | hostWrite (a : Word) (v : Byte)
  | hostRead (a : Word)
  | rstAssert
  | rstRelease
  | engine (pick : Nat)
  | otherJob (writes reads : List Nat)
  deriving DecidableEq, Repr

/-- The state. A register's reserved bits have no storage (10_state.md R36; log 21); ID is a constant and CMD holds
nothing (R15, R16), so neither has a field. -/
structure State where
  /-- `STATUS.STATE`, R18. -/
  statusState : BitVec 2
  /-- `STATUS.ERR`, R19. -/
  statusErr : BitVec 4
  /-- `INT_STATUS[1:0]`: DONE is bit 0, ERROR bit 1, R20. -/
  intStatus : BitVec 2
  /-- `INT_ENABLE[1:0]`, R21. -/
  intEnable : BitVec 2
  /-- `FORMAT.FMT`, R23. -/
  format : BitVec 4
  /-- `SRC_COUNT.N`, R24. -/
  srcCount : BitVec 3
  /-- `DST_COUNT.N`, R25. -/
  dstCount : BitVec 3
  /-- The source slots, R26 to R28. -/
  src0 : Slot
  src1 : Slot
  src2 : Slot
  src3 : Slot
  /-- The destination slots, R29 to R31. -/
  dst0 : Slot
  dst1 : Slot
  dst2 : Slot
  /-- `JOB`, R40, R41. -/
  job : Option Job
  /-- `Mem`, R39: the bytes that something has written, with strictly rising addresses (log 1). -/
  mem : List Host.Cell
  /-- The model's own: writes of an abandoned job that may still land before the first transaction after the reset,
  70_reset_and_hazards.md R161 (log 16). -/
  inFlight : List Host.Cell
  /-- The level of the reset input: `true` when released, R159 (log 14). -/
  rstN : Bool
  /-- The model's own: what the last REG_READ returned to the host, R80 (log 8). -/
  busData : Word
  /-- The model's own: what the host's last read of memory returned, R58 (log 8). -/
  memData : Byte
  /-- The model's own: what the environment does next, oldest first (log 3). -/
  moves : List Move
  /-- The model's own: how many free values have been taken (log 5). -/
  draws : Nat
  /-- The model's own: the platform's parameter `busError` (R11) as plain data; no step changes it (log 2). -/
  busErrors : List ErrorRange
  deriving DecidableEq, Repr

/-- A stop where the spec enables no transition. Every one is safe: nothing is claimed of what follows. -/
inductive Fault where
  /-- Raised by ENGINE_WRITE when it is not enabled: no job, not BUSY, or nothing pending at the address
  (40_commands.md R86). Safe (log 13). -/
  | engineWriteNotEnabled
  /-- Raised by ENGINE_COMPLETE when it is not enabled: no job, not BUSY, or bytes still pending
  (40_commands.md R87). Safe (log 13). -/
  | engineCompleteNotEnabled
  /-- Raised by a combine whose code FORMAT.FMT does not hold: the block does not select it
  (30_encoding.md R68, R78). Safe (log 11). -/
  | combineNotSelected
  /-- Raised by EXECUTE in CONFIGURED with an unrecognized format code, which "EXECUTE never sees"
  (30_encoding.md R68). Safe (log 12). -/
  | unrecognizedFormatLocked
  deriving DecidableEq, Repr

/-- What the model gives no meaning. Every one is safe. -/
inductive Refusal where
  /-- An instruction that has no meaning yet. Raised by exec's arm alone. Safe. -/
  | notModelled (mnemonic : String)
  /-- A byte or halfword access of the register port, refused by 40_commands.md R79. Raised by the step. Safe (log 17). -/
  | narrowAccess
  /-- A register access at an offset that is not a multiple of 4, refused by 40_commands.md R79. Raised by REG_WRITE,
  REG_READ and the step. Safe (log 17). -/
  | misalignedAccess
  /-- A transaction word with a bit above `dir` set: no such offset exists (30_encoding.md R70). Raised by the step.
  Safe (log 17). -/
  | undefinedHeaderBits
  /-- A host write of a byte of the job's read or write set during BUSY: "The model gives the host no such move"
  (20_memory.md R60). Raised by the step. Safe for the model, a premise of every claim (log 18). -/
  | hostWriteDuringJob
  /-- A register transaction while rst_n is asserted: "the model has none" (70_reset_and_hazards.md R159). Raised by
  the step. Safe (log 14). -/
  | transactionDuringReset
  deriving DecidableEq, Repr

/-- The outcome of a step of this machine. -/
abbrev Result := Host.Outcome State Fault Refusal

/-- A slot whose three registers hold their reset value 0 (10_state.md R12). -/
def Slot.reset : Slot := { base := 0#32, stride := 0#32, dim := 0#32 }

/-- The machine right after reset (10_state.md R12, 70_reset_and_hazards.md R158, R160): every register at its reset
value, no job, nothing of memory written. The model's own fields: no write in flight (log 16), rst_n released, no move waiting (logs 3, 22),
nothing read yet (log 8), no free value taken (log 5), no bus-error range (log 2). -/
def State.reset : State where
  statusState := 0#2
  statusErr := 0#4
  intStatus := 0#2
  intEnable := 0#2
  format := 0#4
  srcCount := 0#3
  dstCount := 0#3
  src0 := Slot.reset
  src1 := Slot.reset
  src2 := Slot.reset
  src3 := Slot.reset
  dst0 := Slot.reset
  dst1 := Slot.reset
  dst2 := Slot.reset
  job := none
  mem := []
  inFlight := []
  rstN := true
  busData := 0#32
  memData := 0#8
  moves := []
  draws := 0
  busErrors := []

end Sys2Proof.Machine
end

