-- ==== Sys2Proof/Machine/Flags.lean ====
section
/-! DEFINITION. The status fields: the values of STATUS.STATE (10_state.md R18), the codes of STATUS.ERR
(60_exceptions.md R137), the words STATUS, INT_STATUS and INT_ENABLE as a host reads them (R17, R20, R21), and the
interrupt line (R22). -/

namespace Sys2Proof.Machine

/-! ## `STATUS.STATE` (R18) -/

/-- No validated configuration. -/
abbrev unconfigured : BitVec 2 := 0#2
/-- A configuration passed validation; the geometry registers are locked. -/
abbrev configured : BitVec 2 := 1#2
/-- An EXECUTE is in progress. -/
abbrev busy : BitVec 2 := 2#2

/-- The code of an error (60_exceptions.md R137). -/
def ErrCode.code : ErrCode → BitVec 4
  | .none => 0
  | .unsupportedFormat => 1
  | .channelCountMismatch => 2
  | .shapeMismatch => 3
  | .destGeometryMismatch => 4
  | .illegalCommand => 5
  | .busError => 6

/-- `INT_STATUS.DONE`, bit 0 (R20); `INT_ENABLE.DONE_IE` has the same place (R21). -/
def doneBit : BitVec 2 := 1#2
/-- `INT_STATUS.ERROR`, bit 1 (R20); `INT_ENABLE.ERROR_IE` has the same place (R21). -/
def errorBit : BitVec 2 := 2#2

/-- `STATUS` as a word: STATE in bits 1:0, ERR in bits 7:4, every other bit zero (R17). -/
def State.statusWord (s : State) : Word :=
  BitVec.ofNat 32 (2 ^ 4 * s.statusErr.toNat + s.statusState.toNat)

/-- The interrupt line: high exactly when a pending source is enabled (R22). -/
def State.irq (s : State) : Bool := (s.intStatus &&& s.intEnable) != 0#2

/-- The write of a word to INT_STATUS: each of bits 0 and 1 written as 1 is cleared (R20). -/
def clearIntStatus (pending : BitVec 2) (data : Word) : BitVec 2 := pending &&& ~~~(data.extractLsb' 0 2)

end Sys2Proof.Machine
end

