-- ==== Sys2Proof/Machine/Ops.lean ====
section
/-! DEFINITION. The named operations every meaning is built from: finite maps and sets as lists in canonical form,
the byte memory (10_state.md R39), the slot registers, the error primitive `fail` (60_exceptions.md R139) and the
acknowledgement beside it (R150), and RESET (70_reset_and_hazards.md R158 to R161). -/

namespace Sys2Proof.Machine

/-! ## Finite maps and sets with strictly rising addresses -/

/-- The byte a finite map holds at an address. -/
def cellGet : List Host.Cell → Nat → Option Byte
  | [], _ => none
  | (b, v) :: rest, a => if b = a then some v else cellGet rest a

/-- A finite map with one address set to a byte, in canonical form. -/
def cellSet : List Host.Cell → Nat → Byte → List Host.Cell
  | [], a, v => [(a, v)]
  | (b, w) :: rest, a, v =>
    if a < b then (a, v) :: (b, w) :: rest
    else if a = b then (a, v) :: rest
    else (b, w) :: cellSet rest a v

/-- A finite map without one address. -/
def cellErase : List Host.Cell → Nat → List Host.Cell
  | [], _ => []
  | (b, w) :: rest, a => if b = a then cellErase rest a else (b, w) :: cellErase rest a

/-- A finite map with the bytes of a list of cells set, the first of the list last. -/
def cellSetAll (m : List Host.Cell) (cells : List Host.Cell) : List Host.Cell :=
  cells.foldr (fun c m => cellSet m c.1 c.2) m

/-- A set of addresses with one more address, in canonical form. -/
def addrInsert : List Nat → Nat → List Nat
  | [], a => [a]
  | b :: rest, a => if a < b then a :: b :: rest else if a = b then b :: rest else b :: addrInsert rest a

/-- The set of the addresses of a list. -/
def addrSet (l : List Nat) : List Nat := l.foldr (fun a acc => addrInsert acc a) []

/-- The canonical form of a finite map from addresses: strictly rising, and every address below 2^32 (R45). -/
abbrev Memory.wf (m : List Host.Cell) : Prop :=
  (m.map Prod.fst).Pairwise (· < ·) ∧ ∀ c ∈ m, c.1 < 2 ^ 32

/-! ## The byte memory -/

/-- `addr32(n) = n mod 2^32`, the only reduction there is (00_scope.md R8, 20_memory.md R46). -/
def addr32 (n : Nat) : Nat := n % 2 ^ 32

/-- What an address nothing has written reads as: a free value per address (10_state.md R39; log 1). -/
def unlistedByte (a : Nat) : Byte := Config.unwrittenByte a

/-- `MemRead(a, 1)` (00_scope.md section 5, 20_memory.md R47). -/
def readMem (s : State) (a : Nat) : Byte := (cellGet s.mem a).getD (unlistedByte a)

/-- `MemWrite(a, 1, v)` (00_scope.md section 5, 20_memory.md R47). -/
def writeMem (s : State) (a : Nat) (v : Byte) : State := { s with mem := cellSet s.mem a v }

/-- The platform's `busError(a)` (60_exceptions.md R145; log 2). -/
def busError (s : State) (a : Nat) : Bool :=
  s.busErrors.any fun r => decide (r.first ≤ a) && decide (a < r.first + r.count)

/-- Free bytes for a list of addresses, the first the `n`-th free byte (log 5). -/
def freeCells (n : Nat) : List Nat → List Host.Cell
  | [] => []
  | a :: rest => (a, Config.freeByte n) :: freeCells (n + 1) rest

/-! ## The slot registers -/

/-- The source slot `c` (R26 to R28). -/
def State.src (s : State) (c : Fin 4) : Slot :=
  match c with
  | 0 => s.src0
  | 1 => s.src1
  | 2 => s.src2
  | 3 => s.src3

/-- The source slot `c` replaced. -/
def State.setSrc (s : State) (c : Fin 4) (d : Slot) : State :=
  match c with
  | 0 => { s with src0 := d }
  | 1 => { s with src1 := d }
  | 2 => { s with src2 := d }
  | 3 => { s with src3 := d }

/-- The destination slot `p` (R29 to R31). -/
def State.dst (s : State) (p : Fin 3) : Slot :=
  match p with
  | 0 => s.dst0
  | 1 => s.dst1
  | 2 => s.dst2

/-- The destination slot `p` replaced. -/
def State.setDst (s : State) (p : Fin 3) (d : Slot) : State :=
  match p with
  | 0 => { s with dst0 := d }
  | 1 => { s with dst1 := d }
  | 2 => { s with dst2 := d }

/-! ## Errors -/

/-- `fail(code)`, the error primitive: the code and the pending bit, nothing else (60_exceptions.md R139, R149). -/
def fail (e : ErrCode) (s : State) : State :=
  { s with statusErr := e.code, intStatus := s.intStatus ||| errorBit }

/-- The acknowledgement, a host write of INT_STATUS; STATUS.ERR is not cleared (60_exceptions.md R150, 10_state.md R20). -/
def acknowledge (data : Word) (s : State) : State :=
  { s with intStatus := clearIntStatus s.intStatus data }

/-! ## The job's bytes seen from outside -/

/-- The value of a write-set byte before the job (20_memory.md R58, 70_reset_and_hazards.md R161; log 6). -/
def byteBefore (s : State) (j : Job) (a : Nat) : Byte := (cellGet j.before a).getD (readMem s a)

/-- The value the job writes to a write-set byte: still pending, or in memory already. -/
def byteOfJob (s : State) (j : Job) (a : Nat) : Byte := (cellGet j.pending a).getD (readMem s a)

/-- What a write-set byte is seen as while its job is not over: old or new, a free choice, for a NORMAL job, any byte
for another (20_memory.md R58, 70_reset_and_hazards.md R161); `n` numbers the free value. -/
def unsettledByte (s : State) (j : Job) (n : Nat) (a : Nat) : Byte :=
  match j.kind with
  | .normal => if Config.freeBit n then byteOfJob s j a else byteBefore s j a
  | .collide => Config.freeByte n
  | .busErr => Config.freeByte n

/-! ## RESET -/

/-- The bytes an abandoned job leaves in its write set, one free value each (70_reset_and_hazards.md R161). -/
def abandonedCells (s : State) (j : Job) (n : Nat) : List Nat → List Host.Cell
  | [] => []
  | a :: rest => (a, unsettledByte s j n a) :: abandonedCells s j (n + 1) rest

/-- The writes of an abandoned job that may still land after the reset: the job's own bytes for a NORMAL job, free
bytes for another (70_reset_and_hazards.md R161; log 16). -/
def inFlightCells (s : State) (j : Job) : List Host.Cell :=
  match j.kind with
  | .normal => j.wset.map fun a => (a, byteOfJob s j a)
  | .collide => freeCells (s.draws + j.wset.length) j.wset
  | .busErr => freeCells (s.draws + j.wset.length) j.wset

/-- How many free values abandoning a job takes: one per byte, and for a job that is not NORMAL one more per write
still in flight. -/
def abandonDraws (j : Job) : Nat :=
  match j.kind with
  | .normal => j.wset.length
  | .collide => 2 * j.wset.length
  | .busErr => 2 * j.wset.length

/-- The memory after a job in progress, if any, is abandoned (70_reset_and_hazards.md R160, R161). -/
def abandonJob (s : State) : State :=
  match s.job with
  | none => s
  | some j =>
    { s with
      mem := cellSetAll s.mem (abandonedCells s j s.draws j.wset)
      inFlight := inFlightCells s j
      draws := s.draws + abandonDraws j
      job := none }

/-- Every register at its reset value (10_state.md R12, 70_reset_and_hazards.md R158). -/
def resetRegisters (s : State) : State :=
  { s with
    statusState := unconfigured
    statusErr := ErrCode.none.code
    intStatus := 0#2
    intEnable := 0#2
    format := 0#4
    srcCount := 0#3
    dstCount := 0#3
    src0 := Slot.reset
    src1 := Slot.reset
    src2 := Slot.reset
    src3 := Slot.reset
    dst0 := Slot.reset
    dst1 := Slot.reset
    dst2 := Slot.reset }

/-- One write in flight lands: its byte is in memory, and it is in flight no more (70_reset_and_hazards.md R161;
log 16). -/
def landCell (s : State) (c : Host.Cell) : State :=
  { writeMem s c.1 c.2 with inFlight := cellErase s.inFlight c.1 }

/-- A slot of the schedule lands the write in flight it picks, if any is left (70_reset_and_hazards.md R161; log 16). -/
def landWrite (pick : Nat) (s : State) : State :=
  match s.inFlight with
  | [] => s
  | c :: cs => landCell s ((c :: cs).getD (pick % (cs.length + 1)) c)

/-- The writes still in flight are over when the block accepts a transaction (70_reset_and_hazards.md R161). -/
def settleWrites (s : State) : State := { s with inFlight := [] }

/-- `RESET()` (70_reset_and_hazards.md R158 to R161). -/
def resetBlock (s : State) : State := resetRegisters (abandonJob s)

end Sys2Proof.Machine
end

