-- ==== Sys2Proof/Machine/Engine.lean ====
section
/-! DEFINITION. The steps of the engine, ENGINE_WRITE and ENGINE_COMPLETE (40_commands.md R86, R87), and which of them a
slot of the schedule runs (20_memory.md R56; logs 3, 4, 13). -/

namespace Sys2Proof.Machine

/-- The engine writes one pending byte and removes it from the job (R86). -/
def engineWrite (s : State) (j : Job) (a : Nat) (v : Byte) : State :=
  { writeMem s a v with job := some { j with pending := cellErase j.pending a } }

/-- ENGINE_WRITE at address `a`: enabled when STATE is BUSY and `a` is in the domain of JOB.pending (R86). -/
def execEngineWrite (a : Word) (s : State) : Result :=
  match s.job with
  | none => .fault .engineWriteNotEnabled
  | some j =>
    if s.statusState = busy then
      match cellGet j.pending a.toNat with
      | some v => .next (engineWrite s j a.toNat v)
      | none => .fault .engineWriteNotEnabled
    else .fault .engineWriteNotEnabled

/-- The report of a job's end: BUS_ERROR for a BUSERR job, DONE for every other (R87). -/
def reportEnd (s : State) (k : JobKind) : State :=
  match k with
  | .normal => { s with intStatus := s.intStatus ||| doneBit }
  | .collide => { s with intStatus := s.intStatus ||| doneBit }
  | .busErr => fail .busError s

/-- The end of a job: reported, the job removed, the block CONFIGURED again (R87). -/
def engineComplete (s : State) (k : JobKind) : State :=
  { reportEnd s k with job := none, statusState := configured }

/-- ENGINE_COMPLETE: enabled when STATE is BUSY and JOB.pending is empty (R87). -/
def execEngineComplete (s : State) : Result :=
  match s.job with
  | none => .fault .engineCompleteNotEnabled
  | some j =>
    if s.statusState = busy then
      match j.pending with
      | [] => .next (engineComplete s j.kind)
      | _ :: _ => .fault .engineCompleteNotEnabled
    else .fault .engineCompleteNotEnabled

/-- The engine step a slot runs, if one is enabled: the write of the pending address the slot picks, or, with nothing
pending, the end of the job (R86, R87). -/
def engineChoice (pick : Nat) (s : State) : Option Instr :=
  if s.statusState = busy then
    match s.job with
    | none => none
    | some j =>
      match j.pending with
      | [] => some .engineComplete
      | c :: cs => some (.engineWrite (BitVec.ofNat 32 ((c :: cs).getD (pick % (cs.length + 1)) c).1))
  else none

end Sys2Proof.Machine
end

