-- ==== Sys2Proof/WellFormed.lean ====
section
/-! DEFINITION. Which terms of `Instr` stand for an operation the block can be given: a transaction's offset is a
multiple of 4 (40_commands.md R79; below 0x1000 by its width), and `illegal` carries an illegal command word
(30_encoding.md R67). Every other constructor has no operand to check. -/

namespace Sys2Proof

/-- The offset names one of the 1024 word offsets of the window (30_encoding.md R70, R71). -/
def offsetAligned (off : BitVec 12) : Bool := off.extractLsb' 0 2 == 0#2

/-- A command word is illegal when `w[31:4] != 0` or `w[3:0] >= 4` (30_encoding.md R67). -/
def illegalWord (w : Word) : Bool := w.extractLsb' 4 28 != 0#28 || decide (4 ≤ (w.extractLsb' 0 4).toNat)

/-- The well-formedness check of an instruction. -/
def wellFormed : Instr → Bool
  | .regWrite off _ => offsetAligned off
  | .regRead off => offsetAligned off
  | .illegal w => illegalWord w
  | .nop => true
  | .configure => true
  | .execute => true
  | .softReset => true
  | .engineWrite _ => true
  | .engineComplete => true
  | .combineRgb888 => true
  | .combineRgba8888 => true
  | .combineYuyv422 => true
  | .combineUyvy422 => true
  | .combineYuv444 => true
  | .combineIyuv => true
  | .combineNv12 => true
  | .combineNv21 => true

end Sys2Proof
end

