-- ==== Sys2Proof/Decode.lean ====
section
/-! DEFINITION. The decoders, one for each of the block's three encodings (30_encoding.md R74, R78): the register-port
transaction (R70, R75), the command word (R66, R67) and the format code (R68); the register map (R65); and the
encoder, written from the same tables. -/

namespace Sys2Proof

/-- Why bits are not an operation of the block. -/
inductive Reject where
  /-- A byte or halfword access of the register port (R70, R79). -/
  | narrowAccess
  /-- An offset that is not a multiple of 4 (R70, R79). -/
  | misalignedAccess
  /-- A transaction word with a bit above `dir` set; the word has 13 bits (opcode_table.json; log 9). -/
  | undefinedHeaderBits
  /-- A format code outside 1 to 8 (R68). -/
  | unrecognizedFormat
  /-- Fewer bytes than the encoding has. -/
  | truncated
  /-- The engine's steps have no encoding (opcode_table.json, rows ENGINE_WRITE and ENGINE_COMPLETE). -/
  | noEncoding
  deriving DecidableEq, Repr

/-- What decoding answers. -/
inductive Decoded where
  | instr (i : Instr)
  | rejected (why : Reject)
  deriving DecidableEq, Repr

/-! ## The register port -/

/-- `dir`, bit 12 of a transaction word: 1 for a write. -/
def PortRequest.isWrite (r : PortRequest) : Bool := r.header.getLsbD 12

/-- `off`, bits 11 to 0 of a transaction word. -/
def PortRequest.offset (r : PortRequest) : BitVec 12 := r.header.extractLsb' 0 12

/-- The bits of the transaction word above `dir`; none of them exists (log 9). -/
def PortRequest.undefinedBits (r : PortRequest) : BitVec 3 := r.header.extractLsb' 13 3

/-- A register-port transaction (30_encoding.md R70): only a 32-bit access at a multiple of 4 is admitted. -/
def decodePort (r : PortRequest) : Decoded :=
  if r.width ≠ .word then .rejected .narrowAccess
  else if r.undefinedBits ≠ 0#3 then .rejected .undefinedHeaderBits
  else if r.offset.toNat % 4 ≠ 0 then .rejected .misalignedAccess
  else if r.isWrite then .instr (.regWrite r.offset r.data)
  else .instr (.regRead r.offset)

/-- The register map (30_encoding.md R65); every offset it does not list is reserved (R71). -/
def regAt (off : BitVec 12) : Reg :=
  let n := off.toNat
  if n % 4 ≠ 0 then .reserved
  else if n < 0x020 then
    match n / 4 with
    | 0 => .id
    | 1 => .cmd
    | 2 => .status
    | 3 => .intStatus
    | 4 => .intEnable
    | 5 => .format
    | 6 => .srcCount
    | _ => .dstCount
  else if n < 0x060 then
    let c := Fin.ofNat 4 ((n - 0x020) / 0x10)
    match n % 0x10 with
    | 0x0 => .srcBase c
    | 0x4 => .srcStride c
    | 0x8 => .srcDim c
    | _ => .reserved
  else if n < 0x090 then
    let p := Fin.ofNat 3 ((n - 0x060) / 0x10)
    match n % 0x10 with
    | 0x0 => .dstBase p
    | 0x4 => .dstStride p
    | 0x8 => .dstDim p
    | _ => .reserved
  else .reserved

/-- The offset of a register (30_encoding.md R65); for `reserved`, one of the reserved offsets. -/
def regOffset : Reg → BitVec 12
  | .id => 0x000
  | .cmd => 0x004
  | .status => 0x008
  | .intStatus => 0x00C
  | .intEnable => 0x010
  | .format => 0x014
  | .srcCount => 0x018
  | .dstCount => 0x01C
  | .srcBase c => BitVec.ofNat 12 (0x020 + 0x10 * c.val)
  | .srcStride c => BitVec.ofNat 12 (0x024 + 0x10 * c.val)
  | .srcDim c => BitVec.ofNat 12 (0x028 + 0x10 * c.val)
  | .dstBase p => BitVec.ofNat 12 (0x060 + 0x10 * p.val)
  | .dstStride p => BitVec.ofNat 12 (0x064 + 0x10 * p.val)
  | .dstDim p => BitVec.ofNat 12 (0x068 + 0x10 * p.val)
  | .reserved => 0x02C

/-! ## The command word -/

/-- `CMD.OP`, bits 3 to 0 of a command word (30_encoding.md R66). -/
def commandOp (w : Word) : BitVec 4 := w.extractLsb' 0 4

/-- The reserved bits 31 to 4 of a command word (30_encoding.md R66). -/
def commandReserved (w : Word) : BitVec 28 := w.extractLsb' 4 28

/-- A command word (30_encoding.md R66, R67): every word is one of the four commands or illegal. -/
def decodeCommand (w : Word) : Instr :=
  if commandReserved w ≠ 0#28 then .illegal w
  else match (commandOp w).toNat with
    | 0 => .nop
    | 1 => .configure
    | 2 => .execute
    | 3 => .softReset
    | _ => .illegal w

/-! ## The format code -/

/-- The format a code of `FORMAT.FMT` selects (30_encoding.md R68). -/
def decodeFormat (code : BitVec 4) : Option Format :=
  match code.toNat with
  | 1 => some .rgb888
  | 2 => some .rgba8888
  | 3 => some .yuyv422
  | 4 => some .uyvy422
  | 5 => some .yuv444
  | 6 => some .iyuv
  | 7 => some .nv12
  | 8 => some .nv21
  | _ => none

/-- The code of a format (30_encoding.md R68). -/
def formatCode : Format → BitVec 4
  | .rgb888 => 1
  | .rgba8888 => 2
  | .yuyv422 => 3
  | .uyvy422 => 4
  | .yuv444 => 5
  | .iyuv => 6
  | .nv12 => 7
  | .nv21 => 8

/-- The combine a format names (30_encoding.md R68, column "combine rule"). -/
def combineOf : Format → Instr
  | .rgb888 => .combineRgb888
  | .rgba8888 => .combineRgba8888
  | .yuyv422 => .combineYuyv422
  | .uyvy422 => .combineUyvy422
  | .yuv444 => .combineYuv444
  | .iyuv => .combineIyuv
  | .nv12 => .combineNv12
  | .nv21 => .combineNv21

/-! ## Bytes -/

/-- The four sets of rows of spec/opcode_table.json, by what they match (30_encoding.md R78). -/
inductive Space where
  | regPort | command | formatCode | engine
  deriving DecidableEq, Repr

/-- The set of rows an operation belongs to. -/
def spaceOf : Instr → Space
  | .regWrite _ _ => .regPort
  | .regRead _ => .regPort
  | .nop => .command
  | .configure => .command
  | .execute => .command
  | .softReset => .command
  | .illegal _ => .command
  | .engineWrite _ => .engine
  | .engineComplete => .engine
  | .combineRgb888 => .formatCode
  | .combineRgba8888 => .formatCode
  | .combineYuyv422 => .formatCode
  | .combineUyvy422 => .formatCode
  | .combineYuv444 => .formatCode
  | .combineIyuv => .formatCode
  | .combineNv12 => .formatCode
  | .combineNv21 => .formatCode

/-- Two bytes as a transaction word, the first the least significant (log 9). -/
def halfOfBytes (b0 b1 : Byte) : BitVec 16 := BitVec.ofNat 16 (b0.toNat + 2 ^ 8 * b1.toNat)

/-- Four bytes as a word, the first the least significant (log 9). -/
def wordOfBytes (b0 b1 b2 b3 : Byte) : Word :=
  BitVec.ofNat 32 (b0.toNat + 2 ^ 8 * b1.toNat + 2 ^ 16 * b2.toNat + 2 ^ 24 * b3.toNat)

/-- Byte `k` of a word, byte 0 the least significant. -/
def byteOfWord (w : Word) (k : Nat) : Byte := w.extractLsb' (8 * k) 8

/-- What decoding bytes answers: the operation with the bytes left over, or why there is none. -/
inductive DecodedBytes where
  | instr (i : Instr) (rest : List Byte)
  | rejected (why : Reject)
  deriving DecidableEq, Repr

/-- What decoding answers, with the bytes left over. -/
def Decoded.withRest (d : Decoded) (rest : List Byte) : DecodedBytes :=
  match d with
  | .instr i => .instr i rest
  | .rejected why => .rejected why

/-- A format code held in a byte: the code is bits 3 to 0, and no code has a bit above them (30_encoding.md R68). -/
def decodeFormatByte (b : Byte) : Decoded :=
  if b.extractLsb' 4 4 ≠ 0#4 then .rejected .unrecognizedFormat
  else match decodeFormat (b.extractLsb' 0 4) with
    | some f => .instr (combineOf f)
    | none => .rejected .unrecognizedFormat

/-- Decoding of bytes: a transaction is its 2-byte word and, in a write, its 4 bytes of data; a command is 4 bytes;
a format code is 1 byte; the engine's steps have no encoding (log 9). -/
def decodeBytes (sp : Space) (bytes : List Byte) : DecodedBytes :=
  match sp with
  | .regPort =>
    match bytes with
    | h0 :: h1 :: rest =>
      let header := halfOfBytes h0 h1
      if header.getLsbD 12 then
        match rest with
        | d0 :: d1 :: d2 :: d3 :: rest' =>
          (decodePort ⟨header, .word, wordOfBytes d0 d1 d2 d3⟩).withRest rest'
        | _ => .rejected .truncated
      else (decodePort ⟨header, .word, 0#32⟩).withRest rest
    | _ => .rejected .truncated
  | .command =>
    match bytes with
    | d0 :: d1 :: d2 :: d3 :: rest => .instr (decodeCommand (wordOfBytes d0 d1 d2 d3)) rest
    | _ => .rejected .truncated
  | .formatCode =>
    match bytes with
    | b :: rest => (decodeFormatByte b).withRest rest
    | _ => .rejected .truncated
  | .engine => .rejected .noEncoding

/-! ## The encoder -/

/-- The transaction word `dir<<12 | off` (opcode_table.json, rows REG_WRITE and REG_READ). -/
def encodeHeader (write : Bool) (off : BitVec 12) : BitVec 16 :=
  BitVec.ofNat 16 ((if write then 2 ^ 12 else 0) + off.toNat)

/-- The bytes of a word, the least significant first. -/
def bytesOfWord (w : Word) : List Byte := [byteOfWord w 0, byteOfWord w 1, byteOfWord w 2, byteOfWord w 3]

/-- The bytes of a transaction word, the least significant first. -/
def bytesOfHalf (h : BitVec 16) : List Byte := [h.extractLsb' 0 8, h.extractLsb' 8 8]

/-- The byte of a format's code (30_encoding.md R68). -/
def bytesOfFormat (f : Format) : List Byte := [(formatCode f).setWidth 8]

/-- The bytes of an operation, `none` for the engine's steps, which have no encoding. -/
def encode : Instr → Option (List Byte)
  | .regWrite off data => some (bytesOfHalf (encodeHeader true off) ++ bytesOfWord data)
  | .regRead off => some (bytesOfHalf (encodeHeader false off))
  | .nop => some (bytesOfWord 0x00000000)
  | .configure => some (bytesOfWord 0x00000001)
  | .execute => some (bytesOfWord 0x00000002)
  | .softReset => some (bytesOfWord 0x00000003)
  | .illegal w => some (bytesOfWord w)
  | .engineWrite _ => none
  | .engineComplete => none
  | .combineRgb888 => some (bytesOfFormat .rgb888)
  | .combineRgba8888 => some (bytesOfFormat .rgba8888)
  | .combineYuyv422 => some (bytesOfFormat .yuyv422)
  | .combineUyvy422 => some (bytesOfFormat .uyvy422)
  | .combineYuv444 => some (bytesOfFormat .yuv444)
  | .combineIyuv => some (bytesOfFormat .iyuv)
  | .combineNv12 => some (bytesOfFormat .nv12)
  | .combineNv21 => some (bytesOfFormat .nv21)

/-! ## The words of spec/opcode_table.json -/

/-- Which encoding a row of `nbits` bits belongs to: 4 bits a format code, 13 bits (2 bytes) a transaction word,
32 bits a command word; more, a transaction word followed by its data (log 9). -/
def spaceOfBits (nbits : Nat) : Space :=
  if nbits ≤ 8 then .formatCode
  else if nbits ≤ 16 then .regPort
  else if nbits ≤ 32 then .command
  else .regPort

/-- The bits of a table word laid out as 6 bytes, the longest operation there is, zero above `nbits`. -/
def bytesOfTableWord (nbits w : Nat) : List Byte :=
  (List.range 6).map fun k => BitVec.ofNat 8 ((w % 2 ^ nbits) >>> (8 * k))

/-- The operation the decoder reads from a word numbered as spec/opcode_table.json numbers it. -/
def decodeTableWord (nbits w : Nat) : Option Instr :=
  match decodeBytes (spaceOfBits nbits) (bytesOfTableWord nbits w) with
  | .instr i _ => some i
  | .rejected _ => none

end Sys2Proof
end

