-- ==== Sys2Proof/Machine/Descriptor.lean ====
section
/-! DEFINITION. The format descriptor (41_format_descriptor.md) and the layout planner (42_layout_planner.md). -/

namespace Sys2Proof.Machine

/-- One plane of a descriptor: the element size `E_p`, the divisors `DX_p` and `DY_p`, and the channels of the
plane's successive bytes, repeating along a row (41_format_descriptor.md R91, R92). -/
structure PlaneDesc where
  elemBytes : Nat
  dx        : Nat
  dy        : Nat
  pattern   : List Channel
  deriving DecidableEq, Repr

/-- What `describe` returns (41_format_descriptor.md R91): `order` holds the channel of each source slot, so NCH is
its length; P is the number of planes. -/
structure Descriptor where
  layout : LayoutClass
  order  : List Channel
  sx     : Nat
  sy     : Nat
  planes : List PlaneDesc
  deriving DecidableEq, Repr

/-- A plane no format has. -/
def noPlane : PlaneDesc := { elemBytes := 0, dx := 1, dy := 1, pattern := [] }

/-- The eight descriptors (41_format_descriptor.md R93 to R101). -/
def describe : Format → Descriptor
  | .rgb888 =>
    { layout := .interleaved, order := [.r, .g, .b], sx := 1, sy := 1,
      planes := [{ elemBytes := 3, dx := 1, dy := 1, pattern := [.r, .g, .b] }] }
  | .rgba8888 =>
    { layout := .interleaved, order := [.r, .g, .b, .a], sx := 1, sy := 1,
      planes := [{ elemBytes := 4, dx := 1, dy := 1, pattern := [.r, .g, .b, .a] }] }
  | .yuyv422 =>
    { layout := .packed, order := [.y, .u, .v], sx := 2, sy := 1,
      planes := [{ elemBytes := 2, dx := 1, dy := 1, pattern := [.y, .u, .y, .v] }] }
  | .uyvy422 =>
    { layout := .packed, order := [.y, .u, .v], sx := 2, sy := 1,
      planes := [{ elemBytes := 2, dx := 1, dy := 1, pattern := [.u, .y, .v, .y] }] }
  | .yuv444 =>
    { layout := .planar, order := [.y, .u, .v], sx := 1, sy := 1,
      planes := [{ elemBytes := 1, dx := 1, dy := 1, pattern := [.y] },
                 { elemBytes := 1, dx := 1, dy := 1, pattern := [.u] },
                 { elemBytes := 1, dx := 1, dy := 1, pattern := [.v] }] }
  | .iyuv =>
    { layout := .planar, order := [.y, .u, .v], sx := 2, sy := 2,
      planes := [{ elemBytes := 1, dx := 1, dy := 1, pattern := [.y] },
                 { elemBytes := 1, dx := 2, dy := 2, pattern := [.u] },
                 { elemBytes := 1, dx := 2, dy := 2, pattern := [.v] }] }
  | .nv12 =>
    { layout := .semiplanar, order := [.y, .u, .v], sx := 2, sy := 2,
      planes := [{ elemBytes := 1, dx := 1, dy := 1, pattern := [.y] },
                 { elemBytes := 2, dx := 2, dy := 2, pattern := [.u, .v] }] }
  | .nv21 =>
    { layout := .semiplanar, order := [.y, .u, .v], sx := 2, sy := 2,
      planes := [{ elemBytes := 1, dx := 1, dy := 1, pattern := [.y] },
                 { elemBytes := 2, dx := 2, dy := 2, pattern := [.v, .u] }] }

/-- NCH, the number of source channels a format requires (41_format_descriptor.md R91). -/
def channelCount (f : Format) : Nat := (describe f).order.length

/-- P, the plane count of a format (41_format_descriptor.md R91). -/
def planeCount (f : Format) : Nat := (describe f).planes.length

/-- Plane `p` of a format. -/
def planeDesc (f : Format) (p : Fin 3) : PlaneDesc := (describe f).planes.getD p.val noPlane

/-- The bound source slots of a format, `c < NCH` (00_scope.md glossary). -/
def boundSources (f : Format) : List (Fin 4) := [0, 1, 2, 3].filter fun c => decide (c.val < channelCount f)

/-- The destination planes of a format, `p < P`. -/
def boundPlanes (f : Format) : List (Fin 3) := [0, 1, 2].filter fun p => decide (p.val < planeCount f)

/-! ## The layout planner -/

/-- The geometry of one plane: width in elements, height, and minimum stride in bytes (42_layout_planner.md R102). -/
structure PlaneGeom where
  width     : Nat
  height    : Nat
  minStride : Nat
  deriving DecidableEq, Repr

/-- Whether a shape meets a format's evenness requirement (42_layout_planner.md R103). -/
def evenEnough (f : Format) (w h : Nat) : Bool :=
  decide (w % (describe f).sx = 0) && decide (h % (describe f).sy = 0)

/-- The geometry of plane `p` for an image of `w` by `h`; every division is exact where the plan is asked for
(42_layout_planner.md R102, R104; log 27). -/
def planeGeom (f : Format) (w h : Nat) (p : Fin 3) : PlaneGeom :=
  let d := planeDesc f p
  { width := w / d.dx, height := h / d.dy, minStride := w / d.dx * d.elemBytes }

/-- `plan(W, H, fmt)`; `none` is SHAPE_MISMATCH (42_layout_planner.md R102). -/
def plan (f : Format) (w h : Nat) : Option (List PlaneGeom) :=
  if evenEnough f w h then some ((boundPlanes f).map (planeGeom f w h)) else none

/-- The required byte size of a plane with a stride (42_layout_planner.md R106); the block never checks it. -/
def planeBytes (g : PlaneGeom) (stride : Nat) : Nat := (g.height - 1) * stride + g.minStride

end Sys2Proof.Machine
end

