-- ==== Sys2Proof/Machine/Operands.lean ====
section
/-! DEFINITION. The operands: the registers as words and what a write stores in each (10_state.md R15 to R36,
40_commands.md R79, R80), the fields CONFIGURE and EXECUTE assemble (30_encoding.md R69), and the addresses of
samples and of destination bytes (20_memory.md R50). -/

namespace Sys2Proof.Machine

/-! ## Registers as words -/

/-- The constant of the register ID (10_state.md R15). -/
def idWord : Word := 0x50430100#32

/-- A register as a host reads it; reserved bits, reserved offsets and CMD read as zero (40_commands.md R80). -/
def readReg (s : State) : Reg → Word
  | .id => idWord
  | .cmd => 0#32
  | .status => s.statusWord
  | .intStatus => s.intStatus.setWidth 32
  | .intEnable => s.intEnable.setWidth 32
  | .format => s.format.setWidth 32
  | .srcCount => s.srcCount.setWidth 32
  | .dstCount => s.dstCount.setWidth 32
  | .srcBase c => (s.src c).base
  | .srcStride c => (s.src c).stride
  | .srcDim c => (s.src c).dim
  | .dstBase p => (s.dst p).base
  | .dstStride p => (s.dst p).stride
  | .dstDim p => (s.dst p).dim
  | .reserved => 0#32

/-- A change of a geometry register, locked outside UNCONFIGURED (10_state.md R32). -/
def unlessConfigured (s : State) (t : State) : State := if s.statusState = unconfigured then t else s

/-- A change of a base register, locked in BUSY (10_state.md R33). -/
def unlessBusy (s : State) (t : State) : State := if s.statusState = busy then s else t

/-- What a host write stores (40_commands.md R79); a write of CMD stores nothing, its command is `command`. -/
def writeReg (s : State) (r : Reg) (data : Word) : State :=
  match r with
  | .id => s
  | .cmd => s
  | .status => s
  | .intStatus => acknowledge data s
  | .intEnable => { s with intEnable := data.extractLsb' 0 2 }
  | .format => unlessConfigured s { s with format := data.extractLsb' 0 4 }
  | .srcCount => unlessConfigured s { s with srcCount := data.extractLsb' 0 3 }
  | .dstCount => unlessConfigured s { s with dstCount := data.extractLsb' 0 3 }
  | .srcBase c => unlessBusy s (s.setSrc c { s.src c with base := data })
  | .srcStride c => unlessConfigured s (s.setSrc c { s.src c with stride := data })
  | .srcDim c => unlessConfigured s (s.setSrc c { s.src c with dim := data })
  | .dstBase p => unlessBusy s (s.setDst p { s.dst p with base := data })
  | .dstStride p => unlessConfigured s (s.setDst p { s.dst p with stride := data })
  | .dstDim p => unlessConfigured s (s.setDst p { s.dst p with dim := data })
  | .reserved => s

/-! ## Operand assembly (30_encoding.md R69) -/

/-- `*_DIM.W`, bits 15:0 of a dimension register (10_state.md R28, R31). -/
def Slot.width (d : Slot) : Nat := (d.dim.extractLsb' 0 16).toNat

/-- `*_DIM.H`, bits 31:16 of a dimension register (10_state.md R28, R31). -/
def Slot.height (d : Slot) : Nat := (d.dim.extractLsb' 16 16).toNat

/-- The format FORMAT.FMT selects, if its code is recognized. -/
def State.selected (s : State) : Option Format := decodeFormat s.format

/-- W, the image width: that of source slot 0. -/
def State.imageW (s : State) : Nat := s.src0.width

/-- H, the image height: that of source slot 0. -/
def State.imageH (s : State) : Nat := s.src0.height

/-! ## Addresses (20_memory.md R50) -/

/-- One write position (p, x, y, k) (20_memory.md R51). -/
structure Pos where
  p : Fin 3
  x : Nat
  y : Nat
  k : Nat
  deriving DecidableEq, Repr

/-- One source sample (c, sx, sy) (40_commands.md R85). -/
structure Sample where
  c : Fin 4
  x : Nat
  y : Nat
  deriving DecidableEq, Repr

/-- `SA(c, x, y)`. -/
def srcAddr (s : State) (q : Sample) : Nat :=
  addr32 ((s.src q.c).base.toNat + q.y * (s.src q.c).stride.toNat + q.x)

/-- `S(c, x, y)`. -/
def sampleAt (s : State) (q : Sample) : Byte := readMem s (srcAddr s q)

/-- `DA(p, x, y, k)` for the elements of a format. -/
def dstAddr (s : State) (f : Format) (q : Pos) : Nat :=
  addr32 ((s.dst q.p).base.toNat + q.y * (s.dst q.p).stride.toNat + q.x * (planeDesc f q.p).elemBytes + q.k)

end Sys2Proof.Machine
end

