-- ==== Sys2Proof/Machine/Select.lean ====
section
/-! DEFINITION. The selection functions `SEL(p, x, y, k) = (c, sx, sy)`, one per format: which source sample each
destination byte copies (40_commands.md R85; 43 to 46). -/

namespace Sys2Proof.Machine

/-- RGB888 (43_combine_interleaved.md R111): byte k of the element of pixel (x, y) is the sample of slot k. -/
def selectRgb888 (q : Pos) : Sample := { c := Fin.ofNat 4 q.k, x := q.x, y := q.y }

/-- RGBA8888 (43_combine_interleaved.md R112). -/
def selectRgba8888 (q : Pos) : Sample := { c := Fin.ofNat 4 q.k, x := q.x, y := q.y }

/-- The chroma sample of a packed pixel: U at an even column; at an odd column V, of the pair's even column
(44_combine_packed.md R115). -/
def packedChroma (q : Pos) : Sample :=
  if q.x % 2 = 0 then { c := 1, x := q.x, y := q.y } else { c := 2, x := q.x - 1, y := q.y }

/-- YUYV422 (44_combine_packed.md R116): luma first. -/
def selectYuyv422 (q : Pos) : Sample :=
  if q.k = 0 then { c := 0, x := q.x, y := q.y } else packedChroma q

/-- UYVY422 (44_combine_packed.md R117): chroma first. -/
def selectUyvy422 (q : Pos) : Sample :=
  if q.k = 0 then packedChroma q else { c := 0, x := q.x, y := q.y }

/-- YUV444 (45_combine_planar.md R119): plane p copies slot p. -/
def selectYuv444 (q : Pos) : Sample := { c := Fin.castSucc q.p, x := q.x, y := q.y }

/-- The top-left sample of a 2x2 block of a channel (45_combine_planar.md R118; log 23). -/
def topLeft (c : Fin 4) (q : Pos) : Sample := { c := c, x := 2 * q.x, y := 2 * q.y }

/-- IYUV (45_combine_planar.md R120). -/
def selectIyuv (q : Pos) : Sample :=
  match q.p with
  | 0 => { c := 0, x := q.x, y := q.y }
  | 1 => topLeft 1 q
  | 2 => topLeft 2 q

/-- NV12 (46_combine_semiplanar.md R122): U first, then V. -/
def selectNv12 (q : Pos) : Sample :=
  match q.p with
  | 0 => { c := 0, x := q.x, y := q.y }
  | _ => if q.k = 0 then topLeft 1 q else topLeft 2 q

/-- NV21 (46_combine_semiplanar.md R123): V first, then U. -/
def selectNv21 (q : Pos) : Sample :=
  match q.p with
  | 0 => { c := 0, x := q.x, y := q.y }
  | _ => if q.k = 0 then topLeft 2 q else topLeft 1 q

/-- The selection function of a format (40_commands.md R85). -/
def select : Format → Pos → Sample
  | .rgb888 => selectRgb888
  | .rgba8888 => selectRgba8888
  | .yuyv422 => selectYuyv422
  | .uyvy422 => selectUyvy422
  | .yuv444 => selectYuv444
  | .iyuv => selectIyuv
  | .nv12 => selectNv12
  | .nv21 => selectNv21

end Sys2Proof.Machine
end

