-- ==== Sys2Proof/Machine/Job.lean ====
section
/-! DEFINITION. What an accepted EXECUTE makes of the registers and the memory: the write positions, the write and
read sets (20_memory.md R51, R52), the kind of the job (R59, 60_exceptions.md R145) and its record (40_commands.md R85). -/

namespace Sys2Proof.Machine

/-- POS, the write positions of a format for an image of `w` by `h` (20_memory.md R51). -/
def positions (f : Format) (w h : Nat) : List Pos :=
  (boundPlanes f).flatMap fun p =>
    (List.range (planeGeom f w h p).height).flatMap fun y =>
      (List.range (planeGeom f w h p).width).flatMap fun x =>
        (List.range (planeDesc f p).elemBytes).map fun k => { p := p, x := x, y := y, k := k }

/-- POS of the job the registers describe. -/
def jobPositions (s : State) (f : Format) : List Pos := positions f s.imageW s.imageH

/-- WSET (20_memory.md R51). -/
def writeSet (s : State) (f : Format) : List Nat := addrSet ((jobPositions s f).map (dstAddr s f))

/-- RSET (20_memory.md R52). -/
def readSet (s : State) (f : Format) : List Nat :=
  addrSet ((jobPositions s f).map fun q => srcAddr s (select f q))

/-- Whether some address of the job answers with a bus error (60_exceptions.md R145). -/
def jobBusError (s : State) (f : Format) : Bool :=
  (writeSet s f).any (busError s) || (readSet s f).any (busError s)

/-- Whether the job collides (20_memory.md R59): two write positions give the same address, or WSET meets RSET. -/
def jobCollides (s : State) (f : Format) : Bool :=
  decide ((writeSet s f).length < (jobPositions s f).length) || (writeSet s f).any ((readSet s f).contains ·)

/-- The kind of the job; a bus error wins (40_commands.md R85, 60_exceptions.md R148). -/
def jobKind (s : State) (f : Format) : JobKind :=
  if jobBusError s f then .busErr else if jobCollides s f then .collide else .normal

/-- The bytes of a NORMAL job: each write position's selected sample, read now (40_commands.md R85). -/
def selectedCells (s : State) (f : Format) : List Host.Cell :=
  cellSetAll [] ((jobPositions s f).map fun q => (dstAddr s f q, sampleAt s (select f q)))

/-- `JOB.pending` at acceptance: the selected bytes for a NORMAL job, free bytes otherwise (40_commands.md R85; log 5). -/
def jobBytes (s : State) (f : Format) : List Host.Cell :=
  match jobKind s f with
  | .normal => selectedCells s f
  | .collide => freeCells s.draws (writeSet s f)
  | .busErr => freeCells s.draws (writeSet s f)

/-- How many free values the acceptance of the job takes. -/
def jobDraws (s : State) (f : Format) : Nat :=
  match jobKind s f with
  | .normal => 0
  | .collide => (writeSet s f).length
  | .busErr => (writeSet s f).length

/-- The job an accepted EXECUTE creates (40_commands.md R85, 10_state.md R41; log 6 for `before`). -/
def newJob (s : State) (f : Format) : Job :=
  { pending := jobBytes s f
    wset := writeSet s f
    kind := jobKind s f
    before := (writeSet s f).map fun a => (a, readMem s a) }

/-- The state after an accepted EXECUTE: STATUS.ERR is NONE, the job is present, STATE is BUSY (40_commands.md R85). -/
def startJob (f : Format) (s : State) : State :=
  { s with
    statusErr := ErrCode.none.code
    job := some (newJob s f)
    draws := s.draws + jobDraws s f
    statusState := busy }

/-- The protocol of EXECUTE (40_commands.md R81, R85): ignored in BUSY, ILLEGAL_COMMAND unless CONFIGURED, otherwise
the job starts. -/
def executeProtocol (s : State) (start : State → Result) : Result :=
  if s.statusState = busy then .next s
  else if s.statusState ≠ configured then .next (fail .illegalCommand s)
  else start s

/-- EXECUTE with the code of `f` in FORMAT.FMT (30_encoding.md R68); another code does not select `f` (log 11). -/
def combine (f : Format) (s : State) : Result :=
  if s.selected = some f then executeProtocol s fun s => .next (startJob f s)
  else .fault .combineNotSelected

end Sys2Proof.Machine
end

