-- ==== Sys2Proof/Machine/Interleaved.lean ====
section
/-! DEFINITION. The interleaved combines (43_combine_interleaved.md R110 to R113). -/

namespace Sys2Proof.Machine

/-- EXECUTE with FORMAT.FMT = 1 (R111). -/
def execCombineRgb888 (s : State) : Result := combine .rgb888 s

/-- EXECUTE with FORMAT.FMT = 2 (R112). -/
def execCombineRgba8888 (s : State) : Result := combine .rgba8888 s

end Sys2Proof.Machine
end

