-- ==== Sys2Proof/Machine/Packed.lean ====
section
/-! DEFINITION. The packed 4:2:2 combines (44_combine_packed.md R114 to R117). -/

namespace Sys2Proof.Machine

/-- EXECUTE with FORMAT.FMT = 3 (R116). -/
def execCombineYuyv422 (s : State) : Result := combine .yuyv422 s

/-- EXECUTE with FORMAT.FMT = 4 (R117). -/
def execCombineUyvy422 (s : State) : Result := combine .uyvy422 s

end Sys2Proof.Machine
end

