-- ==== Sys2Proof/Machine/Planar.lean ====
section
/-! DEFINITION. The planar combines (45_combine_planar.md R118 to R120). -/

namespace Sys2Proof.Machine

/-- EXECUTE with FORMAT.FMT = 5 (R119). -/
def execCombineYuv444 (s : State) : Result := combine .yuv444 s

/-- EXECUTE with FORMAT.FMT = 6 (R120). -/
def execCombineIyuv (s : State) : Result := combine .iyuv s

end Sys2Proof.Machine
end

