-- ==== Sys2Proof/Machine/Semiplanar.lean ====
section
/-! DEFINITION. The semi-planar combines (46_combine_semiplanar.md R121 to R124). -/

namespace Sys2Proof.Machine

/-- EXECUTE with FORMAT.FMT = 7 (R122). -/
def execCombineNv12 (s : State) : Result := combine .nv12 s

/-- EXECUTE with FORMAT.FMT = 8 (R123). -/
def execCombineNv21 (s : State) : Result := combine .nv21 s

end Sys2Proof.Machine
end

