-- ==== Sys2Proof/Machine/Validator.lean ====
section
/-! DEFINITION. The configuration validator, the body of CONFIGURE (47_configuration_validator.md R125 to R136). -/

namespace Sys2Proof.Machine

/-- Check 3: a bound source without samples (R128). -/
def emptySource (s : State) (f : Format) : Bool :=
  (boundSources f).any fun c => (s.src c).width == 0 || (s.src c).height == 0

/-- Check 4: a bound source whose shape is not that of slot 0 (R129). -/
def unequalSource (s : State) (f : Format) : Bool :=
  (boundSources f).any fun c => (s.src c).width != s.imageW || (s.src c).height != s.imageH

/-- Check 5: a bound source whose stride is below its width (R130). -/
def shortSourceStride (s : State) (f : Format) : Bool :=
  (boundSources f).any fun c => decide ((s.src c).stride.toNat < (s.src c).width)

/-- Check 8: a plane whose dimensions are not the plan's (R133). -/
def unplannedPlane (s : State) (f : Format) (g : List PlaneGeom) : Bool :=
  ((boundPlanes f).zip g).any fun pg =>
    (s.dst pg.1).width != pg.2.width || (s.dst pg.1).height != pg.2.height

/-- Check 9: a plane whose stride is below the plan's minimum stride (R134). -/
def shortPlaneStride (s : State) (f : Format) (g : List PlaneGeom) : Bool :=
  ((boundPlanes f).zip g).any fun pg => decide ((s.dst pg.1).stride.toNat < pg.2.minStride)

/-- Checks 7 to 9, on the planes of a plan. -/
def checkDestination (s : State) (f : Format) (g : List PlaneGeom) : Option ErrCode :=
  if s.dstCount.toNat ≠ planeCount f then some .destGeometryMismatch
  else if unplannedPlane s f g then some .destGeometryMismatch
  else if shortPlaneStride s f g then some .destGeometryMismatch
  else none

/-- Checks 2 to 9, for a recognized format. -/
def checkFormat (s : State) (f : Format) : Option ErrCode :=
  if s.srcCount.toNat ≠ channelCount f then some .channelCountMismatch
  else if emptySource s f then some .shapeMismatch
  else if unequalSource s f then some .shapeMismatch
  else if shortSourceStride s f then some .shapeMismatch
  else match plan f s.imageW s.imageH with
    | none => some .shapeMismatch
    | some g => checkDestination s f g

/-- `VALIDATE()`: the code of the first check that fails, `none` for OK (R125). -/
def validate (s : State) : Option ErrCode :=
  match s.selected with
  | none => some .unsupportedFormat
  | some f => checkFormat s f

end Sys2Proof.Machine
end

