-- ==== Sys2Proof/Machine/Commands.lean ====
section
/-! DEFINITION. The commands a write of CMD issues (40_commands.md R81 to R88), each with the rule that a busy block
ignores every word but SOFT_RESET (R81; log 10). -/

namespace Sys2Proof.Machine

/-- A busy block ignores a command (40_commands.md R81). -/
def unlessBusyIgnored (s : State) (t : State) : Result := if s.statusState = busy then .next s else .next t

/-- NOP (R82): nothing, in every state. -/
def execNop (s : State) : Result := .next s

/-- ILLEGAL (R83): `fail(ILLEGAL_COMMAND)`, whatever the illegal word; ignored in BUSY (30_encoding.md R67). -/
def execIllegal (_w : Word) (s : State) : Result := unlessBusyIgnored s (fail .illegalCommand s)

/-- The body of CONFIGURE in a state that is not BUSY (R84). -/
def configure (s : State) : State :=
  if s.statusState ≠ unconfigured then fail .illegalCommand s
  else match validate s with
    | none => { s with statusState := configured, statusErr := ErrCode.none.code }
    | some e => fail e s

/-- CONFIGURE (R84). -/
def execConfigure (s : State) : Result := unlessBusyIgnored s (configure s)

/-- EXECUTE (R85): the job of the format FORMAT.FMT selects. A CONFIGURED block holds a recognized code; where it does
not, no rule gives an effect (30_encoding.md R68; log 12). -/
def execExecute (s : State) : Result :=
  executeProtocol s fun s =>
    match s.selected with
    | some f => .next (startJob f s)
    | none => .fault .unrecognizedFormatLocked

/-- SOFT_RESET (R88): RESET, in every state, BUSY included. -/
def execSoftReset (s : State) : Result := .next (resetBlock s)

/-- `command(w)`, the action of a write of CMD (R81): in BUSY only the exact word 0x00000003 acts. -/
def command (w : Word) (s : State) : Result :=
  if s.statusState = busy then
    if w = 0x00000003#32 then execSoftReset s else .next s
  else if commandReserved w ≠ 0#28 then execIllegal w s
  else match (commandOp w).toNat with
    | 0 => execNop s
    | 1 => execConfigure s
    | 2 => execExecute s
    | 3 => execSoftReset s
    | _ => execIllegal w s

end Sys2Proof.Machine
end

