-- ==== Sys2Proof/Machine/Transactions.lean ====
section
/-! DEFINITION. The host transactions REG_WRITE and REG_READ (40_commands.md R79, R80). -/

namespace Sys2Proof.Machine

/-- The admission of R79: `off mod 4 = 0`; `off < 0x1000` holds of every 12-bit offset. -/
def admittedOffset (off : BitVec 12) : Bool := off.toNat % 4 == 0

/-- REG_WRITE(off, data) (R79): a write of CMD issues a command, any other stores what its register takes. -/
def execRegWrite (off : BitVec 12) (data : Word) (s : State) : Result :=
  if admittedOffset off then
    match regAt off with
    | .cmd => command data s
    | r => .next (writeReg s r data)
  else .refused .misalignedAccess

/-- REG_READ(off) (R80): the register's word is returned to the host (log 8), and nothing else changes. -/
def execRegRead (off : BitVec 12) (s : State) : Result :=
  if admittedOffset off then .next { s with busData := readReg s (regAt off) }
  else .refused .misalignedAccess

end Sys2Proof.Machine
end

