-- ==== Sys2Proof/Machine/Dispatch.lean ====
section
/-! DEFINITION. The dispatch: one arm per constructor of Instr, each one direct call of its meaning. -/

namespace Sys2Proof.Machine

def exec (i : Instr) (s : State) : Host.Outcome State Fault Refusal :=
  match i with
  | .regWrite off data => Sys2Proof.Machine.execRegWrite off data s
  | .regRead off => Sys2Proof.Machine.execRegRead off s
  | .nop => Sys2Proof.Machine.execNop s
  | .configure => Sys2Proof.Machine.execConfigure s
  | .execute => Sys2Proof.Machine.execExecute s
  | .softReset => Sys2Proof.Machine.execSoftReset s
  | .illegal w => Sys2Proof.Machine.execIllegal w s
  | .engineWrite a => Sys2Proof.Machine.execEngineWrite a s
  | .engineComplete => Sys2Proof.Machine.execEngineComplete s
  | .combineRgb888 => Sys2Proof.Machine.execCombineRgb888 s
  | .combineRgba8888 => Sys2Proof.Machine.execCombineRgba8888 s
  | .combineYuyv422 => Sys2Proof.Machine.execCombineYuyv422 s
  | .combineUyvy422 => Sys2Proof.Machine.execCombineUyvy422 s
  | .combineYuv444 => Sys2Proof.Machine.execCombineYuv444 s
  | .combineIyuv => Sys2Proof.Machine.execCombineIyuv s
  | .combineNv12 => Sys2Proof.Machine.execCombineNv12 s
  | .combineNv21 => Sys2Proof.Machine.execCombineNv21 s

end Sys2Proof.Machine
end

