-- ==== Sys2Proof/Machine/Environment.lean ====
section
/-! DEFINITION. What the environment does besides engine slots: a request on the register port and the operation it
is decoded to (30_encoding.md R70, R78), the host's own accesses of memory (20_memory.md R58, R60), the reset input
(70_reset_and_hazards.md R159), and a job of another instance at the same time (20_memory.md R64). -/

namespace Sys2Proof.Machine

/-! ## The register port -/

/-- What the block makes of a request: an operation to run, or a refusal by name. -/
inductive Fetched where
  | run (i : Instr)
  | refuse (why : Refusal)
  deriving DecidableEq, Repr

/-- The refusal that answers a request the decoder rejects (log 17). -/
def refusalOf : Reject → Refusal
  | .narrowAccess => .narrowAccess
  | .misalignedAccess => .misalignedAccess
  | .undefinedHeaderBits => .undefinedHeaderBits
  | .unrecognizedFormat => .undefinedHeaderBits
  | .truncated => .undefinedHeaderBits
  | .noEncoding => .undefinedHeaderBits

/-- The operation a command is, in a state: an EXECUTE that CONFIGURED accepts is the combine FORMAT.FMT selects
(30_encoding.md R68, R78; log 10). -/
def refineCommand (s : State) (i : Instr) : Instr :=
  match i with
  | .execute =>
    if s.statusState = configured then
      match s.selected with
      | some f => combineOf f
      | none => .execute
    else .execute
  | i => i

/-- The operation a transaction is, in a state: a write of CMD is the command its data encodes (30_encoding.md R78,
40_commands.md R81; log 10). -/
def refineTransaction (s : State) (i : Instr) : Instr :=
  match i with
  | .regWrite off data => if regAt off = .cmd then refineCommand s (decodeCommand data) else .regWrite off data
  | i => i

/-- What a request on the register port runs; while rst_n is asserted there is no transaction
(70_reset_and_hazards.md R159; log 14). -/
def fetchPort (s : State) (r : PortRequest) : Fetched :=
  if s.rstN then
    match decodePort r with
    | .instr i => .run (refineTransaction s i)
    | .rejected why => .refuse (refusalOf why)
  else .refuse .transactionDuringReset

/-! ## The host's own accesses of memory -/

/-- Whether an address is in the read set of the job in progress (20_memory.md R52, R60). -/
def inReadSet (s : State) (a : Nat) : Bool :=
  match s.selected with
  | some f => (readSet s f).contains a
  | none => false

/-- A host write of one byte. During a job the host has no move that writes a byte of its write or read set
(20_memory.md R60; log 18). -/
def hostWrite (a : Word) (v : Byte) (s : State) : Result :=
  match s.job with
  | none => .next (writeMem s a.toNat v)
  | some j =>
    if j.wset.contains a.toNat || inReadSet s a.toNat then .refused .hostWriteDuringJob
    else .next (writeMem s a.toNat v)

/-- A host read of one byte. A write-set byte of a job in progress reads as old or new, or as any byte
(20_memory.md R58; log 7); a read changes nothing of the block (R55). -/
def hostRead (a : Word) (s : State) : Result :=
  match s.job with
  | none => .next { s with memData := readMem s a.toNat }
  | some j =>
    if j.wset.contains a.toNat then
      .next { s with memData := unsettledByte s j s.draws a.toNat, draws := s.draws + 1 }
    else .next { s with memData := readMem s a.toNat }

/-! ## The reset input -/

/-- rst_n asserted: RESET (70_reset_and_hazards.md R159; log 14). -/
def assertReset (s : State) : Result := .next { resetBlock s with rstN := false }

/-- rst_n released (70_reset_and_hazards.md R159). -/
def releaseReset (s : State) : Result := .next { s with rstN := true }

/-! ## Another instance -/

/-- Whether two lists of addresses have one in common. -/
def overlap (l m : List Nat) : Bool := l.any (m.contains ·)

/-- Whether a job of another instance breaks the disjointness 20_memory.md R64 asks for: its write set meets this
job's write or read set, or its read set meets this job's write set. -/
def otherConflicts (s : State) (j : Job) (writes reads : List Nat) : Bool :=
  overlap writes j.wset || writes.any (inReadSet s) || overlap reads j.wset

/-- A job made a colliding one: every byte of its write set is free (20_memory.md R59). -/
def collideJob (s : State) (j : Job) : State :=
  { s with
    job := some { j with kind := .collide, pending := freeCells s.draws j.wset }
    draws := s.draws + j.wset.length }

/-- A job of another instance that runs at the same time: a conflict gives this job the outcome of a colliding one
(20_memory.md R64; log 15). A job that already collides stays one, and a bus error is still reported
(60_exceptions.md R148). -/
def otherJob (writes reads : List Nat) (s : State) : Result :=
  match s.job with
  | none => .next s
  | some j =>
    match j.kind with
    | .normal => if otherConflicts s j writes reads then .next (collideJob s j) else .next s
    | .collide => .next s
    | .busErr => .next s

/-! ## Placing an operation where the next step runs it -/

/-- The request that writes a word to CMD (30_encoding.md R65, R66). -/
def commandRequest (w : Word) : PortRequest := { header := 0x1004#16, width := .word, data := w }

/-- The state whose next step runs the operation of a table word (log 22): a transaction or command word is put on the
register port, before the moves already waiting; a format code is put in FORMAT of a CONFIGURED block without a job,
with EXECUTE on the port. -/
def placeWord (s : State) (sp : Space) (w : Nat) : State :=
  match sp with
  | .regPort =>
    { s with
      rstN := true
      moves := .port { header := BitVec.ofNat 16 w, width := .word, data := BitVec.ofNat 32 (w >>> 16) } :: s.moves }
  | .command => { s with rstN := true, moves := .port (commandRequest (BitVec.ofNat 32 w)) :: s.moves }
  | .formatCode =>
    { s with
      rstN := true
      statusState := configured
      job := none
      format := BitVec.ofNat 4 w
      moves := .port (commandRequest 0x00000002) :: s.moves }
  | .engine => s

end Sys2Proof.Machine
end

