-- ==== Sys2Proof/Machine/Step.lean ====
section
/-! DEFINITION. One step: the environment's next move (log 3), or, when it has none left, the engine alone (log 4). -/

namespace Sys2Proof.Machine

/-- A slot of the engine: the step it picks (40_commands.md R86, R87); when none is enabled, a write still in flight
after a reset lands, if there is one (70_reset_and_hazards.md R161; logs 13, 16). -/
def engineSlot (pick : Nat) (s : State) : Result :=
  match engineChoice pick s with
  | some i => exec i s
  | none => .next (landWrite pick s)

/-- A request on the register port (40_commands.md R79 to R81); no write of an abandoned job lands after it
(70_reset_and_hazards.md R161). -/
def portSlot (r : PortRequest) (s : State) : Result :=
  match fetchPort s r with
  | .run i => exec i (settleWrites s)
  | .refuse why => .refused why

/-- One move of the environment (10_state.md R9, R44). -/
def act (m : Move) (s : State) : Result :=
  match m with
  | .port r => portSlot r s
  | .hostWrite a v => hostWrite a v s
  | .hostRead a => hostRead a s
  | .rstAssert => assertReset s
  | .rstRelease => releaseReset s
  | .engine pick => engineSlot pick s
  | .otherJob writes reads => otherJob writes reads s

/-- What happens when the environment has no move left: the engine goes on with a job in progress, in a free order
(70_reset_and_hazards.md R168), and an idle block stays as it is (60_exceptions.md R157; log 4). -/
def unprompted (s : State) : Result :=
  match engineChoice (Config.freePick s.draws) s with
  | some i => exec i { s with draws := s.draws + 1 }
  | none => .next s

/-- One step. -/
def step (s : State) : Host.Outcome State Fault Refusal :=
  match s.moves with
  | [] => unprompted s
  | m :: rest => act m { s with moves := rest }

/-- The state whose next step runs the operation a table word is (log 22). -/
def State.withFetchWord (s : State) (nbits w : Nat) : State := placeWord s (spaceOfBits nbits) (w % 2 ^ nbits)

end Sys2Proof.Machine
end

