-- ==== Sys2Proof/Safety.lean ====
section
/-! DEFINITION. What claims are stated in: a validated configuration (47_configuration_validator.md, 10_state.md R43),
the invariant of the machine, what a NORMAL job promises, and a job carried out in a chosen order. -/

namespace Sys2Proof.Machine

/-- The registers pass every check of 47_configuration_validator.md R126 to R134 for the format `f`. Each clause is
one check, written from its rule and not from `validate`. -/
structure ValidFor (s : State) (f : Format) : Prop where
  /-- R126. -/
  recognized : s.selected = some f
  /-- R127. -/
  channels : s.srcCount.toNat = channelCount f
  /-- R128. -/
  nonEmpty : ∀ c : Fin 4, c.val < channelCount f → 1 ≤ (s.src c).width ∧ 1 ≤ (s.src c).height
  /-- R129. -/
  sameShape : ∀ c : Fin 4, c.val < channelCount f → (s.src c).width = s.imageW ∧ (s.src c).height = s.imageH
  /-- R130. -/
  srcStrides : ∀ c : Fin 4, c.val < channelCount f → (s.src c).width ≤ (s.src c).stride.toNat
  /-- R131. -/
  evenShape : s.imageW % (describe f).sx = 0 ∧ s.imageH % (describe f).sy = 0
  /-- R132. -/
  planes : s.dstCount.toNat = planeCount f
  /-- R133. -/
  planeDims : ∀ p : Fin 3, p.val < planeCount f →
    (s.dst p).width = s.imageW / (planeDesc f p).dx ∧ (s.dst p).height = s.imageH / (planeDesc f p).dy
  /-- R134. -/
  planeStrides : ∀ p : Fin 3, p.val < planeCount f →
    s.imageW / (planeDesc f p).dx * (planeDesc f p).elemBytes ≤ (s.dst p).stride.toNat

/-- The registers hold a configuration that passes every check (10_state.md R43). -/
def Validated (s : State) : Prop := ∃ f, ValidFor s f

/-- The job record fits the registers: its write set is the one they describe, what is pending is in canonical form
and lies in it, and a job called NORMAL has no collision and no bus error (10_state.md R41, R59, R145). -/
structure JobFits (s : State) (f : Format) (j : Job) : Prop where
  writeSet : j.wset = writeSet s f
  pendingCanonical : Memory.wf j.pending
  pendingInWset : ∀ c ∈ j.pending, c.1 ∈ j.wset
  beforeOnWset : j.before.map Prod.fst = j.wset
  kindHolds : j.kind = .normal → jobKind s f = .normal

/-- The invariant of the machine. -/
structure Invariant (s : State) : Prop where
  /-- STATUS.STATE = 3 is never held (10_state.md R18). -/
  stateLegal : s.statusState ≠ 3#2
  /-- STATUS.ERR values 7 to 15 are never produced (60_exceptions.md R137). -/
  errLegal : s.statusErr.toNat ≤ 6
  /-- JOB is present exactly when STATE is BUSY (10_state.md R40). -/
  jobWhenBusy : s.job.isSome = true ↔ s.statusState = busy
  /-- Outside UNCONFIGURED the geometry registers pass every check (10_state.md R43). -/
  validated : s.statusState ≠ unconfigured → Validated s
  /-- The job record fits the registers. -/
  jobFits : ∀ f j, s.selected = some f → s.job = some j → JobFits s f j
  /-- The memory is in canonical form (20_memory.md R45; log 1). -/
  memCanonical : Memory.wf s.mem
  /-- The writes in flight after a reset are in canonical form (log 16). -/
  inFlightCanonical : Memory.wf s.inFlight

/-- What a NORMAL job promises while it runs: every destination byte still pending, or already written, is the source
byte its position selects, as memory stands now (40_commands.md R85, R90; 20_memory.md R57, R60). -/
def JobFaithful (s : State) : Prop :=
  ∀ f j, s.selected = some f → s.job = some j → j.kind = .normal →
    ∀ q ∈ jobPositions s f, byteOfJob s j (dstAddr s f q) = sampleAt s (select f q)

/-- The engine's writes in a given order, each an ENGINE_WRITE (20_memory.md R56, 40_commands.md R86). -/
def runEngine : List Word → State → Result
  | [], s => .next s
  | a :: rest, s =>
    match exec (.engineWrite a) s with
    | .next t => runEngine rest t
    | .fault r => .fault r
    | .refused r => .refused r

/-- A whole job: EXECUTE, the engine's writes in a given order, and the job's end (40_commands.md R85 to R87). -/
def runJob (order : List Word) (s : State) : Result :=
  match exec .execute s with
  | .next t =>
    match runEngine order t with
    | .next u => exec .engineComplete u
    | .fault r => .fault r
    | .refused r => .refused r
  | .fault r => .fault r
  | .refused r => .refused r

/-! ## Registers, as claims name them -/

/-- The geometry registers, locked outside UNCONFIGURED (10_state.md R32). -/
def geometryReg : Reg → Bool
  | .format => true
  | .srcCount => true
  | .dstCount => true
  | .srcStride _ => true
  | .srcDim _ => true
  | .dstStride _ => true
  | .dstDim _ => true
  | .id => false
  | .cmd => false
  | .status => false
  | .intStatus => false
  | .intEnable => false
  | .srcBase _ => false
  | .dstBase _ => false
  | .reserved => false

/-- The base registers, locked in BUSY (10_state.md R33). -/
def baseReg : Reg → Bool
  | .srcBase _ => true
  | .dstBase _ => true
  | .id => false
  | .cmd => false
  | .status => false
  | .intStatus => false
  | .intEnable => false
  | .format => false
  | .srcCount => false
  | .dstCount => false
  | .srcStride _ => false
  | .srcDim _ => false
  | .dstStride _ => false
  | .dstDim _ => false
  | .reserved => false

/-- The defined bits of a geometry or base register (10_state.md R23 to R31). -/
def definedBits : Reg → Word
  | .format => 0x0000000F
  | .srcCount => 0x00000007
  | .dstCount => 0x00000007
  | _ => 0xFFFFFFFF

/-- Everything of the state that is not a register is the same. -/
structure SameBeyondRegisters (s t : State) : Prop where
  job : t.job = s.job
  mem : t.mem = s.mem
  inFlight : t.inFlight = s.inFlight
  rstN : t.rstN = s.rstN
  busData : t.busData = s.busData
  memData : t.memData = s.memData
  moves : t.moves = s.moves
  draws : t.draws = s.draws
  busErrors : t.busErrors = s.busErrors

/-- What no command and no engine step changes but SOFT_RESET: the programming registers, INT_ENABLE, the model's own
ports, the schedule and the platform. -/
structure SameProgramming (s t : State) : Prop where
  intEnable : t.intEnable = s.intEnable
  format : t.format = s.format
  srcCount : t.srcCount = s.srcCount
  dstCount : t.dstCount = s.dstCount
  src : ∀ c, t.src c = s.src c
  dst : ∀ p, t.dst p = s.dst p
  inFlight : t.inFlight = s.inFlight
  rstN : t.rstN = s.rstN
  memData : t.memData = s.memData
  moves : t.moves = s.moves
  busErrors : t.busErrors = s.busErrors

/-- The state after `fail` with a code: the code and the pending bit ERROR, nothing else (60_exceptions.md R139). -/
def failed (s : State) (code : BitVec 4) : State :=
  { s with statusErr := code, intStatus := s.intStatus ||| 2#2 }

/-! ## Bytes of an image, as claims name them -/

/-- The address of byte `n` of row `y` of destination plane `p`. -/
def planeByte (s : State) (p : Fin 3) (y n : Nat) : Nat :=
  ((s.dst p).base.toNat + y * (s.dst p).stride.toNat + n) % 2 ^ 32

/-- The sample at column `x` and row `y` of source channel `c`. -/
def sourceByte (s : State) (c : Fin 4) (x y : Nat) : Byte :=
  readMem s (((s.src c).base.toNat + y * (s.src c).stride.toNat + x) % 2 ^ 32)

/-- The state after an EXECUTE that was accepted with job `j`: BUSY with ERR = 0, INT_STATUS, memory and every
programming register unchanged (40_commands.md R85). -/
structure Accepted (s t : State) (j : Job) : Prop where
  job : t.job = some j
  statusState : t.statusState = 2#2
  statusErr : t.statusErr = 0#4
  intStatus : t.intStatus = s.intStatus
  busData : t.busData = s.busData
  mem : t.mem = s.mem
  programming : SameProgramming s t

end Sys2Proof.Machine
end

