-- ==== Sys2Proof/Certificates/Slice0/Obligations.lean ====
section
/-! DEFINITION. The statements for the provers. Each docstring names the rules of spec/ it formalises. -/

open Sys2Proof Sys2Proof.Machine

/-! ## Encoding -/

/-- Every well-formed operation but the engine's steps has an encoding, and decoding it, whatever follows, gives it
back with every operand at every value. -/
def Obligations.DecodingAnEncodingGivesItBack : Prop :=
  ∀ i : Instr, wellFormed i = true → spaceOf i ≠ .engine →
    ∃ bytes, encode i = some bytes ∧ ∀ rest, decodeBytes (spaceOf i) (bytes ++ rest) = .instr i rest

/-- Whatever decodes is well-formed, and its encoding is exactly the bytes it was decoded from: no two byte strings
decode to one operation, and no bit is dropped. -/
def Obligations.DecodedBytesAreTheEncoding : Prop :=
  ∀ (sp : Space) (bytes rest : List Byte) (i : Instr), decodeBytes sp bytes = .instr i rest →
    wellFormed i = true ∧ spaceOf i = sp ∧ ∃ own, encode i = some own ∧ bytes = own ++ rest

/-- Words written out from R65, R66 and R68: transactions, the four commands, an illegal word, the eight format codes,
and words that are no operation. -/
def Obligations.WordsOfTheTableDecode : Prop :=
  decodeTableWord 16 0x1014 = some (.regWrite 0x014 0) ∧
  decodeTableWord 48 0x000200021028 = some (.regWrite 0x028 0x00020002) ∧
  decodeTableWord 16 0x0008 = some (.regRead 0x008) ∧
  decodeTableWord 16 0x1002 = none ∧
  decodeTableWord 16 0x2000 = none ∧
  decodeTableWord 32 0x00000000 = some .nop ∧
  decodeTableWord 32 0x00000001 = some .configure ∧
  decodeTableWord 32 0x00000002 = some .execute ∧
  decodeTableWord 32 0x00000003 = some .softReset ∧
  decodeTableWord 32 0x00000013 = some (.illegal 0x00000013) ∧
  decodeTableWord 8 0x0 = none ∧
  decodeTableWord 8 0x1 = some .combineRgb888 ∧
  decodeTableWord 8 0x2 = some .combineRgba8888 ∧
  decodeTableWord 8 0x3 = some .combineYuyv422 ∧
  decodeTableWord 8 0x4 = some .combineUyvy422 ∧
  decodeTableWord 8 0x5 = some .combineYuv444 ∧
  decodeTableWord 8 0x6 = some .combineIyuv ∧
  decodeTableWord 8 0x7 = some .combineNv12 ∧
  decodeTableWord 8 0x8 = some .combineNv21 ∧
  decodeTableWord 8 0x9 = none

/-- R67: an illegal word decodes to nothing else, outside BUSY it does `fail(ILLEGAL_COMMAND)` and nothing else, in
BUSY it is ignored; every other word is one of the four commands. -/
def Obligations.IllegalCommandWords : Prop :=
  ∀ (w : Word) (s : State),
    ((w.extractLsb' 4 28 ≠ 0#28 ∨ 4 ≤ (w.extractLsb' 0 4).toNat) →
      decodeCommand w = .illegal w ∧
      (s.statusState ≠ busy → exec (.regWrite 0x004 w) s = .next (failed s 5#4)) ∧
      (s.statusState = busy → exec (.regWrite 0x004 w) s = .next s)) ∧
    (¬(w.extractLsb' 4 28 ≠ 0#28 ∨ 4 ≤ (w.extractLsb' 0 4).toNat) →
      decodeCommand w = .nop ∨ decodeCommand w = .configure ∨ decodeCommand w = .execute ∨
        decodeCommand w = .softReset)

/-- R71, with the reserved offsets of R65: a reserved offset reads 0 and ignores writes, and no two offsets are one
register. -/
def Obligations.RegisterMapHasNoAlias : Prop :=
  (∀ r : Reg, r ≠ .reserved → regAt (regOffset r) = r) ∧
  (∀ off off' : BitVec 12, regAt off ≠ .reserved → regAt off' = regAt off → off' = off) ∧
  (∀ off : BitVec 12, off.toNat % 4 = 0 →
    (regAt off = .reserved ↔
      0x090 ≤ off.toNat ∨ (0x020 ≤ off.toNat ∧ off.toNat % 0x10 = 0x00C))) ∧
  (∀ (off : BitVec 12) (d : Word) (s : State), off.toNat % 4 = 0 → regAt off = .reserved →
    exec (.regRead off) s = .next { s with busData := 0#32 } ∧ exec (.regWrite off d) s = .next s)

/-! ## Steps -/

/-- A step whose next move is a request on the register port runs the operation the decoder reads from it, after the
move is taken off the list and the writes in flight after a reset are over. -/
def Obligations.StepRunsTheRequest : Prop :=
  ∀ (s : State) (r : PortRequest) (rest : List Move) (i : Instr),
    s.moves = .port r :: rest → s.rstN = true → decodePort r = .instr i →
    step s = exec i { s with moves := rest, inFlight := [] }

/-- The more specific operation a step runs for a CMD write (the command, and for an accepted EXECUTE the combine
FORMAT.FMT selects) does exactly what the transaction does. -/
def Obligations.RefinedOperationIsTheTransaction : Prop :=
  ∀ (s : State) (i : Instr), exec (refineTransaction s i) s = exec i s

/-- With a job in progress a slot of the engine runs ENGINE_WRITE at a pending address, or ENGINE_COMPLETE when nothing
is pending; so does a step with no move left. The schedule can pick every pending address (R56, R86). -/
def Obligations.StepRunsTheEngine : Prop :=
  ∀ (s : State) (j : Job), s.statusState = busy → s.job = some j → Memory.wf j.pending →
    (∀ (pick : Nat) (rest : List Move), s.moves = .engine pick :: rest →
      (j.pending = [] → step s = exec .engineComplete { s with moves := rest }) ∧
      (j.pending ≠ [] → ∃ a : Word, a.toNat ∈ j.pending.map Prod.fst ∧
        step s = exec (.engineWrite a) { s with moves := rest })) ∧
    (∀ a : Word, a.toNat ∈ j.pending.map Prod.fst → ∃ pick, ∀ rest,
      step { s with moves := .engine pick :: rest } = exec (.engineWrite a) { s with moves := rest }) ∧
    (s.moves = [] →
      (j.pending = [] → step s = exec .engineComplete { s with draws := s.draws + 1 }) ∧
      (j.pending ≠ [] → ∃ a : Word, a.toNat ∈ j.pending.map Prod.fst ∧
        step s = exec (.engineWrite a) { s with draws := s.draws + 1 }))

/-! ## Register transactions -/

/-- R32: a geometry register is locked outside UNCONFIGURED, read-write in UNCONFIGURED, readable in every state. -/
def Obligations.GeometryRegistersLock : Prop :=
  ∀ (s : State) (r : Reg) (d : Word), geometryReg r = true →
    (s.statusState ≠ unconfigured → exec (.regWrite (regOffset r) d) s = .next s) ∧
    (s.statusState = unconfigured → ∃ t, exec (.regWrite (regOffset r) d) s = .next t ∧
      readReg t r = d &&& definedBits r ∧ (∀ r', r' ≠ r → readReg t r' = readReg s r') ∧
      SameBeyondRegisters s t) ∧
    exec (.regRead (regOffset r)) s = .next { s with busData := readReg s r }

/-- R33: a base register is locked in BUSY only; a base written in CONFIGURED changes nothing else. -/
def Obligations.BaseRegistersLockInBusy : Prop :=
  ∀ (s : State) (r : Reg) (d : Word), baseReg r = true →
    (s.statusState = busy → exec (.regWrite (regOffset r) d) s = .next s) ∧
    (s.statusState ≠ busy → ∃ t, exec (.regWrite (regOffset r) d) s = .next t ∧
      readReg t r = d ∧ (∀ r', r' ≠ r → readReg t r' = readReg s r') ∧ SameBeyondRegisters s t)

/-- R21: INT_ENABLE keeps bits 1:0 of what is written, in every state, and reads its other bits as zero. -/
def Obligations.IntEnableWrites : Prop :=
  (∀ (s : State) (d : Word),
    exec (.regWrite 0x010 d) s = .next { s with intEnable := d.extractLsb' 0 2 } ∧
    exec (.regRead 0x010) s = .next { s with busData := s.intEnable.setWidth 32 }) ∧
  State.reset.intEnable = 0#2

/-- The write of INT_STATUS, in every state: each of bits 0 and 1 written as 1 is cleared, nothing else changes. -/
def Obligations.IntStatusWriteOneToClear : Prop :=
  ∀ (s : State) (d : Word), ∃ t, exec (.regWrite 0x00C d) s = .next t ∧
    (∀ k, k < 2 → t.intStatus.getLsbD k = (s.intStatus.getLsbD k && !d.getLsbD k)) ∧
    t = { s with intStatus := t.intStatus }

/-- R35: writes of ID and STATUS are ignored and have no side effect. -/
def Obligations.ReadOnlyRegistersIgnoreWrites : Prop :=
  ∀ (s : State) (d : Word), exec (.regWrite 0x000 d) s = .next s ∧ exec (.regWrite 0x008 d) s = .next s

/-- REG_READ returns the register and changes nothing else; the fields of STATUS, INT_STATUS, ID and CMD stand where
R15 to R20 put them, and reserved bits read as zero. The slot registers stand at the offsets of R65: reading one gives,
and writing one in UNCONFIGURED sets, the base, stride, width and height that CONFIGURE and EXECUTE use (R26 to R31,
R69). -/
def Obligations.RegReadReturnsTheRegister : Prop :=
  (∀ (s : State) (off : BitVec 12), off.toNat % 4 = 0 →
    exec (.regRead off) s = .next { s with busData := readReg s (regAt off) }) ∧
  (∀ s : State,
    readReg s (regAt 0x000) = 0x50430100 ∧ readReg s (regAt 0x004) = 0 ∧
    (readReg s (regAt 0x008)).toNat = 16 * s.statusErr.toNat + s.statusState.toNat ∧
    (readReg s (regAt 0x00C)).toNat = s.intStatus.toNat ∧
    (readReg s (regAt 0x014)).toNat = s.format.toNat ∧
    (readReg s (regAt 0x018)).toNat = s.srcCount.toNat ∧
    (readReg s (regAt 0x01C)).toNat = s.dstCount.toNat) ∧
  (∀ (s : State) (c : Fin 4),
    readReg s (regAt (BitVec.ofNat 12 (0x020 + 0x10 * c.val))) = (s.src c).base ∧
    readReg s (regAt (BitVec.ofNat 12 (0x024 + 0x10 * c.val))) = (s.src c).stride ∧
    (readReg s (regAt (BitVec.ofNat 12 (0x028 + 0x10 * c.val)))).toNat =
      65536 * (s.src c).height + (s.src c).width) ∧
  (∀ (s : State) (p : Fin 3),
    readReg s (regAt (BitVec.ofNat 12 (0x060 + 0x10 * p.val))) = (s.dst p).base ∧
    readReg s (regAt (BitVec.ofNat 12 (0x064 + 0x10 * p.val))) = (s.dst p).stride ∧
    (readReg s (regAt (BitVec.ofNat 12 (0x068 + 0x10 * p.val)))).toNat =
      65536 * (s.dst p).height + (s.dst p).width) ∧
  (∀ (s : State) (c : Fin 4) (d : Word), s.statusState = unconfigured →
    (∃ t, exec (.regWrite (BitVec.ofNat 12 (0x020 + 0x10 * c.val)) d) s = .next t ∧
      t.src c = { s.src c with base := d }) ∧
    (∃ t, exec (.regWrite (BitVec.ofNat 12 (0x024 + 0x10 * c.val)) d) s = .next t ∧
      t.src c = { s.src c with stride := d }) ∧
    ∃ t, exec (.regWrite (BitVec.ofNat 12 (0x028 + 0x10 * c.val)) d) s = .next t ∧
      (t.src c).width = d.toNat % 65536 ∧ (t.src c).height = d.toNat / 65536 ∧
      (t.src c).base = (s.src c).base ∧ (t.src c).stride = (s.src c).stride) ∧
  ∀ (s : State) (p : Fin 3) (d : Word), s.statusState = unconfigured →
    (∃ t, exec (.regWrite (BitVec.ofNat 12 (0x060 + 0x10 * p.val)) d) s = .next t ∧
      t.dst p = { s.dst p with base := d }) ∧
    (∃ t, exec (.regWrite (BitVec.ofNat 12 (0x064 + 0x10 * p.val)) d) s = .next t ∧
      t.dst p = { s.dst p with stride := d }) ∧
    ∃ t, exec (.regWrite (BitVec.ofNat 12 (0x068 + 0x10 * p.val)) d) s = .next t ∧
      (t.dst p).width = d.toNat % 65536 ∧ (t.dst p).height = d.toNat / 65536 ∧
      (t.dst p).base = (s.dst p).base ∧ (t.dst p).stride = (s.dst p).stride

/-- A register access that is not a 32-bit access at a multiple of 4 is refused by name (R49, R70, R79). -/
def Obligations.UnadmittedAccessesAreRefused : Prop :=
  (∀ (s : State) (off : BitVec 12) (d : Word), off.toNat % 4 ≠ 0 →
    exec (.regWrite off d) s = .refused .misalignedAccess ∧ exec (.regRead off) s = .refused .misalignedAccess) ∧
  (∀ (s : State) (r : PortRequest) (rest : List Move), s.moves = .port r :: rest → s.rstN = true →
    r.width ≠ .word → step s = .refused .narrowAccess) ∧
  (∀ (s : State) (r : PortRequest) (rest : List Move), s.moves = .port r :: rest → s.rstN = true →
    r.width = .word → r.header.toNat < 2 ^ 13 → r.header.toNat % 4 ≠ 0 → step s = .refused .misalignedAccess)

/-- The frame of REG_WRITE, for every offset but that of CMD: only the register at the offset can change. -/
def Obligations.RegWriteFrame : Prop :=
  ∀ (s t : State) (off : BitVec 12) (d : Word), off ≠ 0x004 → exec (.regWrite off d) s = .next t →
    (∀ r, r ≠ regAt off → readReg t r = readReg s r) ∧
    t.statusState = s.statusState ∧ t.statusErr = s.statusErr ∧ SameBeyondRegisters s t

/-- R81: the action of a write of CMD. In BUSY the exact word 0x00000003 resets and every other word is ignored;
otherwise the word is the command its low bits name, or illegal. -/
def Obligations.CommandWordActs : Prop :=
  ∀ (s : State) (w : Word),
    (s.statusState = busy → exec (.regWrite 0x004 w) s = if w = 0x00000003 then exec .softReset s else .next s) ∧
    (s.statusState ≠ busy → exec (.regWrite 0x004 w) s =
      if w = 0x00000000 then exec .nop s
      else if w = 0x00000001 then exec .configure s
      else if w = 0x00000002 then exec .execute s
      else if w = 0x00000003 then exec .softReset s
      else .next (failed s 5#4))

/-! ## Commands -/

/-- R82: NOP changes nothing, in every state. -/
def Obligations.NopDoesNothing : Prop := ∀ s : State, exec .nop s = .next s

/-- R83: an illegal word outside BUSY sets STATUS.ERR to 5 and INT_STATUS.ERROR, and changes nothing else. -/
def Obligations.IllegalWordFails : Prop :=
  ∀ (s : State) (w : Word), wellFormed (.illegal w) = true → s.statusState ≠ busy →
    exec (.illegal w) s = .next (failed s 5#4)

/-- CONFIGURE of a configuration that passes every check enters CONFIGURED with ERR = 0 and changes nothing else;
INT_STATUS.DONE is not set (R84, R125 to R134). -/
def Obligations.ConfigureAcceptsValid : Prop :=
  ∀ s : State, s.statusState = unconfigured → Validated s →
    exec .configure s = .next { s with statusState := 1#2, statusErr := 0#4 }

/-- CONFIGURE of any other configuration stays UNCONFIGURED with one of the codes 1 to 4 and INT_STATUS.ERROR set, and
changes nothing else (R84, R125, R135). -/
def Obligations.ConfigureRejectsInvalid : Prop :=
  ∀ s : State, s.statusState = unconfigured → ¬ Validated s →
    ∃ code : BitVec 4, 1 ≤ code.toNat ∧ code.toNat ≤ 4 ∧ exec .configure s = .next (failed s code)

/-- R140: CONFIGURE with FORMAT.FMT outside 1 to 8 reports UNSUPPORTED_FORMAT, and nothing else raises it. -/
def Obligations.UnsupportedFormatReported : Prop :=
  (∀ s : State, s.statusState = unconfigured → (s.format.toNat = 0 ∨ 9 ≤ s.format.toNat) →
    exec .configure s = .next (failed s 1#4)) ∧
  ∀ (s t : State) (i : Instr), exec i s = .next t → t.statusErr = 1#4 → s.statusErr ≠ 1#4 →
    s.statusState = unconfigured ∧ (s.format.toNat = 0 ∨ 9 ≤ s.format.toNat) ∧
      (i = .configure ∨ i = .regWrite 0x004 0x00000001)

/-- R127, R141: CONFIGURE with a recognized format and another channel count than 4 for RGBA8888, 3 for every other
format, reports CHANNEL_COUNT_MISMATCH. -/
def Obligations.ChannelCountMismatchReported : Prop :=
  ∀ (s : State) (f : Format), s.statusState = unconfigured → s.selected = some f →
    s.srcCount.toNat ≠ (if f = .rgba8888 then 4 else 3) → exec .configure s = .next (failed s 2#4)

/-- R142: with format and count correct, a zero source dimension, differing source shapes, a short source stride or an
uneven shape reports SHAPE_MISMATCH. -/
def Obligations.ShapeMismatchReported : Prop :=
  ∀ (s : State) (f : Format), s.statusState = unconfigured → s.selected = some f →
    s.srcCount.toNat = channelCount f →
    ((∃ c : Fin 4, c.val < channelCount f ∧ ((s.src c).width = 0 ∨ (s.src c).height = 0)) ∨
     (∃ c e : Fin 4, c.val < channelCount f ∧ e.val < channelCount f ∧
       ((s.src c).width ≠ (s.src e).width ∨ (s.src c).height ≠ (s.src e).height)) ∨
     (∃ c : Fin 4, c.val < channelCount f ∧ (s.src c).stride.toNat < (s.src c).width) ∨
     (s.imageW % (describe f).sx ≠ 0 ∨ s.imageH % (describe f).sy ≠ 0)) →
    exec .configure s = .next (failed s 3#4)

/-- R143: with format, count and shapes correct, a plane count, a plane dimension or a plane stride that is not the
plan's reports DEST_GEOMETRY_MISMATCH. -/
def Obligations.DestGeometryMismatchReported : Prop :=
  ∀ (s : State) (f : Format), s.statusState = unconfigured → s.selected = some f →
    s.srcCount.toNat = channelCount f →
    (∀ c : Fin 4, c.val < channelCount f →
      1 ≤ (s.src c).width ∧ 1 ≤ (s.src c).height ∧ (s.src c).width = s.imageW ∧ (s.src c).height = s.imageH ∧
      (s.src c).width ≤ (s.src c).stride.toNat) →
    s.imageW % (describe f).sx = 0 → s.imageH % (describe f).sy = 0 →
    (s.dstCount.toNat ≠ planeCount f ∨
     (∃ p : Fin 3, p.val < planeCount f ∧
       ((s.dst p).width ≠ s.imageW / (planeDesc f p).dx ∨ (s.dst p).height ≠ s.imageH / (planeDesc f p).dy)) ∨
     (∃ p : Fin 3, p.val < planeCount f ∧
       (s.dst p).stride.toNat < s.imageW / (planeDesc f p).dx * (planeDesc f p).elemBytes)) →
    exec .configure s = .next (failed s 4#4)

/-- R144: a CMD write, while not BUSY, of an illegal word, of CONFIGURE while CONFIGURED, or of EXECUTE while
UNCONFIGURED reports ILLEGAL_COMMAND. -/
def Obligations.IllegalCommandReported : Prop :=
  ∀ (s : State) (w : Word), s.statusState ≠ busy →
    (wellFormed (.illegal w) = true ∨ (w = 0x00000001 ∧ s.statusState = configured) ∨
      (w = 0x00000002 ∧ s.statusState = unconfigured)) →
    exec (.regWrite 0x004 w) s = .next (failed s 5#4)

/-- SOFT_RESET, in every state, leaves every register at its reset value, no job, irq low (R158); everything that is not
the block's keeps its value, and so does memory when no job is abandoned (R160). That the writes in flight after an
earlier reset then stay in flight is the model's choice (log 16). -/
def Obligations.SoftResetClearsTheBlock : Prop :=
  ∀ s : State, ∃ t, exec .softReset s = .next t ∧
    (∀ r, readReg t r = if r = .id then 0x50430100 else 0) ∧
    t.statusState = unconfigured ∧ t.job = none ∧ t.irq = false ∧
    t.rstN = s.rstN ∧ t.busData = s.busData ∧ t.memData = s.memData ∧ t.moves = s.moves ∧
    t.busErrors = s.busErrors ∧
    (s.job = none → t.mem = s.mem ∧ t.inFlight = s.inFlight ∧ t.draws = s.draws)

/-- R160, R161: SOFT_RESET of a busy block. A byte outside the write set keeps its value; a byte of a NORMAL job's
write set holds its value before the job or the value the job writes to it; a write that may still land writes such a
byte. The clause on `before` rests on the model's record of the old bytes (log 6). -/
def Obligations.AbandonedJobLeavesOldOrNew : Prop :=
  ∀ (s : State) (j : Job), s.job = some j → ∃ t, exec .softReset s = .next t ∧
    (∀ a, a ∉ j.wset → readMem t a = readMem s a) ∧
    (∀ c ∈ t.inFlight, c.1 ∈ j.wset) ∧
    (j.kind = .normal → ∀ a ∈ j.wset,
      (readMem t a = byteBefore s j a ∨ readMem t a = byteOfJob s j a) ∧
      ∀ v, (a, v) ∈ t.inFlight → v = byteOfJob s j a)

/-! ## The combines

Each: CONFIGURED with its code in FORMAT.FMT, the combine is accepted, its write set is the format's, and a NORMAL job
has the selected sample pending at every destination byte. -/

/-- R111. -/
def Obligations.CombineRgb888Selects : Prop :=
  ∀ s : State, s.statusState = configured → s.format = 1#4 →
    ∃ t j, exec .combineRgb888 s = .next t ∧ Accepted s t j ∧
      (∀ a, a ∈ j.wset ↔ ∃ x y k, x < s.imageW ∧ y < s.imageH ∧ k < 3 ∧ a = planeByte s 0 y (3 * x + k)) ∧
      (j.kind = .normal → ∀ x y, x < s.imageW → y < s.imageH →
        cellGet j.pending (planeByte s 0 y (3 * x)) = some (sourceByte s 0 x y) ∧
        cellGet j.pending (planeByte s 0 y (3 * x + 1)) = some (sourceByte s 1 x y) ∧
        cellGet j.pending (planeByte s 0 y (3 * x + 2)) = some (sourceByte s 2 x y))

/-- R112. -/
def Obligations.CombineRgba8888Selects : Prop :=
  ∀ s : State, s.statusState = configured → s.format = 2#4 →
    ∃ t j, exec .combineRgba8888 s = .next t ∧ Accepted s t j ∧
      (∀ a, a ∈ j.wset ↔ ∃ x y k, x < s.imageW ∧ y < s.imageH ∧ k < 4 ∧ a = planeByte s 0 y (4 * x + k)) ∧
      (j.kind = .normal → ∀ x y, x < s.imageW → y < s.imageH →
        cellGet j.pending (planeByte s 0 y (4 * x)) = some (sourceByte s 0 x y) ∧
        cellGet j.pending (planeByte s 0 y (4 * x + 1)) = some (sourceByte s 1 x y) ∧
        cellGet j.pending (planeByte s 0 y (4 * x + 2)) = some (sourceByte s 2 x y) ∧
        cellGet j.pending (planeByte s 0 y (4 * x + 3)) = some (sourceByte s 3 x y))

/-- R116, for every pair of pixels `2i`, `2i + 1` of an even width (R103). -/
def Obligations.CombineYuyv422Selects : Prop :=
  ∀ s : State, s.statusState = configured → s.format = 3#4 → s.imageW % 2 = 0 →
    ∃ t j, exec .combineYuyv422 s = .next t ∧ Accepted s t j ∧
      (∀ a, a ∈ j.wset ↔ ∃ i y k, i < s.imageW / 2 ∧ y < s.imageH ∧ k < 4 ∧ a = planeByte s 0 y (4 * i + k)) ∧
      (j.kind = .normal → ∀ i y, i < s.imageW / 2 → y < s.imageH →
        cellGet j.pending (planeByte s 0 y (4 * i)) = some (sourceByte s 0 (2 * i) y) ∧
        cellGet j.pending (planeByte s 0 y (4 * i + 1)) = some (sourceByte s 1 (2 * i) y) ∧
        cellGet j.pending (planeByte s 0 y (4 * i + 2)) = some (sourceByte s 0 (2 * i + 1) y) ∧
        cellGet j.pending (planeByte s 0 y (4 * i + 3)) = some (sourceByte s 2 (2 * i) y))

/-- R117, for every pair of pixels `2i`, `2i + 1` of an even width (R103). -/
def Obligations.CombineUyvy422Selects : Prop :=
  ∀ s : State, s.statusState = configured → s.format = 4#4 → s.imageW % 2 = 0 →
    ∃ t j, exec .combineUyvy422 s = .next t ∧ Accepted s t j ∧
      (∀ a, a ∈ j.wset ↔ ∃ i y k, i < s.imageW / 2 ∧ y < s.imageH ∧ k < 4 ∧ a = planeByte s 0 y (4 * i + k)) ∧
      (j.kind = .normal → ∀ i y, i < s.imageW / 2 → y < s.imageH →
        cellGet j.pending (planeByte s 0 y (4 * i)) = some (sourceByte s 1 (2 * i) y) ∧
        cellGet j.pending (planeByte s 0 y (4 * i + 1)) = some (sourceByte s 0 (2 * i) y) ∧
        cellGet j.pending (planeByte s 0 y (4 * i + 2)) = some (sourceByte s 2 (2 * i) y) ∧
        cellGet j.pending (planeByte s 0 y (4 * i + 3)) = some (sourceByte s 0 (2 * i + 1) y))

/-- R119. -/
def Obligations.CombineYuv444Selects : Prop :=
  ∀ s : State, s.statusState = configured → s.format = 5#4 →
    ∃ t j, exec .combineYuv444 s = .next t ∧ Accepted s t j ∧
      (∀ a, a ∈ j.wset ↔ ∃ p x y, x < s.imageW ∧ y < s.imageH ∧ a = planeByte s p y x) ∧
      (j.kind = .normal → ∀ x y, x < s.imageW → y < s.imageH →
        cellGet j.pending (planeByte s 0 y x) = some (sourceByte s 0 x y) ∧
        cellGet j.pending (planeByte s 1 y x) = some (sourceByte s 1 x y) ∧
        cellGet j.pending (planeByte s 2 y x) = some (sourceByte s 2 x y))

/-- R118, R120. -/
def Obligations.CombineIyuvSelects : Prop :=
  ∀ s : State, s.statusState = configured → s.format = 6#4 →
    ∃ t j, exec .combineIyuv s = .next t ∧ Accepted s t j ∧
      (∀ a, a ∈ j.wset ↔
        (∃ x y, x < s.imageW ∧ y < s.imageH ∧ a = planeByte s 0 y x) ∨
        (∃ x y, x < s.imageW / 2 ∧ y < s.imageH / 2 ∧ (a = planeByte s 1 y x ∨ a = planeByte s 2 y x))) ∧
      (j.kind = .normal →
        (∀ x y, x < s.imageW → y < s.imageH →
          cellGet j.pending (planeByte s 0 y x) = some (sourceByte s 0 x y)) ∧
        ∀ x y, x < s.imageW / 2 → y < s.imageH / 2 →
          cellGet j.pending (planeByte s 1 y x) = some (sourceByte s 1 (2 * x) (2 * y)) ∧
          cellGet j.pending (planeByte s 2 y x) = some (sourceByte s 2 (2 * x) (2 * y)))

/-- R118, R122: U first, then V. -/
def Obligations.CombineNv12Selects : Prop :=
  ∀ s : State, s.statusState = configured → s.format = 7#4 →
    ∃ t j, exec .combineNv12 s = .next t ∧ Accepted s t j ∧
      (∀ a, a ∈ j.wset ↔
        (∃ x y, x < s.imageW ∧ y < s.imageH ∧ a = planeByte s 0 y x) ∨
        (∃ x y k, x < s.imageW / 2 ∧ y < s.imageH / 2 ∧ k < 2 ∧ a = planeByte s 1 y (2 * x + k))) ∧
      (j.kind = .normal →
        (∀ x y, x < s.imageW → y < s.imageH →
          cellGet j.pending (planeByte s 0 y x) = some (sourceByte s 0 x y)) ∧
        ∀ x y, x < s.imageW / 2 → y < s.imageH / 2 →
          cellGet j.pending (planeByte s 1 y (2 * x)) = some (sourceByte s 1 (2 * x) (2 * y)) ∧
          cellGet j.pending (planeByte s 1 y (2 * x + 1)) = some (sourceByte s 2 (2 * x) (2 * y)))

/-- R118, R123: V first, then U. -/
def Obligations.CombineNv21Selects : Prop :=
  ∀ s : State, s.statusState = configured → s.format = 8#4 →
    ∃ t j, exec .combineNv21 s = .next t ∧ Accepted s t j ∧
      (∀ a, a ∈ j.wset ↔
        (∃ x y, x < s.imageW ∧ y < s.imageH ∧ a = planeByte s 0 y x) ∨
        (∃ x y k, x < s.imageW / 2 ∧ y < s.imageH / 2 ∧ k < 2 ∧ a = planeByte s 1 y (2 * x + k))) ∧
      (j.kind = .normal →
        (∀ x y, x < s.imageW → y < s.imageH →
          cellGet j.pending (planeByte s 0 y x) = some (sourceByte s 0 x y)) ∧
        ∀ x y, x < s.imageW / 2 → y < s.imageH / 2 →
          cellGet j.pending (planeByte s 1 y (2 * x)) = some (sourceByte s 2 (2 * x) (2 * y)) ∧
          cellGet j.pending (planeByte s 1 y (2 * x + 1)) = some (sourceByte s 1 (2 * x) (2 * y)))

/-! ## EXECUTE -/

/-- EXECUTE in CONFIGURED with a recognized code runs the combine FORMAT.FMT selects, which is accepted (R68, R85). -/
def Obligations.ExecuteRunsTheSelectedCombine : Prop :=
  ∀ (s : State) (f : Format), s.statusState = configured → s.selected = some f →
    ∃ t j, exec .execute s = .next t ∧ exec (combineOf f) s = .next t ∧ Accepted s t j

/-- The record of an accepted EXECUTE (R51, R52, R59, R85, R145, R148): the write set is the addresses of the write
positions; BUSERR exactly when an address of the write or read set answers with a bus error; otherwise COLLIDE exactly
when two write positions share an address or a write position's address is a selected source; every address of the
write set, and no other, is pending. -/
def Obligations.AcceptedJobRecord : Prop :=
  ∀ (s t : State) (f : Format) (j : Job), s.statusState = configured → s.selected = some f →
    exec .execute s = .next t → t.job = some j →
    (∀ q : Pos, q ∈ jobPositions s f ↔ q.p.val < planeCount f ∧ q.x < s.imageW / (planeDesc f q.p).dx ∧
      q.y < s.imageH / (planeDesc f q.p).dy ∧ q.k < (planeDesc f q.p).elemBytes) ∧
    (∀ a, a ∈ j.wset ↔ ∃ q ∈ jobPositions s f, a = dstAddr s f q) ∧
    (j.kind = .busErr ↔ ∃ q ∈ jobPositions s f,
      busError s (dstAddr s f q) = true ∨ busError s (srcAddr s (select f q)) = true) ∧
    (j.kind ≠ .busErr → (j.kind = .collide ↔ ∃ q ∈ jobPositions s f, ∃ q' ∈ jobPositions s f,
      (q ≠ q' ∧ dstAddr s f q = dstAddr s f q') ∨ dstAddr s f q = srcAddr s (select f q'))) ∧
    (∀ a, (cellGet j.pending a).isSome = true ↔ a ∈ j.wset)

/-- EXECUTE, and each combine whose code FORMAT.FMT holds, is ignored in BUSY and is ILLEGAL_COMMAND in UNCONFIGURED;
a combine whose code FORMAT.FMT does not hold stops (R81, R85; log 11). -/
def Obligations.ExecuteOutsideConfigured : Prop :=
  ∀ (s : State) (f : Format),
    (s.statusState = busy → exec .execute s = .next s ∧
      (s.selected = some f → exec (combineOf f) s = .next s)) ∧
    (s.statusState = unconfigured → exec .execute s = .next (failed s 5#4) ∧
      (s.selected = some f → exec (combineOf f) s = .next (failed s 5#4))) ∧
    (s.selected ≠ some f → exec (combineOf f) s = .fault .combineNotSelected)

/-! ## The engine -/

/-- ENGINE_WRITE of any pending address writes its byte, removes it from the job, and changes nothing else (R86). -/
def Obligations.EngineWriteStoresOneByte : Prop :=
  ∀ (s : State) (j : Job) (a : Word) (v : Byte), s.statusState = busy → s.job = some j →
    cellGet j.pending a.toNat = some v →
    ∃ t j', exec (.engineWrite a) s = .next t ∧ t.job = some j' ∧
      readMem t a.toNat = v ∧ (∀ b, b ≠ a.toNat → readMem t b = readMem s b) ∧
      cellGet j'.pending a.toNat = none ∧ (∀ b, b ≠ a.toNat → cellGet j'.pending b = cellGet j.pending b) ∧
      j'.wset = j.wset ∧ j'.kind = j.kind ∧ j'.before = j.before ∧
      t = { s with mem := t.mem, job := t.job }

/-- ENGINE_COMPLETE with nothing pending ends the job and the block is CONFIGURED again: a NORMAL or COLLIDE job sets
DONE and keeps ERR, a BUSERR job sets ERROR and ERR = 6 and not DONE; nothing else changes (R87, R145). -/
def Obligations.EngineCompleteEndsTheJob : Prop :=
  ∀ (s : State) (j : Job), s.statusState = busy → s.job = some j → j.pending = [] →
    (j.kind ≠ .busErr → exec .engineComplete s =
      .next { s with job := none, statusState := 1#2, intStatus := s.intStatus ||| 1#2 }) ∧
    (j.kind = .busErr → exec .engineComplete s =
      .next { s with job := none, statusState := 1#2, statusErr := 6#4, intStatus := s.intStatus ||| 2#2 })

/-- The engine's steps stop by name where they are not enabled (R86, R87; log 13). -/
def Obligations.EngineStepsNotEnabled : Prop :=
  ∀ s : State,
    (∀ a : Word, (s.statusState ≠ busy ∨ ∀ j, s.job = some j → cellGet j.pending a.toNat = none) →
      exec (.engineWrite a) s = .fault .engineWriteNotEnabled) ∧
    ((s.statusState ≠ busy ∨ ∀ j, s.job = some j → j.pending ≠ []) →
      exec .engineComplete s = .fault .engineCompleteNotEnabled)

/-! ## Whole-machine rules -/

/-- No operation but ENGINE_WRITE and SOFT_RESET (as a command or as its CMD write) changes memory, ENGINE_WRITE only
at its own address, and SOFT_RESET only in the write set of a job it abandons (R53, R54, R135, R160). A step changes a byte
only by a host write at it (the new byte is the host's), by ENGINE_WRITE at it in an engine slot (the pending byte), by
a landed write of an abandoned job at it (R161, the byte in flight; log 16), or by a reset that abandons a job whose
write set holds it. -/
def Obligations.OnlyTheEngineWritesMemory : Prop :=
  (∀ (s t : State) (i : Instr), exec i s = .next t → ∀ a, readMem t a ≠ readMem s a →
    (∃ w : Word, i = .engineWrite w ∧ a = w.toNat) ∨
    ((i = .softReset ∨ i = .regWrite 0x004 0x00000003) ∧ ∃ j, s.job = some j ∧ a ∈ j.wset)) ∧
  ∀ s t : State, step s = .next t → ∀ a, readMem t a ≠ readMem s a →
    (∃ w v rest, s.moves = .hostWrite w v :: rest ∧ a = w.toNat ∧ readMem t a = v) ∨
    ((s.moves = [] ∨ ∃ pick rest, s.moves = .engine pick :: rest) ∧ s.statusState = busy ∧
      ∃ j, s.job = some j ∧ cellGet j.pending a = some (readMem t a)) ∨
    ((∃ pick rest, s.moves = .engine pick :: rest) ∧ (s.statusState ≠ busy ∨ s.job = none) ∧
      (a, readMem t a) ∈ s.inFlight) ∨
    (((∃ rest, s.moves = .rstAssert :: rest) ∨
        ∃ r rest, s.moves = .port r :: rest ∧ decodePort r = .instr (.regWrite 0x004 0x00000003)) ∧
      ∃ j, s.job = some j ∧ a ∈ j.wset)

/-- No operation but a register write and SOFT_RESET changes a programming register, INT_ENABLE, or what is not the
block's; and no operation at all changes the level of rst_n, the schedule or the platform (R13, R44). -/
def Obligations.OnlyTheHostWritesRegisters : Prop :=
  ∀ (s t : State) (i : Instr), exec i s = .next t →
    (t.rstN = s.rstN ∧ t.memData = s.memData ∧ t.moves = s.moves ∧ t.busErrors = s.busErrors) ∧
    ((∀ off d, i ≠ .regWrite off d) → i ≠ .softReset → SameProgramming s t)

/-- R22: irq is high exactly when DONE or ERROR is pending and enabled, and low after reset. -/
def Obligations.IrqFollowsTheRegisters : Prop :=
  (∀ s : State, s.irq = true ↔
    (s.intStatus.getLsbD 0 = true ∧ s.intEnable.getLsbD 0 = true) ∨
    (s.intStatus.getLsbD 1 = true ∧ s.intEnable.getLsbD 1 = true)) ∧
  State.reset.irq = false

/-- What reset leaves: every register at the value of R12, no job, irq low, and memory with nothing written. -/
def Obligations.ResetState : Prop :=
  (∀ r, readReg State.reset r = if r = .id then 0x50430100 else 0) ∧
  State.reset.job = none ∧ State.reset.irq = false ∧ State.reset.mem = []

/-- The invariant holds at reset, and no job has broken its promise. -/
def Obligations.InvariantAtReset : Prop := Invariant State.reset ∧ JobFaithful State.reset

/-- Every step keeps the invariant: STATE is never 3 and ERR never above 6 (R18, R137), JOB is present exactly in BUSY
(R40), a configuration outside UNCONFIGURED passes every check (R43), the job record fits the registers, and memory
stays canonical. -/
def Obligations.StepKeepsTheInvariant : Prop :=
  ∀ s t : State, Invariant s → step s = .next t → Invariant t

/-- Every step keeps a NORMAL job's promise: whatever the host, the engine and another instance do, each destination
byte still pending or already written is the source byte its position selects, as memory stands (R57, R60, R85, R90). -/
def Obligations.StepKeepsTheJobFaithful : Prop :=
  ∀ s t : State, Invariant s → JobFaithful s → step s = .next t → JobFaithful t

/-- A whole NORMAL job, for every order of the engine's writes: it runs to its end, every destination byte is the
sample its position selects, every other byte keeps its value, and the block is CONFIGURED with ERR = 0 and DONE set
(R53, R56, R85 to R87, R90). -/
def Obligations.NormalJobWritesTheImage : Prop :=
  ∀ (s : State) (f : Format) (order : List Word), s.statusState = configured → s.selected = some f →
    jobKind s f = .normal → (order.map BitVec.toNat).Perm (writeSet s f) →
    ∃ t, runJob order s = .next t ∧
      (∀ q ∈ jobPositions s f, readMem t (dstAddr s f q) = sampleAt s (select f q)) ∧
      (∀ a, a ∉ writeSet s f → readMem t a = readMem s a) ∧
      t.statusState = configured ∧ t.statusErr = 0#4 ∧ t.intStatus = s.intStatus ||| 1#2 ∧ t.job = none ∧
      t.busData = s.busData ∧ SameProgramming s t

/-- R124: after a NORMAL job of YUV444, IYUV, NV12 or NV21, for every order of the engine's writes, plane 0 row by row
is the Y channel exactly. -/
def Obligations.LumaRoundTrip : Prop :=
  ∀ (s : State) (f : Format) (order : List Word), s.statusState = configured → s.selected = some f →
    (f = .yuv444 ∨ f = .iyuv ∨ f = .nv12 ∨ f = .nv21) →
    jobKind s f = .normal → (order.map BitVec.toNat).Perm (writeSet s f) →
    ∃ t, runJob order s = .next t ∧
      ∀ x y, x < s.imageW → y < s.imageH → readMem t (planeByte s 0 y x) = sourceByte s 0 x y

/-- The order of the engine's writes does not show: for a job of any kind, two orders end in one state (R56, R85, R86).
For a job that is not NORMAL this rests on the draws being taken, and numbered, at acceptance (log 5). -/
def Obligations.WriteOrderDoesNotShow : Prop :=
  ∀ (s : State) (f : Format) (order order' : List Word), Memory.wf s.mem →
    s.statusState = configured → s.selected = some f →
    (order.map BitVec.toNat).Perm (writeSet s f) → (order'.map BitVec.toNat).Perm (writeSet s f) →
    ∃ t, runJob order s = .next t ∧ runJob order' s = .next t

/-- A job ends (R168): with no move of the environment left, a busy block is CONFIGURED after one step per pending byte
and one more. -/
def Obligations.JobEnds : Prop :=
  ∀ (s : State) (j : Job), Invariant s → s.moves = [] → s.job = some j →
    ∃ t, Host.Core.run Sys2Proof.core (j.pending.length + 1) s = .next t ∧
      t.statusState = configured ∧ t.job = none

/-! ## Descriptor, planner and selection -/

/-- R105: the plan of each format for a shape that meets its evenness requirement. -/
def Obligations.PlanOfEachFormat : Prop :=
  ∀ w h : Nat,
    plan .rgb888 w h = some [⟨w, h, 3 * w⟩] ∧
    plan .rgba8888 w h = some [⟨w, h, 4 * w⟩] ∧
    plan .yuv444 w h = some [⟨w, h, w⟩, ⟨w, h, w⟩, ⟨w, h, w⟩] ∧
    (w % 2 = 0 → plan .yuyv422 w h = some [⟨w, h, 2 * w⟩] ∧ plan .uyvy422 w h = some [⟨w, h, 2 * w⟩]) ∧
    (w % 2 = 0 → h % 2 = 0 →
      plan .iyuv w h = some [⟨w, h, w⟩, ⟨w / 2, h / 2, w / 2⟩, ⟨w / 2, h / 2, w / 2⟩] ∧
      plan .nv12 w h = some [⟨w, h, w⟩, ⟨w / 2, h / 2, w⟩] ∧
      plan .nv21 w h = some [⟨w, h, w⟩, ⟨w / 2, h / 2, w⟩])

/-- R103: which shapes make the plan fail. -/
def Obligations.PlanFailsOnUnevenShapes : Prop :=
  ∀ (f : Format) (w h : Nat), plan f w h = none ↔
    ((f = .yuyv422 ∨ f = .uyvy422) ∧ w % 2 ≠ 0) ∨
    ((f = .iyuv ∨ f = .nv12 ∨ f = .nv21) ∧ (w % 2 ≠ 0 ∨ h % 2 ≠ 0))

/-- The selection of every destination byte takes the channel the descriptor names for that byte of the plane's row,
and a sample inside the image (R93 to R101, R110 to R123). -/
def Obligations.SelectionFollowsTheDescriptor : Prop :=
  ∀ (f : Format) (w h : Nat) (q : Pos), evenEnough f w h = true → q ∈ positions f w h →
    (describe f).order[(select f q).c.val]? =
      (planeDesc f q.p).pattern[(q.x * (planeDesc f q.p).elemBytes + q.k) % (planeDesc f q.p).pattern.length]? ∧
    (select f q).c.val < channelCount f ∧ (select f q).x < w ∧ (select f q).y < h

/-! ## The host's memory, the reset input, other instances -/

/-- The host's own accesses of memory (R55, R58, R60, R61). A write, without a job or outside the write and read set of
the job in progress, is seen by the next read and by nothing else; a write of the job's write or read set is refused.
A read of a write-set byte gives, for a NORMAL job, its value before the job or the value the job writes to it, and for
another job the next free byte; every other read gives the byte in memory; no read changes anything of the block or of
memory. -/
def Obligations.HostMemoryAccesses : Prop :=
  ∀ (s : State) (rest : List Move) (a : Word) (v : Byte),
    (s.moves = .hostWrite a v :: rest →
      (∀ j, s.job = some j → a.toNat ∉ j.wset ∧ ∀ f, s.selected = some f → a.toNat ∉ readSet s f) →
      ∃ t, step s = .next t ∧ readMem t a.toNat = v ∧ (∀ b, b ≠ a.toNat → readMem t b = readMem s b) ∧
        t = { s with moves := rest, mem := t.mem }) ∧
    (∀ j f, s.moves = .hostWrite a v :: rest → s.job = some j → s.selected = some f →
      (a.toNat ∈ j.wset ∨ a.toNat ∈ readSet s f) → step s = .refused .hostWriteDuringJob) ∧
    (∀ j, s.moves = .hostRead a :: rest → s.job = some j → a.toNat ∈ j.wset → j.kind = .normal →
      ∃ t, step s = .next t ∧ (t.memData = byteBefore s j a.toNat ∨ t.memData = byteOfJob s j a.toNat) ∧
        t = { s with moves := rest, memData := t.memData, draws := t.draws }) ∧
    (∀ j, s.moves = .hostRead a :: rest → s.job = some j → a.toNat ∈ j.wset → j.kind ≠ .normal →
      step s = .next { s with moves := rest, memData := Config.freeByte s.draws, draws := s.draws + 1 }) ∧
    (s.moves = .hostRead a :: rest → (∀ j, s.job = some j → a.toNat ∉ j.wset) →
      step s = .next { s with moves := rest, memData := readMem s a.toNat })

/-- A slot of the engine in which no engine step is enabled (R161; logs 13, 16): one write in flight after a reset lands,
whichever of them the schedule picks. Its byte is written and it is in flight no more, no other byte and no other write
in flight changes, and nothing else does; with nothing in flight nothing changes at all. -/
def Obligations.LandedWriteStoresOneByte : Prop :=
  ∀ s : State, (s.statusState ≠ busy ∨ s.job = none) →
    (∀ pick rest, s.moves = .engine pick :: rest →
      (s.inFlight = [] → step s = .next { s with moves := rest }) ∧
      (s.inFlight ≠ [] → ∃ c ∈ s.inFlight, ∃ t, step s = .next t ∧
        readMem t c.1 = c.2 ∧ (∀ b, b ≠ c.1 → readMem t b = readMem s b) ∧
        cellGet t.inFlight c.1 = none ∧ (∀ b, b ≠ c.1 → cellGet t.inFlight b = cellGet s.inFlight b) ∧
        t = { s with moves := rest, mem := t.mem, inFlight := t.inFlight })) ∧
    ∀ c ∈ s.inFlight, ∃ pick, ∀ rest, ∃ t, step { s with moves := .engine pick :: rest } = .next t ∧
      readMem t c.1 = c.2 ∧ cellGet t.inFlight c.1 = none

/-- The reset input (R159): asserted it does to the block exactly what SOFT_RESET does; while it is asserted a register
transaction is refused. -/
def Obligations.ResetInputResets : Prop :=
  ∀ (s : State) (rest : List Move),
    (s.moves = .rstAssert :: rest → ∃ t, exec .softReset { s with moves := rest } = .next t ∧
      step s = .next { t with rstN := false }) ∧
    (s.moves = .rstRelease :: rest → step s = .next { s with moves := rest, rstN := true }) ∧
    (∀ r, s.moves = .port r :: rest → s.rstN = false → step s = .refused .transactionDuringReset)

/-- A job of another instance at the same time (R64): when its write set meets this NORMAL job's write or read set, or
its read set meets this job's write set, this job becomes a colliding one; when they are disjoint nothing changes. -/
def Obligations.OtherInstanceCollides : Prop :=
  ∀ (s : State) (rest : List Move) (writes reads : List Nat) (f : Format) (j : Job),
    s.moves = .otherJob writes reads :: rest → s.selected = some f → s.job = some j → j.kind = .normal →
    ((∃ a, (a ∈ writes ∧ (a ∈ j.wset ∨ a ∈ readSet s f)) ∨ (a ∈ reads ∧ a ∈ j.wset)) →
      ∃ t j', step s = .next t ∧ t.job = some j' ∧ j'.kind = .collide ∧ j'.wset = j.wset ∧
        (∀ a, (cellGet j'.pending a).isSome = true ↔ a ∈ j.wset) ∧
        t = { s with moves := rest, job := some j', draws := t.draws }) ∧
    ((∀ a, a ∈ writes → a ∉ j.wset ∧ a ∉ readSet s f) → (∀ a, a ∈ reads → a ∉ j.wset) →
      step s = .next { s with moves := rest })
end

