-- ==== Sys2Proof/Laws/Decode.lean ====
section
/-! SUPPORT. What the decoders and the encoder do with words, bytes, command words and offsets: the arithmetic of the
byte layout, which command words are legal, and where the registers stand. -/

namespace Sys2Proof

/-! ## Bytes and words -/

theorem wordOfBytes_byteOfWord (w : Word) :
    wordOfBytes (byteOfWord w 0) (byteOfWord w 1) (byteOfWord w 2) (byteOfWord w 3) = w := by
  apply BitVec.eq_of_toNat_eq
  simp [wordOfBytes, byteOfWord, BitVec.extractLsb'_toNat, Nat.shiftRight_eq_div_pow]
  omega

theorem bytesOfWord_wordOfBytes (b0 b1 b2 b3 : Byte) : bytesOfWord (wordOfBytes b0 b1 b2 b3) = [b0, b1, b2, b3] := by
  simp only [bytesOfWord, List.cons.injEq, and_true]
  refine ⟨?_, ?_, ?_, ?_⟩ <;>
  · apply BitVec.eq_of_toNat_eq
    simp [wordOfBytes, byteOfWord, BitVec.extractLsb'_toNat, Nat.shiftRight_eq_div_pow]
    omega

theorem halfOfBytes_extract (h : BitVec 16) : halfOfBytes (h.extractLsb' 0 8) (h.extractLsb' 8 8) = h := by
  apply BitVec.eq_of_toNat_eq
  simp [halfOfBytes, BitVec.extractLsb'_toNat, Nat.shiftRight_eq_div_pow]
  omega

theorem bytesOfHalf_halfOfBytes (h0 h1 : Byte) : bytesOfHalf (halfOfBytes h0 h1) = [h0, h1] := by
  simp only [bytesOfHalf, List.cons.injEq, and_true]
  refine ⟨?_, ?_⟩ <;>
  · apply BitVec.eq_of_toNat_eq
    simp [halfOfBytes, BitVec.extractLsb'_toNat, Nat.shiftRight_eq_div_pow]
    omega

/-! ## Transaction words -/

theorem encodeHeader_dir (off : BitVec 12) (write : Bool) : (encodeHeader write off).getLsbD 12 = write := by
  rw [BitVec.getLsbD, encodeHeader, BitVec.toNat_ofNat, Nat.testBit_eq_decide_div_mod_eq]
  have := off.isLt
  cases write <;> simp <;> omega

theorem encodeHeader_off (off : BitVec 12) (write : Bool) : (encodeHeader write off).extractLsb' 0 12 = off := by
  apply BitVec.eq_of_toNat_eq
  have := off.isLt
  simp [encodeHeader, BitVec.extractLsb'_toNat]
  cases write <;> simp <;> omega

theorem encodeHeader_undefined (off : BitVec 12) (write : Bool) : (encodeHeader write off).extractLsb' 13 3 = 0#3 := by
  apply BitVec.eq_of_toNat_eq
  have := off.isLt
  simp [encodeHeader, BitVec.extractLsb'_toNat, Nat.shiftRight_eq_div_pow]
  cases write <;> simp <;> omega

/-- A transaction word without undefined bits is the encoding of its own fields. -/
theorem encodeHeader_fields (h : BitVec 16) (hu : h.extractLsb' 13 3 = 0#3) :
    encodeHeader (h.getLsbD 12) (h.extractLsb' 0 12) = h := by
  apply BitVec.eq_of_toNat_eq
  rw [← BitVec.toNat_inj] at hu
  have := h.isLt
  simp [BitVec.extractLsb'_toNat, Nat.shiftRight_eq_div_pow] at hu
  simp only [encodeHeader, BitVec.toNat_ofNat, BitVec.extractLsb'_toNat, BitVec.getLsbD,
    Nat.testBit_eq_decide_div_mod_eq, decide_eq_true_eq]
  simp
  split <;> omega

theorem offsetAligned_iff (off : BitVec 12) : offsetAligned off = true ↔ off.toNat % 4 = 0 := by
  simp [offsetAligned, BitVec.toNat_eq, BitVec.extractLsb'_toNat]

/-- A request the port admits is the transaction its fields say. -/
theorem decodePort_instr {r : PortRequest} {i : Instr} (h : decodePort r = .instr i) :
    r.width = .word ∧ r.undefinedBits = 0#3 ∧ r.offset.toNat % 4 = 0 ∧
      i = (if r.isWrite then .regWrite r.offset r.data else .regRead r.offset) := by
  unfold decodePort at h
  split at h; · cases h
  split at h; · cases h
  split at h; · cases h
  split at h <;> cases h <;> simp_all

/-! ## Command words -/

theorem illegalWord_iff (w : Word) :
    illegalWord w = true ↔ w.extractLsb' 4 28 ≠ 0#28 ∨ 4 ≤ (w.extractLsb' 0 4).toNat := by
  simp only [illegalWord, Bool.or_eq_true, bne_iff_ne, decide_eq_true_eq]

theorem decodeCommand_of_illegal {w : Word} (h : illegalWord w = true) : decodeCommand w = .illegal w := by
  rw [illegalWord_iff] at h
  unfold decodeCommand commandReserved commandOp
  split
  · rfl
  · rename_i hr
    have h4 : 4 ≤ (w.extractLsb' 0 4).toNat := h.resolve_left hr
    split <;> first | omega | rfl

/-- The legal command words are 0 to 3 (30_encoding.md R66, R67). -/
theorem legal_words {w : Word} (h : illegalWord w = false) : w = 0 ∨ w = 1 ∨ w = 2 ∨ w = 3 := by
  simp only [illegalWord, Bool.or_eq_false_iff, bne_eq_false_iff_eq, decide_eq_false_iff_not, not_le] at h
  obtain ⟨h1, h2⟩ := h
  rw [← BitVec.toNat_inj] at h1
  simp [BitVec.extractLsb'_toNat, Nat.shiftRight_eq_div_pow] at h1 h2
  have : w.toNat = 0 ∨ w.toNat = 1 ∨ w.toNat = 2 ∨ w.toNat = 3 := by omega
  rcases this with h | h | h | h
  · exact .inl (BitVec.eq_of_toNat_eq h)
  · exact .inr (.inl (BitVec.eq_of_toNat_eq h))
  · exact .inr (.inr (.inl (BitVec.eq_of_toNat_eq h)))
  · exact .inr (.inr (.inr (BitVec.eq_of_toNat_eq h)))

@[simp] theorem decodeCommand_zero : decodeCommand 0#32 = .nop := rfl
@[simp] theorem decodeCommand_one : decodeCommand 1#32 = .configure := rfl
@[simp] theorem decodeCommand_two : decodeCommand 2#32 = .execute := rfl
@[simp] theorem decodeCommand_three : decodeCommand 3#32 = .softReset := rfl

/-! ## Format codes -/

theorem decodeFormat_iff (code : BitVec 4) (f : Format) : decodeFormat code = some f ↔ code = formatCode f := by
  cases f <;> revert code <;> decide

theorem decodeFormat_none_iff (code : BitVec 4) : decodeFormat code = none ↔ code.toNat = 0 ∨ 9 ≤ code.toNat := by
  revert code; decide

/-! ## The register map -/

@[simp] theorem regAt_regOffset_srcBase (c : Fin 4) : regAt (regOffset (.srcBase c)) = .srcBase c := by
  revert c; decide
@[simp] theorem regAt_regOffset_srcStride (c : Fin 4) : regAt (regOffset (.srcStride c)) = .srcStride c := by
  revert c; decide
@[simp] theorem regAt_regOffset_srcDim (c : Fin 4) : regAt (regOffset (.srcDim c)) = .srcDim c := by
  revert c; decide
@[simp] theorem regAt_regOffset_dstBase (p : Fin 3) : regAt (regOffset (.dstBase p)) = .dstBase p := by
  revert p; decide
@[simp] theorem regAt_regOffset_dstStride (p : Fin 3) : regAt (regOffset (.dstStride p)) = .dstStride p := by
  revert p; decide
@[simp] theorem regAt_regOffset_dstDim (p : Fin 3) : regAt (regOffset (.dstDim p)) = .dstDim p := by
  revert p; decide

theorem regAt_low : ∀ n : Fin 144, regAt (BitVec.ofNat 12 n) ≠ .reserved →
    regOffset (regAt (BitVec.ofNat 12 n)) = BitVec.ofNat 12 n := by decide

theorem regAt_low_reserved : ∀ n : Fin 144, n.val % 4 = 0 →
    (regAt (BitVec.ofNat 12 n) = .reserved ↔ 0x020 ≤ n.val ∧ n.val % 0x10 = 0x00C) := by decide

theorem regAt_high {off : BitVec 12} (h : 0x090 ≤ off.toNat) : regAt off = .reserved := by
  have h1 : ¬ off.toNat < 0x020 := by omega
  have h2 : ¬ off.toNat < 0x060 := by omega
  have h3 : ¬ off.toNat < 0x090 := by omega
  simp only [regAt, h1, h2, h3, if_false, ite_self]

/-- A register stands at one offset only. -/
theorem regOffset_regAt {off : BitVec 12} (h : regAt off ≠ .reserved) : regOffset (regAt off) = off := by
  have hl : off.toNat < 144 := by
    by_contra hc; exact h (regAt_high (by omega))
  have he : BitVec.ofNat 12 off.toNat = off := by simp
  have := regAt_low ⟨off.toNat, hl⟩
  simp only [he] at this
  exact this h

theorem regAt_eq_reserved_iff {off : BitVec 12} (h : off.toNat % 4 = 0) :
    regAt off = .reserved ↔ 0x090 ≤ off.toNat ∨ (0x020 ≤ off.toNat ∧ off.toNat % 0x10 = 0x00C) := by
  by_cases hl : off.toNat < 144
  · have he : BitVec.ofNat 12 off.toNat = off := by simp
    have := regAt_low_reserved ⟨off.toNat, hl⟩ h
    simp only [he] at this
    rw [this]; omega
  · simp [regAt_high (by omega : 0x090 ≤ off.toNat)]; omega

end Sys2Proof
end

