-- ==== Sys2Proof/Laws/Memory.lean ====
section
/-! SUPPORT. What the finite maps, the address sets and the byte memory do: a read after a write, and that every
operation keeps the canonical form. -/

namespace Sys2Proof.Machine

/-! ## Finite maps -/

@[simp] theorem cellGet_nil (a : Nat) : cellGet [] a = none := rfl

theorem cellGet_cellSet (m : List Host.Cell) (a b : Nat) (v : Byte) :
    cellGet (cellSet m a v) b = if a = b then some v else cellGet m b := by
  induction m with
  | nil => simp [cellSet, cellGet]
  | cons c rest ih =>
    obtain ⟨d, w⟩ := c
    by_cases h1 : a < d
    · simp [cellSet, cellGet, h1]
    · by_cases h2 : a = d
      · subst h2; by_cases h3 : a = b <;> simp [cellSet, cellGet, h3]
      · by_cases h3 : d = b
        · subst h3; simp [cellSet, cellGet, h1, h2]
        · simp [cellSet, cellGet, h1, h2, h3, ih]

@[simp] theorem cellGet_cellSet_same (m : List Host.Cell) (a : Nat) (v : Byte) :
    cellGet (cellSet m a v) a = some v := by simp [cellGet_cellSet]

theorem cellGet_cellSet_other (m : List Host.Cell) {a b : Nat} (v : Byte) (h : a ≠ b) :
    cellGet (cellSet m a v) b = cellGet m b := by simp [cellGet_cellSet, h]

theorem cellGet_cellErase (m : List Host.Cell) (a b : Nat) :
    cellGet (cellErase m a) b = if a = b then none else cellGet m b := by
  induction m with
  | nil => simp [cellErase]
  | cons c rest ih =>
    obtain ⟨d, w⟩ := c
    by_cases h1 : d = a
    · subst h1
      rw [show cellErase ((d, w) :: rest) d = cellErase rest d by simp [cellErase], ih]
      by_cases h3 : d = b <;> simp [cellGet, h3]
    · by_cases h3 : d = b
      · subst h3; simp [cellErase, cellGet, h1, Ne.symm h1]
      · simp [cellErase, cellGet, h1, h3, ih]

@[simp] theorem cellGet_cellErase_same (m : List Host.Cell) (a : Nat) : cellGet (cellErase m a) a = none := by
  simp [cellGet_cellErase]

theorem cellGet_cellErase_other (m : List Host.Cell) {a b : Nat} (h : a ≠ b) :
    cellGet (cellErase m a) b = cellGet m b := by simp [cellGet_cellErase, h]

theorem mem_of_cellGet {m : List Host.Cell} {a : Nat} {v : Byte} (h : cellGet m a = some v) : (a, v) ∈ m := by
  induction m with
  | nil => simp at h
  | cons c rest ih =>
    obtain ⟨d, w⟩ := c
    by_cases hd : d = a
    · simp [cellGet, hd] at h; simp [hd, h]
    · simp [cellGet, hd] at h; exact List.mem_cons_of_mem _ (ih h)

theorem cellGet_eq_none_iff (m : List Host.Cell) (a : Nat) : cellGet m a = none ↔ a ∉ m.map Prod.fst := by
  induction m with
  | nil => simp
  | cons c rest ih =>
    obtain ⟨d, w⟩ := c
    by_cases hd : d = a
    · simp [cellGet, hd]
    · simp only [cellGet, hd, if_false, List.map_cons, List.mem_cons, not_or, ih]
      exact ⟨fun h => ⟨Ne.symm hd, h⟩, fun h => h.2⟩

theorem cellGet_of_mem {m : List Host.Cell} (hm : (m.map Prod.fst).Pairwise (· < ·)) {c : Host.Cell} (hc : c ∈ m) :
    cellGet m c.1 = some c.2 := by
  induction m with
  | nil => simp at hc
  | cons d rest ih =>
    simp only [List.map_cons, List.pairwise_cons] at hm
    rcases List.mem_cons.1 hc with rfl | h
    · simp [cellGet]
    · have : d.1 < c.1 := hm.1 _ (List.mem_map_of_mem h)
      have hne : d.1 ≠ c.1 := by omega
      simp [cellGet, hne, ih hm.2 h]

theorem mem_keys_cellSet (m : List Host.Cell) (a b : Nat) (v : Byte) :
    b ∈ (cellSet m a v).map Prod.fst ↔ b = a ∨ b ∈ m.map Prod.fst := by
  rw [← not_iff_not, ← cellGet_eq_none_iff, not_or, ← cellGet_eq_none_iff, cellGet_cellSet]
  by_cases hab : a = b
  · simp [hab]
  · simp [hab, Ne.symm hab]

theorem keys_cellErase (m : List Host.Cell) (a : Nat) :
    (cellErase m a).map Prod.fst = (m.map Prod.fst).filter (fun b => b ≠ a) := by
  induction m with
  | nil => rfl
  | cons c rest ih =>
    obtain ⟨d, w⟩ := c
    by_cases h : d = a
    · simp [cellErase, h, ih]
    · simp [cellErase, h, ih]

theorem rising_cellSet {m : List Host.Cell} (h : (m.map Prod.fst).Pairwise (· < ·)) (a : Nat) (v : Byte) :
    ((cellSet m a v).map Prod.fst).Pairwise (· < ·) := by
  induction m with
  | nil => simp [cellSet]
  | cons c rest ih =>
    obtain ⟨d, w⟩ := c
    have h0 := h
    simp only [List.map_cons, List.pairwise_cons] at h
    by_cases h1 : a < d
    · simp only [cellSet, h1, if_true, List.map_cons, List.pairwise_cons]
      refine ⟨?_, h⟩
      intro b hb
      rcases List.mem_cons.1 hb with rfl | hb
      · exact h1
      · have := h.1 b hb; omega
    · by_cases h2 : a = d
      · subst h2; simpa [cellSet] using h0
      · simp only [cellSet, h1, h2, if_false, List.map_cons, List.pairwise_cons]
        refine ⟨?_, ih h.2⟩
        intro b hb
        rcases (mem_keys_cellSet rest a b v).1 hb with rfl | hb
        · omega
        · exact h.1 b hb

/-- A write keeps the canonical form. -/
theorem Memory.wf_cellSet {m : List Host.Cell} (h : Memory.wf m) {a : Nat} (ha : a < 2 ^ 32) (v : Byte) :
    Memory.wf (cellSet m a v) := by
  refine ⟨rising_cellSet h.1 a v, ?_⟩
  intro c hc
  have : c.1 ∈ (cellSet m a v).map Prod.fst := List.mem_map_of_mem hc
  rcases (mem_keys_cellSet m a c.1 v).1 this with h1 | h1
  · omega
  · obtain ⟨d, hd, he⟩ := List.mem_map.1 h1
    have := h.2 d hd; omega

theorem cellErase_subset (m : List Host.Cell) (a : Nat) : ∀ c ∈ cellErase m a, c ∈ m := by
  induction m with
  | nil => simp [cellErase]
  | cons d rest ih =>
    obtain ⟨d, w⟩ := d
    intro c hc
    by_cases h : d = a
    · simp [cellErase, h] at hc; exact List.mem_cons_of_mem _ (ih c hc)
    · simp only [cellErase, h, if_false, List.mem_cons] at hc
      rcases hc with rfl | hc
      · exact List.mem_cons_self ..
      · exact List.mem_cons_of_mem _ (ih c hc)

/-- An erasure keeps the canonical form. -/
theorem Memory.wf_cellErase {m : List Host.Cell} (h : Memory.wf m) (a : Nat) : Memory.wf (cellErase m a) := by
  refine ⟨?_, fun c hc => h.2 c (cellErase_subset m a c hc)⟩
  rw [keys_cellErase]; exact h.1.filter _

theorem cellGet_cellSetAll (m cells : List Host.Cell) (a : Nat) :
    cellGet (cellSetAll m cells) a = (cellGet cells a).or (cellGet m a) := by
  induction cells with
  | nil => simp [cellSetAll]
  | cons c rest ih =>
    obtain ⟨d, w⟩ := c
    have : cellSetAll m ((d, w) :: rest) = cellSet (cellSetAll m rest) d w := rfl
    rw [this, cellGet_cellSet, ih]
    by_cases h : d = a <;> simp [cellGet, h]

/-- Setting a list of cells keeps the canonical form. -/
theorem Memory.wf_cellSetAll {m : List Host.Cell} (h : Memory.wf m) {cells : List Host.Cell}
    (hc : ∀ c ∈ cells, c.1 < 2 ^ 32) : Memory.wf (cellSetAll m cells) := by
  induction cells with
  | nil => exact h
  | cons c rest ih =>
    exact Memory.wf_cellSet (ih fun d hd => hc d (List.mem_cons_of_mem _ hd)) (hc c (List.mem_cons_self ..)) _

theorem mem_keys_cellSetAll (m cells : List Host.Cell) (a : Nat) :
    a ∈ (cellSetAll m cells).map Prod.fst ↔ a ∈ cells.map Prod.fst ∨ a ∈ m.map Prod.fst := by
  induction cells with
  | nil => simp [cellSetAll]
  | cons c rest ih =>
    obtain ⟨d, w⟩ := c
    have : cellSetAll m ((d, w) :: rest) = cellSet (cellSetAll m rest) d w := rfl
    rw [this, mem_keys_cellSet, ih]; simp [or_assoc]

/-- Equal memories are equal data: two canonical maps that hold the same bytes are the same list. -/
theorem cells_ext {m n : List Host.Cell} (hm : (m.map Prod.fst).Pairwise (· < ·))
    (hn : (n.map Prod.fst).Pairwise (· < ·)) (he : ∀ a, cellGet m a = cellGet n a) : m = n := by
  induction m generalizing n with
  | nil =>
    cases n with
    | nil => rfl
    | cons c rest => have := he c.1; simp [cellGet] at this
  | cons c rest ih =>
    cases n with
    | nil => have := he c.1; simp [cellGet] at this
    | cons d rest' =>
      simp only [List.map_cons, List.pairwise_cons] at hm hn
      have key : c.1 = d.1 := by
        by_contra hne
        have h1 := he c.1
        have h2 := he d.1
        simp only [cellGet, if_true, hne, Ne.symm hne, if_false] at h1 h2
        have := hm.1 d.1 (List.mem_map_of_mem (f := Prod.fst) (mem_of_cellGet h2))
        have := hn.1 c.1 (List.mem_map_of_mem (f := Prod.fst) (mem_of_cellGet h1.symm))
        omega
      have hv : c.2 = d.2 := by
        have := he c.1
        simpa [cellGet, ← key] using this
      obtain rfl : c = d := Prod.ext key hv
      congr 1
      refine ih hm.2 hn.2 fun a => ?_
      by_cases hca : c.1 = a
      · have n1 : cellGet rest a = none := by
          rw [cellGet_eq_none_iff]; intro h; have := hm.1 a h; omega
        have n2 : cellGet rest' a = none := by
          rw [cellGet_eq_none_iff]; intro h; have := hn.1 a h; omega
        rw [n1, n2]
      · have := he a
        simpa [cellGet, hca] using this

/-! ## Address sets -/

theorem mem_addrInsert (l : List Nat) (a b : Nat) : b ∈ addrInsert l a ↔ b = a ∨ b ∈ l := by
  induction l with
  | nil => simp [addrInsert]
  | cons d rest ih =>
    by_cases h1 : a < d
    · simp [addrInsert, h1]
    · by_cases h2 : a = d
      · subst h2; simp [addrInsert]
      · simp only [addrInsert, h1, h2, if_false, List.mem_cons, ih]; tauto

@[simp] theorem mem_addrSet (l : List Nat) (a : Nat) : a ∈ addrSet l ↔ a ∈ l := by
  induction l with
  | nil => simp [addrSet]
  | cons d rest ih =>
    have : addrSet (d :: rest) = addrInsert (addrSet rest) d := rfl
    rw [this, mem_addrInsert, ih]; simp

theorem rising_addrInsert {l : List Nat} (h : l.Pairwise (· < ·)) (a : Nat) :
    (addrInsert l a).Pairwise (· < ·) := by
  induction l with
  | nil => simp [addrInsert]
  | cons d rest ih =>
    have h0 := h
    simp only [List.pairwise_cons] at h
    by_cases h1 : a < d
    · simp only [addrInsert, h1, if_true, List.pairwise_cons]
      refine ⟨?_, h⟩
      intro b hb
      rcases List.mem_cons.1 hb with rfl | hb
      · exact h1
      · have := h.1 b hb; omega
    · by_cases h2 : a = d
      · simpa [addrInsert, h1, h2] using h0
      · simp only [addrInsert, h1, h2, if_false, List.pairwise_cons]
        refine ⟨?_, ih h.2⟩
        intro b hb
        rcases (mem_addrInsert rest a b).1 hb with rfl | hb
        · omega
        · exact h.1 b hb

theorem rising_addrSet (l : List Nat) : (addrSet l).Pairwise (· < ·) := by
  induction l with
  | nil => simp [addrSet]
  | cons d rest ih => exact rising_addrInsert ih d

theorem length_addrInsert (l : List Nat) (a : Nat) (h : l.Pairwise (· < ·)) :
    (addrInsert l a).length = if a ∈ l then l.length else l.length + 1 := by
  induction l with
  | nil => simp [addrInsert]
  | cons d rest ih =>
    simp only [List.pairwise_cons] at h
    by_cases h1 : a < d
    · have : a ∉ d :: rest := by
        simp only [List.mem_cons, not_or]
        exact ⟨by omega, fun hm => by have := h.1 a hm; omega⟩
      simp [addrInsert, h1, this]
    · by_cases h2 : a = d
      · subst h2; simp [addrInsert]
      · have h3 := ih h.2
        simp only [addrInsert, h1, h2, if_false, List.length_cons, h3, List.mem_cons, false_or]
        split <;> simp

theorem length_addrSet_le (l : List Nat) : (addrSet l).length ≤ l.length := by
  induction l with
  | nil => simp [addrSet]
  | cons d rest ih =>
    have : addrSet (d :: rest) = addrInsert (addrSet rest) d := rfl
    rw [this, length_addrInsert _ _ (rising_addrSet rest)]
    simp only [List.length_cons]; split <;> omega

/-- The set of a list is shorter than the list exactly when two of its places hold the same address. -/
theorem length_addrSet_lt_iff (l : List Nat) : (addrSet l).length < l.length ↔ ¬ l.Nodup := by
  induction l with
  | nil => simp [addrSet]
  | cons d rest ih =>
    have h : addrSet (d :: rest) = addrInsert (addrSet rest) d := rfl
    have hle := length_addrSet_le rest
    rw [h, length_addrInsert _ _ (rising_addrSet rest)]
    simp only [mem_addrSet, List.length_cons, List.nodup_cons]
    by_cases hm : d ∈ rest
    · simp [hm]; omega
    · simp [hm, ih]

theorem keys_freeCells (n : Nat) (l : List Nat) : (freeCells n l).map Prod.fst = l := by
  induction l generalizing n with
  | nil => rfl
  | cons a rest ih => simp [freeCells, ih]

theorem keys_abandonedCells (s : State) (j : Job) (n : Nat) (l : List Nat) :
    (abandonedCells s j n l).map Prod.fst = l := by
  induction l generalizing n with
  | nil => rfl
  | cons a rest ih => simp [abandonedCells, ih]

/-! ## The byte memory -/

theorem addr32_lt (n : Nat) : addr32 n < 2 ^ 32 := Nat.mod_lt _ (by decide)

/-- A read after a write to the same place gives the value written. -/
@[simp] theorem readMem_writeMem_same (s : State) (a : Nat) (v : Byte) : readMem (writeMem s a v) a = v := by
  simp [readMem, writeMem]

/-- A write leaves every other place alone. -/
theorem readMem_writeMem_other (s : State) {a b : Nat} (v : Byte) (h : a ≠ b) :
    readMem (writeMem s a v) b = readMem s b := by
  simp [readMem, writeMem, cellGet_cellSet_other _ v h]

/-- What a read gives depends on the memory alone. -/
theorem readMem_congr {s t : State} (h : s.mem = t.mem) (a : Nat) : readMem s a = readMem t a := by
  simp [readMem, h]

/-- A write keeps the canonical form of the memory. -/
theorem wf_writeMem {s : State} (h : Memory.wf s.mem) {a : Nat} (ha : a < 2 ^ 32) (v : Byte) :
    Memory.wf (writeMem s a v).mem := Memory.wf_cellSet h ha v

end Sys2Proof.Machine
end

