-- ==== Sys2Proof/Laws/Engine.lean ====
section
/-! SUPPORT. What a slot of the schedule can give the engine: which engine step it runs (40_commands.md R86, R87), that
it can pick every pending address (20_memory.md R56), and which write in flight after a reset it lands
(70_reset_and_hazards.md R161). -/

namespace Sys2Proof.Machine

/-! ## Picking from a list -/

/-- A slot picks one of the cells. -/
theorem pick_mem (c : Host.Cell) (cs : List Host.Cell) (pick : Nat) :
    (c :: cs).getD (pick % (cs.length + 1)) c ∈ c :: cs := by
  have h : pick % (cs.length + 1) < (c :: cs).length := Nat.mod_lt _ (Nat.succ_pos _)
  rw [List.getD_eq_getElem _ _ h]
  exact List.getElem_mem h

/-- A slot can pick every cell. -/
theorem exists_pick {c d : Host.Cell} {cs : List Host.Cell} (h : d ∈ c :: cs) :
    ∃ pick, (c :: cs).getD (pick % (cs.length + 1)) c = d := by
  obtain ⟨n, hn, rfl⟩ := List.mem_iff_getElem.1 h
  exact ⟨n, by rw [Nat.mod_eq_of_lt (by simpa using hn), List.getD_eq_getElem _ _ hn]⟩

/-! ## The engine's step -/

/-- No engine step is enabled exactly when the block is not BUSY or has no job. -/
theorem engineChoice_eq_none_iff (pick : Nat) (s : State) :
    engineChoice pick s = none ↔ s.statusState ≠ busy ∨ s.job = none := by
  unfold engineChoice
  split
  · split
    · simp [*]
    · split <;> simp [*]
  · simp [*]

/-- With nothing pending a slot ends the job. -/
theorem engineChoice_complete {s : State} {j : Job} (hb : s.statusState = busy) (hj : s.job = some j)
    (hp : j.pending = []) (pick : Nat) : engineChoice pick s = some .engineComplete := by
  simp [engineChoice, hb, hj, hp]

/-- With bytes pending a slot writes one of them. -/
theorem engineChoice_write {s : State} {j : Job} (hb : s.statusState = busy) (hj : s.job = some j)
    (hp : j.pending ≠ []) (pick : Nat) :
    ∃ c ∈ j.pending, engineChoice pick s = some (.engineWrite (BitVec.ofNat 32 c.1)) := by
  cases hc : j.pending with
  | nil => exact absurd hc hp
  | cons c cs => exact ⟨_, pick_mem c cs pick, by simp [engineChoice, hb, hj, hc]⟩

/-- Every pending address is one a slot can write. -/
theorem exists_engineChoice {s : State} {j : Job} (hb : s.statusState = busy) (hj : s.job = some j) {a : Word}
    (ha : a.toNat ∈ j.pending.map Prod.fst) : ∃ pick, engineChoice pick s = some (.engineWrite a) := by
  obtain ⟨d, hd, hda⟩ := List.mem_map.1 ha
  cases hc : j.pending with
  | nil => simp [hc] at hd
  | cons c cs =>
    obtain ⟨pick, hpick⟩ := exists_pick (hc ▸ hd)
    exact ⟨pick, by simp only [engineChoice, hb, if_true, hj, hc, hpick, hda, BitVec.ofNat_toNat, BitVec.setWidth_eq]⟩

/-- A slot picks an engine step by the registers and the job alone, whatever moves are left. -/
@[simp] theorem engineChoice_moves (pick : Nat) (s : State) (l : List Move) :
    engineChoice pick { s with moves := l } = engineChoice pick s := rfl

/-! ## Writes in flight -/

@[simp] theorem readMem_landCell_same (s : State) (c : Host.Cell) : readMem (landCell s c) c.1 = c.2 :=
  readMem_writeMem_same s c.1 c.2

theorem readMem_landCell_other (s : State) (c : Host.Cell) {b : Nat} (h : b ≠ c.1) :
    readMem (landCell s c) b = readMem s b := readMem_writeMem_other s c.2 (Ne.symm h)

/-- With nothing in flight nothing lands. -/
theorem landWrite_nil {s : State} (h : s.inFlight = []) (pick : Nat) : landWrite pick s = s := by
  simp [landWrite, h]

/-- With writes in flight one of them lands. -/
theorem landWrite_eq_landCell {s : State} (h : s.inFlight ≠ []) (pick : Nat) :
    ∃ c ∈ s.inFlight, landWrite pick s = landCell s c := by
  cases hc : s.inFlight with
  | nil => exact absurd hc h
  | cons c cs => exact ⟨_, pick_mem c cs pick, by simp [landWrite, hc]⟩

/-- Every write in flight is one that can land: some pick lands it in every state with these writes in flight. -/
theorem exists_landWrite {l : List Host.Cell} {c : Host.Cell} (h : c ∈ l) :
    ∃ pick, ∀ s : State, s.inFlight = l → landWrite pick s = landCell s c := by
  cases l with
  | nil => cases h
  | cons d ds =>
    obtain ⟨pick, hpick⟩ := exists_pick h
    exact ⟨pick, fun s hs => by simp only [landWrite, hs, hpick]⟩

/-! ## Slots -/

/-- A slot with an engine step enabled runs it. -/
theorem engineSlot_some {s : State} {pick : Nat} {i : Instr} (h : engineChoice pick s = some i) :
    engineSlot pick s = exec i s := by simp only [engineSlot, h]

/-- A slot with no engine step enabled lands a write in flight, if there is one. -/
theorem engineSlot_none {s : State} {pick : Nat} (h : engineChoice pick s = none) :
    engineSlot pick s = .next (landWrite pick s) := by simp only [engineSlot, h]

end Sys2Proof.Machine
end

