-- ==== Sys2Proof/Laws/Job.lean ====
section
/-! SUPPORT. What a job is made of: the write positions, the write and read sets, the kinds, and what is pending when
EXECUTE is accepted. Proofs cite these lemmas and do not unfold the definitions. -/

namespace Sys2Proof.Machine

/-! ## Positions -/

theorem mem_boundPlanes (f : Format) (p : Fin 3) : p ∈ boundPlanes f ↔ p.val < planeCount f := by
  fin_cases p <;> cases f <;> decide

theorem mem_boundSources (f : Format) (c : Fin 4) : c ∈ boundSources f ↔ c.val < channelCount f := by
  fin_cases c <;> cases f <;> decide

theorem nodup_boundPlanes (f : Format) : (boundPlanes f).Nodup := by cases f <;> decide

/-- The write positions are exactly those of 20_memory.md R51. -/
theorem mem_positions (f : Format) (w h : Nat) (q : Pos) :
    q ∈ positions f w h ↔ q.p.val < planeCount f ∧ q.x < w / (planeDesc f q.p).dx ∧
      q.y < h / (planeDesc f q.p).dy ∧ q.k < (planeDesc f q.p).elemBytes := by
  obtain ⟨p, x, y, k⟩ := q
  simp only [positions, List.mem_flatMap, List.mem_map, List.mem_range, planeGeom, mem_boundPlanes]
  constructor
  · rintro ⟨p', hp, y', hy, x', hx, k', hk, he⟩
    cases he
    exact ⟨hp, hx, hy, hk⟩
  · rintro ⟨hp, hx, hy, hk⟩
    exact ⟨p, hp, y, hy, x, hx, k, hk, rfl⟩

theorem mem_jobPositions (s : State) (f : Format) (q : Pos) :
    q ∈ jobPositions s f ↔ q.p.val < planeCount f ∧ q.x < s.imageW / (planeDesc f q.p).dx ∧
      q.y < s.imageH / (planeDesc f q.p).dy ∧ q.k < (planeDesc f q.p).elemBytes := mem_positions f _ _ q

/-- No write position occurs twice. -/
theorem nodup_positions (f : Format) (w h : Nat) : (positions f w h).Nodup := by
  unfold positions
  refine List.nodup_flatMap.2 ⟨fun p _ => List.nodup_flatMap.2 ⟨fun y _ => List.nodup_flatMap.2 ⟨fun x _ => ?_, ?_⟩, ?_⟩, ?_⟩
  · exact List.nodup_range.map fun k k' he => (Pos.mk.injEq ..).mp he |>.2.2.2
  · refine List.nodup_range.imp ?_
    intro x x' hne q hq hq'
    simp only [List.mem_map] at hq hq'
    obtain ⟨k, -, rfl⟩ := hq
    obtain ⟨k', -, he⟩ := hq'
    exact hne ((Pos.mk.injEq ..).mp he).2.1.symm
  · refine List.nodup_range.imp ?_
    intro y y' hne q hq hq'
    simp only [List.mem_map, List.mem_flatMap] at hq hq'
    obtain ⟨x, -, k, -, rfl⟩ := hq
    obtain ⟨x', -, k', -, he⟩ := hq'
    exact hne ((Pos.mk.injEq ..).mp he).2.2.1.symm
  · refine (nodup_boundPlanes f).imp ?_
    intro p p' hne q hq hq'
    simp only [List.mem_map, List.mem_flatMap] at hq hq'
    obtain ⟨y, -, x, -, k, -, rfl⟩ := hq
    obtain ⟨y', -, x', -, k', -, he⟩ := hq'
    exact hne ((Pos.mk.injEq ..).mp he).1.symm

/-! ## Write and read sets -/

theorem mem_writeSet (s : State) (f : Format) (a : Nat) :
    a ∈ writeSet s f ↔ ∃ q ∈ jobPositions s f, a = dstAddr s f q := by
  simp only [writeSet, mem_addrSet, List.mem_map, eq_comm]

theorem mem_readSet (s : State) (f : Format) (a : Nat) :
    a ∈ readSet s f ↔ ∃ q ∈ jobPositions s f, a = srcAddr s (select f q) := by
  simp only [readSet, mem_addrSet, List.mem_map, eq_comm]

theorem dstAddr_lt (s : State) (f : Format) (q : Pos) : dstAddr s f q < 2 ^ 32 := addr32_lt _

theorem srcAddr_lt (s : State) (q : Sample) : srcAddr s q < 2 ^ 32 := addr32_lt _

theorem writeSet_lt (s : State) (f : Format) {a : Nat} (h : a ∈ writeSet s f) : a < 2 ^ 32 := by
  obtain ⟨q, -, rfl⟩ := (mem_writeSet s f a).1 h; exact dstAddr_lt s f q

theorem rising_writeSet (s : State) (f : Format) : (writeSet s f).Pairwise (· < ·) := rising_addrSet _

/-! ## Kinds -/

theorem jobBusError_iff (s : State) (f : Format) : jobBusError s f = true ↔
    ∃ q ∈ jobPositions s f, busError s (dstAddr s f q) = true ∨ busError s (srcAddr s (select f q)) = true := by
  simp only [jobBusError, Bool.or_eq_true, List.any_eq_true, mem_writeSet, mem_readSet]
  constructor
  · rintro (⟨a, ⟨q, hq, rfl⟩, hb⟩ | ⟨a, ⟨q, hq, rfl⟩, hb⟩)
    · exact ⟨q, hq, .inl hb⟩
    · exact ⟨q, hq, .inr hb⟩
  · rintro ⟨q, hq, hb | hb⟩
    · exact .inl ⟨_, ⟨q, hq, rfl⟩, hb⟩
    · exact .inr ⟨_, ⟨q, hq, rfl⟩, hb⟩

theorem not_nodup_map_iff {α β : Type} {l : List α} (hl : l.Nodup) (g : α → β) :
    ¬ (l.map g).Nodup ↔ ∃ a ∈ l, ∃ b ∈ l, a ≠ b ∧ g a = g b := by
  rw [List.nodup_map_iff_inj_on hl]
  push Not
  constructor
  · rintro ⟨a, ha, b, hb, he, hne⟩; exact ⟨a, ha, b, hb, hne, he⟩
  · rintro ⟨a, ha, b, hb, hne, he⟩; exact ⟨a, ha, b, hb, he, hne⟩

theorem jobCollides_iff (s : State) (f : Format) : jobCollides s f = true ↔
    ∃ q ∈ jobPositions s f, ∃ q' ∈ jobPositions s f,
      (q ≠ q' ∧ dstAddr s f q = dstAddr s f q') ∨ dstAddr s f q = srcAddr s (select f q') := by
  have h1 : (writeSet s f).length < (jobPositions s f).length ↔
      ∃ q ∈ jobPositions s f, ∃ q' ∈ jobPositions s f, q ≠ q' ∧ dstAddr s f q = dstAddr s f q' := by
    have := length_addrSet_lt_iff ((jobPositions s f).map (dstAddr s f))
    rw [List.length_map] at this
    exact this.trans (not_nodup_map_iff (nodup_positions f _ _) _)
  simp only [jobCollides, Bool.or_eq_true, decide_eq_true_eq, List.any_eq_true, List.contains_iff_mem, h1,
    mem_writeSet, mem_readSet]
  constructor
  · rintro (⟨q, hq, q', hq', h⟩ | ⟨a, ⟨q, hq, rfl⟩, q', hq', he⟩)
    · exact ⟨q, hq, q', hq', .inl h⟩
    · exact ⟨q, hq, q', hq', .inr he⟩
  · rintro ⟨q, hq, q', hq', h | h⟩
    · exact .inl ⟨q, hq, q', hq', h⟩
    · exact .inr ⟨_, ⟨q, hq, rfl⟩, q', hq', h⟩

/-- A job is NORMAL exactly when it meets no bus error and does not collide. -/
theorem jobKind_eq_normal_iff (s : State) (f : Format) :
    jobKind s f = .normal ↔ jobBusError s f = false ∧ jobCollides s f = false := by
  unfold jobKind
  cases jobBusError s f <;> cases jobCollides s f <;> simp

/-- In a NORMAL job two write positions have two addresses. -/
theorem dstAddr_injOn {s : State} {f : Format} (h : jobKind s f = .normal) {q q' : Pos}
    (hq : q ∈ jobPositions s f) (hq' : q' ∈ jobPositions s f) (he : dstAddr s f q = dstAddr s f q') : q = q' := by
  by_contra hne
  have := (jobCollides_iff s f).2 ⟨q, hq, q', hq', .inl ⟨hne, he⟩⟩
  simp [((jobKind_eq_normal_iff s f).1 h).2] at this

/-- In a NORMAL job no write position's address is a selected source. -/
theorem dstAddr_ne_srcAddr {s : State} {f : Format} (h : jobKind s f = .normal) {q q' : Pos}
    (hq : q ∈ jobPositions s f) (hq' : q' ∈ jobPositions s f) : dstAddr s f q ≠ srcAddr s (select f q') := by
  intro he
  have := (jobCollides_iff s f).2 ⟨q, hq, q', hq', .inr he⟩
  simp [((jobKind_eq_normal_iff s f).1 h).2] at this

/-! ## What is pending at acceptance -/

theorem cellGet_map_of_injOn {l : List Pos} {g : Pos → Nat} {v : Pos → Byte}
    (hg : ∀ q ∈ l, ∀ q' ∈ l, g q = g q' → q = q') {q : Pos} (hq : q ∈ l) :
    cellGet (l.map fun q => (g q, v q)) (g q) = some (v q) := by
  induction l with
  | nil => simp at hq
  | cons d rest ih =>
    by_cases he : g d = g q
    · have := hg d (List.mem_cons_self ..) q hq he
      simp [cellGet, this]
    · rcases List.mem_cons.1 hq with rfl | hr
      · exact absurd rfl he
      · simp only [List.map_cons, cellGet, he, if_false]
        exact ih (fun a ha b hb => hg a (List.mem_cons_of_mem _ ha) b (List.mem_cons_of_mem _ hb)) hr

/-- A NORMAL job has the selected sample pending at every write position. -/
theorem jobBytes_at {s : State} {f : Format} (h : jobKind s f = .normal) {q : Pos} (hq : q ∈ jobPositions s f) :
    cellGet (jobBytes s f) (dstAddr s f q) = some (sampleAt s (select f q)) := by
  have hj : jobBytes s f = selectedCells s f := by simp [jobBytes, h]
  rw [hj, selectedCells, cellGet_cellSetAll,
    cellGet_map_of_injOn (fun a ha b hb => dstAddr_injOn h ha hb) hq]
  rfl

/-- What is pending at acceptance are the addresses of the write set, for a job of any kind. -/
theorem keys_jobBytes (s : State) (f : Format) : ∀ a, a ∈ (jobBytes s f).map Prod.fst ↔ a ∈ writeSet s f := by
  intro a
  unfold jobBytes
  split
  · rw [selectedCells, mem_keys_cellSetAll, mem_writeSet]
    simp [eq_comm]
  · rw [keys_freeCells]
  · rw [keys_freeCells]

theorem wf_freeCells {l : List Nat} (hl : l.Pairwise (· < ·)) (hb : ∀ a ∈ l, a < 2 ^ 32) (n : Nat) :
    Memory.wf (freeCells n l) := by
  refine ⟨by rw [keys_freeCells]; exact hl, fun c hc => ?_⟩
  have : c.1 ∈ (freeCells n l).map Prod.fst := List.mem_map_of_mem hc
  rw [keys_freeCells] at this
  exact hb _ this

/-- What is pending at acceptance is in canonical form. -/
theorem wf_jobBytes (s : State) (f : Format) : Memory.wf (jobBytes s f) := by
  unfold jobBytes
  split
  · refine Memory.wf_cellSetAll (by simp [Memory.wf]) ?_
    intro c hc
    simp only [List.mem_map] at hc
    obtain ⟨q, -, rfl⟩ := hc
    exact dstAddr_lt s f q
  · exact wf_freeCells (rising_writeSet s f) (fun a => writeSet_lt s f) _
  · exact wf_freeCells (rising_writeSet s f) (fun a => writeSet_lt s f) _

theorem isSome_cellGet_iff (m : List Host.Cell) (a : Nat) :
    (cellGet m a).isSome = true ↔ a ∈ m.map Prod.fst := by
  rw [← not_iff_not, ← cellGet_eq_none_iff]
  simp

/-- The addresses pending at acceptance are the write set itself. -/
theorem keys_jobBytes_eq (s : State) (f : Format) : (jobBytes s f).map Prod.fst = writeSet s f := by
  have hw := (wf_jobBytes s f).1
  have hr := rising_writeSet s f
  refine List.Perm.eq_of_pairwise (le := (· < ·)) (fun a b _ _ h1 h2 => by omega) hw hr ?_
  rw [List.perm_ext_iff_of_nodup (hw.imp fun h => Nat.ne_of_lt h) (hr.imp fun h => Nat.ne_of_lt h)]
  exact keys_jobBytes s f

/-- What is pending at acceptance in a NORMAL job, read back. -/
theorem jobBytes_normal {s : State} {f : Format} (h : jobKind s f = .normal) {a : Nat} {v : Byte}
    (hv : cellGet (jobBytes s f) a = some v) :
    ∃ q ∈ jobPositions s f, a = dstAddr s f q ∧ v = sampleAt s (select f q) := by
  have ha : a ∈ writeSet s f := by
    rw [← keys_jobBytes, ← isSome_cellGet_iff, hv]; rfl
  obtain ⟨q, hq, rfl⟩ := (mem_writeSet s f a).1 ha
  refine ⟨q, hq, rfl, ?_⟩
  rw [jobBytes_at h hq] at hv
  exact (Option.some.inj hv).symm

/-! ## What a job depends on -/

/-- The registers a job reads (40_commands.md R85), and the platform. -/
structure SameGeometry (s t : State) : Prop where
  src : ∀ c, t.src c = s.src c
  dst : ∀ p, t.dst p = s.dst p
  busErrors : t.busErrors = s.busErrors

theorem SameGeometry.imageW {s t : State} (h : SameGeometry s t) : t.imageW = s.imageW := by
  have := h.src 0; simp only [State.src] at this; simp [State.imageW, this]

theorem SameGeometry.imageH {s t : State} (h : SameGeometry s t) : t.imageH = s.imageH := by
  have := h.src 0; simp only [State.src] at this; simp [State.imageH, this]

theorem SameGeometry.jobPositions {s t : State} (h : SameGeometry s t) (f : Format) :
    jobPositions t f = jobPositions s f := by
  simp [Machine.jobPositions, h.imageW, h.imageH]

theorem SameGeometry.dstAddr {s t : State} (h : SameGeometry s t) (f : Format) (q : Pos) :
    dstAddr t f q = dstAddr s f q := by simp [Machine.dstAddr, h.dst]

theorem SameGeometry.srcAddr {s t : State} (h : SameGeometry s t) (q : Sample) :
    srcAddr t q = srcAddr s q := by simp [Machine.srcAddr, h.src]

theorem SameGeometry.writeSet {s t : State} (h : SameGeometry s t) (f : Format) : writeSet t f = writeSet s f := by
  have : Machine.dstAddr t f = Machine.dstAddr s f := funext fun q => h.dstAddr f q
  simp [Machine.writeSet, h.jobPositions, this]

theorem SameGeometry.readSet {s t : State} (h : SameGeometry s t) (f : Format) : readSet t f = readSet s f := by
  have : Machine.srcAddr t = Machine.srcAddr s := funext h.srcAddr
  simp [Machine.readSet, h.jobPositions, this]

theorem SameGeometry.jobKind {s t : State} (h : SameGeometry s t) (f : Format) : jobKind t f = jobKind s f := by
  have hb : busError t = busError s := by funext a; simp [Machine.busError, h.busErrors]
  simp [Machine.jobKind, jobBusError, jobCollides, h.writeSet, h.readSet, h.jobPositions, hb]

end Sys2Proof.Machine
end

