-- ==== Sys2Proof/Laws/State.lean ====
section
/-! SUPPORT. One lemma per field of State per named update, so that no proof unfolds a record update: what `fail`,
`acknowledge`, `writeMem`, `landCell`, `settleWrites`, `resetRegisters`, `startJob`, `engineWrite`, `collideJob`, the slot updates,
`engineComplete`, `abandonJob` and `resetBlock` leave in each field; and what the slot accessors read. -/

namespace Sys2Proof.Machine

/-! ## Slots -/

theorem src_setSrc (s : State) (c e : Fin 4) (d : Slot) : (s.setSrc c d).src e = if c = e then d else s.src e := by
  fin_cases c <;> fin_cases e <;> rfl

theorem dst_setDst (s : State) (p e : Fin 3) (d : Slot) : (s.setDst p d).dst e = if p = e then d else s.dst e := by
  fin_cases p <;> fin_cases e <;> rfl

@[simp] theorem dst_setSrc (s : State) (c : Fin 4) (e : Fin 3) (d : Slot) : (s.setSrc c d).dst e = s.dst e := by
  fin_cases c <;> fin_cases e <;> rfl

@[simp] theorem src_setDst (s : State) (p : Fin 3) (e : Fin 4) (d : Slot) : (s.setDst p d).src e = s.src e := by
  fin_cases p <;> fin_cases e <;> rfl

@[simp] theorem src_zero (s : State) : s.src 0 = s.src0 := rfl
@[simp] theorem src_one (s : State) : s.src 1 = s.src1 := rfl
@[simp] theorem src_two (s : State) : s.src 2 = s.src2 := rfl
@[simp] theorem src_three (s : State) : s.src 3 = s.src3 := rfl
@[simp] theorem dst_zero (s : State) : s.dst 0 = s.dst0 := rfl
@[simp] theorem dst_one (s : State) : s.dst 1 = s.dst1 := rfl
@[simp] theorem dst_two (s : State) : s.dst 2 = s.dst2 := rfl

/-! ## Updates -/

@[simp] theorem fail_statusState (e : ErrCode) (s : State) : (fail e s).statusState = s.statusState := rfl
@[simp] theorem fail_statusErr (e : ErrCode) (s : State) : (fail e s).statusErr = e.code := rfl
@[simp] theorem fail_intStatus (e : ErrCode) (s : State) : (fail e s).intStatus = s.intStatus ||| errorBit := rfl
@[simp] theorem fail_intEnable (e : ErrCode) (s : State) : (fail e s).intEnable = s.intEnable := rfl
@[simp] theorem fail_format (e : ErrCode) (s : State) : (fail e s).format = s.format := rfl
@[simp] theorem fail_srcCount (e : ErrCode) (s : State) : (fail e s).srcCount = s.srcCount := rfl
@[simp] theorem fail_dstCount (e : ErrCode) (s : State) : (fail e s).dstCount = s.dstCount := rfl
@[simp] theorem fail_src0 (e : ErrCode) (s : State) : (fail e s).src0 = s.src0 := rfl
@[simp] theorem fail_src1 (e : ErrCode) (s : State) : (fail e s).src1 = s.src1 := rfl
@[simp] theorem fail_src2 (e : ErrCode) (s : State) : (fail e s).src2 = s.src2 := rfl
@[simp] theorem fail_src3 (e : ErrCode) (s : State) : (fail e s).src3 = s.src3 := rfl
@[simp] theorem fail_dst0 (e : ErrCode) (s : State) : (fail e s).dst0 = s.dst0 := rfl
@[simp] theorem fail_dst1 (e : ErrCode) (s : State) : (fail e s).dst1 = s.dst1 := rfl
@[simp] theorem fail_dst2 (e : ErrCode) (s : State) : (fail e s).dst2 = s.dst2 := rfl
@[simp] theorem fail_job (e : ErrCode) (s : State) : (fail e s).job = s.job := rfl
@[simp] theorem fail_mem (e : ErrCode) (s : State) : (fail e s).mem = s.mem := rfl
@[simp] theorem fail_inFlight (e : ErrCode) (s : State) : (fail e s).inFlight = s.inFlight := rfl
@[simp] theorem fail_rstN (e : ErrCode) (s : State) : (fail e s).rstN = s.rstN := rfl
@[simp] theorem fail_busData (e : ErrCode) (s : State) : (fail e s).busData = s.busData := rfl
@[simp] theorem fail_memData (e : ErrCode) (s : State) : (fail e s).memData = s.memData := rfl
@[simp] theorem fail_moves (e : ErrCode) (s : State) : (fail e s).moves = s.moves := rfl
@[simp] theorem fail_draws (e : ErrCode) (s : State) : (fail e s).draws = s.draws := rfl
@[simp] theorem fail_busErrors (e : ErrCode) (s : State) : (fail e s).busErrors = s.busErrors := rfl

@[simp] theorem acknowledge_statusState (d : Word) (s : State) : (acknowledge d s).statusState = s.statusState := rfl
@[simp] theorem acknowledge_statusErr (d : Word) (s : State) : (acknowledge d s).statusErr = s.statusErr := rfl
@[simp] theorem acknowledge_intStatus (d : Word) (s : State) : (acknowledge d s).intStatus = clearIntStatus s.intStatus d := rfl
@[simp] theorem acknowledge_intEnable (d : Word) (s : State) : (acknowledge d s).intEnable = s.intEnable := rfl
@[simp] theorem acknowledge_format (d : Word) (s : State) : (acknowledge d s).format = s.format := rfl
@[simp] theorem acknowledge_srcCount (d : Word) (s : State) : (acknowledge d s).srcCount = s.srcCount := rfl
@[simp] theorem acknowledge_dstCount (d : Word) (s : State) : (acknowledge d s).dstCount = s.dstCount := rfl
@[simp] theorem acknowledge_src0 (d : Word) (s : State) : (acknowledge d s).src0 = s.src0 := rfl
@[simp] theorem acknowledge_src1 (d : Word) (s : State) : (acknowledge d s).src1 = s.src1 := rfl
@[simp] theorem acknowledge_src2 (d : Word) (s : State) : (acknowledge d s).src2 = s.src2 := rfl
@[simp] theorem acknowledge_src3 (d : Word) (s : State) : (acknowledge d s).src3 = s.src3 := rfl
@[simp] theorem acknowledge_dst0 (d : Word) (s : State) : (acknowledge d s).dst0 = s.dst0 := rfl
@[simp] theorem acknowledge_dst1 (d : Word) (s : State) : (acknowledge d s).dst1 = s.dst1 := rfl
@[simp] theorem acknowledge_dst2 (d : Word) (s : State) : (acknowledge d s).dst2 = s.dst2 := rfl
@[simp] theorem acknowledge_job (d : Word) (s : State) : (acknowledge d s).job = s.job := rfl
@[simp] theorem acknowledge_mem (d : Word) (s : State) : (acknowledge d s).mem = s.mem := rfl
@[simp] theorem acknowledge_inFlight (d : Word) (s : State) : (acknowledge d s).inFlight = s.inFlight := rfl
@[simp] theorem acknowledge_rstN (d : Word) (s : State) : (acknowledge d s).rstN = s.rstN := rfl
@[simp] theorem acknowledge_busData (d : Word) (s : State) : (acknowledge d s).busData = s.busData := rfl
@[simp] theorem acknowledge_memData (d : Word) (s : State) : (acknowledge d s).memData = s.memData := rfl
@[simp] theorem acknowledge_moves (d : Word) (s : State) : (acknowledge d s).moves = s.moves := rfl
@[simp] theorem acknowledge_draws (d : Word) (s : State) : (acknowledge d s).draws = s.draws := rfl
@[simp] theorem acknowledge_busErrors (d : Word) (s : State) : (acknowledge d s).busErrors = s.busErrors := rfl

@[simp] theorem writeMem_statusState (s : State) (a : Nat) (v : Byte) : (writeMem s a v).statusState = s.statusState := rfl
@[simp] theorem writeMem_statusErr (s : State) (a : Nat) (v : Byte) : (writeMem s a v).statusErr = s.statusErr := rfl
@[simp] theorem writeMem_intStatus (s : State) (a : Nat) (v : Byte) : (writeMem s a v).intStatus = s.intStatus := rfl
@[simp] theorem writeMem_intEnable (s : State) (a : Nat) (v : Byte) : (writeMem s a v).intEnable = s.intEnable := rfl
@[simp] theorem writeMem_format (s : State) (a : Nat) (v : Byte) : (writeMem s a v).format = s.format := rfl
@[simp] theorem writeMem_srcCount (s : State) (a : Nat) (v : Byte) : (writeMem s a v).srcCount = s.srcCount := rfl
@[simp] theorem writeMem_dstCount (s : State) (a : Nat) (v : Byte) : (writeMem s a v).dstCount = s.dstCount := rfl
@[simp] theorem writeMem_src0 (s : State) (a : Nat) (v : Byte) : (writeMem s a v).src0 = s.src0 := rfl
@[simp] theorem writeMem_src1 (s : State) (a : Nat) (v : Byte) : (writeMem s a v).src1 = s.src1 := rfl
@[simp] theorem writeMem_src2 (s : State) (a : Nat) (v : Byte) : (writeMem s a v).src2 = s.src2 := rfl
@[simp] theorem writeMem_src3 (s : State) (a : Nat) (v : Byte) : (writeMem s a v).src3 = s.src3 := rfl
@[simp] theorem writeMem_dst0 (s : State) (a : Nat) (v : Byte) : (writeMem s a v).dst0 = s.dst0 := rfl
@[simp] theorem writeMem_dst1 (s : State) (a : Nat) (v : Byte) : (writeMem s a v).dst1 = s.dst1 := rfl
@[simp] theorem writeMem_dst2 (s : State) (a : Nat) (v : Byte) : (writeMem s a v).dst2 = s.dst2 := rfl
@[simp] theorem writeMem_job (s : State) (a : Nat) (v : Byte) : (writeMem s a v).job = s.job := rfl
@[simp] theorem writeMem_mem (s : State) (a : Nat) (v : Byte) : (writeMem s a v).mem = cellSet s.mem a v := rfl
@[simp] theorem writeMem_inFlight (s : State) (a : Nat) (v : Byte) : (writeMem s a v).inFlight = s.inFlight := rfl
@[simp] theorem writeMem_rstN (s : State) (a : Nat) (v : Byte) : (writeMem s a v).rstN = s.rstN := rfl
@[simp] theorem writeMem_busData (s : State) (a : Nat) (v : Byte) : (writeMem s a v).busData = s.busData := rfl
@[simp] theorem writeMem_memData (s : State) (a : Nat) (v : Byte) : (writeMem s a v).memData = s.memData := rfl
@[simp] theorem writeMem_moves (s : State) (a : Nat) (v : Byte) : (writeMem s a v).moves = s.moves := rfl
@[simp] theorem writeMem_draws (s : State) (a : Nat) (v : Byte) : (writeMem s a v).draws = s.draws := rfl
@[simp] theorem writeMem_busErrors (s : State) (a : Nat) (v : Byte) : (writeMem s a v).busErrors = s.busErrors := rfl

@[simp] theorem landCell_statusState (s : State) (c : Host.Cell) : (landCell s c).statusState = s.statusState := rfl
@[simp] theorem landCell_statusErr (s : State) (c : Host.Cell) : (landCell s c).statusErr = s.statusErr := rfl
@[simp] theorem landCell_intStatus (s : State) (c : Host.Cell) : (landCell s c).intStatus = s.intStatus := rfl
@[simp] theorem landCell_intEnable (s : State) (c : Host.Cell) : (landCell s c).intEnable = s.intEnable := rfl
@[simp] theorem landCell_format (s : State) (c : Host.Cell) : (landCell s c).format = s.format := rfl
@[simp] theorem landCell_srcCount (s : State) (c : Host.Cell) : (landCell s c).srcCount = s.srcCount := rfl
@[simp] theorem landCell_dstCount (s : State) (c : Host.Cell) : (landCell s c).dstCount = s.dstCount := rfl
@[simp] theorem landCell_src0 (s : State) (c : Host.Cell) : (landCell s c).src0 = s.src0 := rfl
@[simp] theorem landCell_src1 (s : State) (c : Host.Cell) : (landCell s c).src1 = s.src1 := rfl
@[simp] theorem landCell_src2 (s : State) (c : Host.Cell) : (landCell s c).src2 = s.src2 := rfl
@[simp] theorem landCell_src3 (s : State) (c : Host.Cell) : (landCell s c).src3 = s.src3 := rfl
@[simp] theorem landCell_dst0 (s : State) (c : Host.Cell) : (landCell s c).dst0 = s.dst0 := rfl
@[simp] theorem landCell_dst1 (s : State) (c : Host.Cell) : (landCell s c).dst1 = s.dst1 := rfl
@[simp] theorem landCell_dst2 (s : State) (c : Host.Cell) : (landCell s c).dst2 = s.dst2 := rfl
@[simp] theorem landCell_job (s : State) (c : Host.Cell) : (landCell s c).job = s.job := rfl
@[simp] theorem landCell_mem (s : State) (c : Host.Cell) : (landCell s c).mem = cellSet s.mem c.1 c.2 := rfl
@[simp] theorem landCell_inFlight (s : State) (c : Host.Cell) : (landCell s c).inFlight = cellErase s.inFlight c.1 := rfl
@[simp] theorem landCell_rstN (s : State) (c : Host.Cell) : (landCell s c).rstN = s.rstN := rfl
@[simp] theorem landCell_busData (s : State) (c : Host.Cell) : (landCell s c).busData = s.busData := rfl
@[simp] theorem landCell_memData (s : State) (c : Host.Cell) : (landCell s c).memData = s.memData := rfl
@[simp] theorem landCell_moves (s : State) (c : Host.Cell) : (landCell s c).moves = s.moves := rfl
@[simp] theorem landCell_draws (s : State) (c : Host.Cell) : (landCell s c).draws = s.draws := rfl
@[simp] theorem landCell_busErrors (s : State) (c : Host.Cell) : (landCell s c).busErrors = s.busErrors := rfl

@[simp] theorem settleWrites_statusState (s : State) : (settleWrites s).statusState = s.statusState := rfl
@[simp] theorem settleWrites_statusErr (s : State) : (settleWrites s).statusErr = s.statusErr := rfl
@[simp] theorem settleWrites_intStatus (s : State) : (settleWrites s).intStatus = s.intStatus := rfl
@[simp] theorem settleWrites_intEnable (s : State) : (settleWrites s).intEnable = s.intEnable := rfl
@[simp] theorem settleWrites_format (s : State) : (settleWrites s).format = s.format := rfl
@[simp] theorem settleWrites_srcCount (s : State) : (settleWrites s).srcCount = s.srcCount := rfl
@[simp] theorem settleWrites_dstCount (s : State) : (settleWrites s).dstCount = s.dstCount := rfl
@[simp] theorem settleWrites_src0 (s : State) : (settleWrites s).src0 = s.src0 := rfl
@[simp] theorem settleWrites_src1 (s : State) : (settleWrites s).src1 = s.src1 := rfl
@[simp] theorem settleWrites_src2 (s : State) : (settleWrites s).src2 = s.src2 := rfl
@[simp] theorem settleWrites_src3 (s : State) : (settleWrites s).src3 = s.src3 := rfl
@[simp] theorem settleWrites_dst0 (s : State) : (settleWrites s).dst0 = s.dst0 := rfl
@[simp] theorem settleWrites_dst1 (s : State) : (settleWrites s).dst1 = s.dst1 := rfl
@[simp] theorem settleWrites_dst2 (s : State) : (settleWrites s).dst2 = s.dst2 := rfl
@[simp] theorem settleWrites_job (s : State) : (settleWrites s).job = s.job := rfl
@[simp] theorem settleWrites_mem (s : State) : (settleWrites s).mem = s.mem := rfl
@[simp] theorem settleWrites_inFlight (s : State) : (settleWrites s).inFlight = [] := rfl
@[simp] theorem settleWrites_rstN (s : State) : (settleWrites s).rstN = s.rstN := rfl
@[simp] theorem settleWrites_busData (s : State) : (settleWrites s).busData = s.busData := rfl
@[simp] theorem settleWrites_memData (s : State) : (settleWrites s).memData = s.memData := rfl
@[simp] theorem settleWrites_moves (s : State) : (settleWrites s).moves = s.moves := rfl
@[simp] theorem settleWrites_draws (s : State) : (settleWrites s).draws = s.draws := rfl
@[simp] theorem settleWrites_busErrors (s : State) : (settleWrites s).busErrors = s.busErrors := rfl

@[simp] theorem resetRegisters_statusState (s : State) : (resetRegisters s).statusState = 0#2 := rfl
@[simp] theorem resetRegisters_statusErr (s : State) : (resetRegisters s).statusErr = 0#4 := rfl
@[simp] theorem resetRegisters_intStatus (s : State) : (resetRegisters s).intStatus = 0#2 := rfl
@[simp] theorem resetRegisters_intEnable (s : State) : (resetRegisters s).intEnable = 0#2 := rfl
@[simp] theorem resetRegisters_format (s : State) : (resetRegisters s).format = 0#4 := rfl
@[simp] theorem resetRegisters_srcCount (s : State) : (resetRegisters s).srcCount = 0#3 := rfl
@[simp] theorem resetRegisters_dstCount (s : State) : (resetRegisters s).dstCount = 0#3 := rfl
@[simp] theorem resetRegisters_src0 (s : State) : (resetRegisters s).src0 = Slot.reset := rfl
@[simp] theorem resetRegisters_src1 (s : State) : (resetRegisters s).src1 = Slot.reset := rfl
@[simp] theorem resetRegisters_src2 (s : State) : (resetRegisters s).src2 = Slot.reset := rfl
@[simp] theorem resetRegisters_src3 (s : State) : (resetRegisters s).src3 = Slot.reset := rfl
@[simp] theorem resetRegisters_dst0 (s : State) : (resetRegisters s).dst0 = Slot.reset := rfl
@[simp] theorem resetRegisters_dst1 (s : State) : (resetRegisters s).dst1 = Slot.reset := rfl
@[simp] theorem resetRegisters_dst2 (s : State) : (resetRegisters s).dst2 = Slot.reset := rfl
@[simp] theorem resetRegisters_job (s : State) : (resetRegisters s).job = s.job := rfl
@[simp] theorem resetRegisters_mem (s : State) : (resetRegisters s).mem = s.mem := rfl
@[simp] theorem resetRegisters_inFlight (s : State) : (resetRegisters s).inFlight = s.inFlight := rfl
@[simp] theorem resetRegisters_rstN (s : State) : (resetRegisters s).rstN = s.rstN := rfl
@[simp] theorem resetRegisters_busData (s : State) : (resetRegisters s).busData = s.busData := rfl
@[simp] theorem resetRegisters_memData (s : State) : (resetRegisters s).memData = s.memData := rfl
@[simp] theorem resetRegisters_moves (s : State) : (resetRegisters s).moves = s.moves := rfl
@[simp] theorem resetRegisters_draws (s : State) : (resetRegisters s).draws = s.draws := rfl
@[simp] theorem resetRegisters_busErrors (s : State) : (resetRegisters s).busErrors = s.busErrors := rfl

@[simp] theorem startJob_statusState (f : Format) (s : State) : (startJob f s).statusState = busy := rfl
@[simp] theorem startJob_statusErr (f : Format) (s : State) : (startJob f s).statusErr = 0#4 := rfl
@[simp] theorem startJob_intStatus (f : Format) (s : State) : (startJob f s).intStatus = s.intStatus := rfl
@[simp] theorem startJob_intEnable (f : Format) (s : State) : (startJob f s).intEnable = s.intEnable := rfl
@[simp] theorem startJob_format (f : Format) (s : State) : (startJob f s).format = s.format := rfl
@[simp] theorem startJob_srcCount (f : Format) (s : State) : (startJob f s).srcCount = s.srcCount := rfl
@[simp] theorem startJob_dstCount (f : Format) (s : State) : (startJob f s).dstCount = s.dstCount := rfl
@[simp] theorem startJob_src0 (f : Format) (s : State) : (startJob f s).src0 = s.src0 := rfl
@[simp] theorem startJob_src1 (f : Format) (s : State) : (startJob f s).src1 = s.src1 := rfl
@[simp] theorem startJob_src2 (f : Format) (s : State) : (startJob f s).src2 = s.src2 := rfl
@[simp] theorem startJob_src3 (f : Format) (s : State) : (startJob f s).src3 = s.src3 := rfl
@[simp] theorem startJob_dst0 (f : Format) (s : State) : (startJob f s).dst0 = s.dst0 := rfl
@[simp] theorem startJob_dst1 (f : Format) (s : State) : (startJob f s).dst1 = s.dst1 := rfl
@[simp] theorem startJob_dst2 (f : Format) (s : State) : (startJob f s).dst2 = s.dst2 := rfl
@[simp] theorem startJob_job (f : Format) (s : State) : (startJob f s).job = some (newJob s f) := rfl
@[simp] theorem startJob_mem (f : Format) (s : State) : (startJob f s).mem = s.mem := rfl
@[simp] theorem startJob_inFlight (f : Format) (s : State) : (startJob f s).inFlight = s.inFlight := rfl
@[simp] theorem startJob_rstN (f : Format) (s : State) : (startJob f s).rstN = s.rstN := rfl
@[simp] theorem startJob_busData (f : Format) (s : State) : (startJob f s).busData = s.busData := rfl
@[simp] theorem startJob_memData (f : Format) (s : State) : (startJob f s).memData = s.memData := rfl
@[simp] theorem startJob_moves (f : Format) (s : State) : (startJob f s).moves = s.moves := rfl
@[simp] theorem startJob_draws (f : Format) (s : State) : (startJob f s).draws = s.draws + jobDraws s f := rfl
@[simp] theorem startJob_busErrors (f : Format) (s : State) : (startJob f s).busErrors = s.busErrors := rfl

@[simp] theorem engineWrite_statusState (s : State) (j : Job) (a : Nat) (v : Byte) : (engineWrite s j a v).statusState = s.statusState := rfl
@[simp] theorem engineWrite_statusErr (s : State) (j : Job) (a : Nat) (v : Byte) : (engineWrite s j a v).statusErr = s.statusErr := rfl
@[simp] theorem engineWrite_intStatus (s : State) (j : Job) (a : Nat) (v : Byte) : (engineWrite s j a v).intStatus = s.intStatus := rfl
@[simp] theorem engineWrite_intEnable (s : State) (j : Job) (a : Nat) (v : Byte) : (engineWrite s j a v).intEnable = s.intEnable := rfl
@[simp] theorem engineWrite_format (s : State) (j : Job) (a : Nat) (v : Byte) : (engineWrite s j a v).format = s.format := rfl
@[simp] theorem engineWrite_srcCount (s : State) (j : Job) (a : Nat) (v : Byte) : (engineWrite s j a v).srcCount = s.srcCount := rfl
@[simp] theorem engineWrite_dstCount (s : State) (j : Job) (a : Nat) (v : Byte) : (engineWrite s j a v).dstCount = s.dstCount := rfl
@[simp] theorem engineWrite_src0 (s : State) (j : Job) (a : Nat) (v : Byte) : (engineWrite s j a v).src0 = s.src0 := rfl
@[simp] theorem engineWrite_src1 (s : State) (j : Job) (a : Nat) (v : Byte) : (engineWrite s j a v).src1 = s.src1 := rfl
@[simp] theorem engineWrite_src2 (s : State) (j : Job) (a : Nat) (v : Byte) : (engineWrite s j a v).src2 = s.src2 := rfl
@[simp] theorem engineWrite_src3 (s : State) (j : Job) (a : Nat) (v : Byte) : (engineWrite s j a v).src3 = s.src3 := rfl
@[simp] theorem engineWrite_dst0 (s : State) (j : Job) (a : Nat) (v : Byte) : (engineWrite s j a v).dst0 = s.dst0 := rfl
@[simp] theorem engineWrite_dst1 (s : State) (j : Job) (a : Nat) (v : Byte) : (engineWrite s j a v).dst1 = s.dst1 := rfl
@[simp] theorem engineWrite_dst2 (s : State) (j : Job) (a : Nat) (v : Byte) : (engineWrite s j a v).dst2 = s.dst2 := rfl
@[simp] theorem engineWrite_job (s : State) (j : Job) (a : Nat) (v : Byte) : (engineWrite s j a v).job = some { j with pending := cellErase j.pending a } := rfl
@[simp] theorem engineWrite_mem (s : State) (j : Job) (a : Nat) (v : Byte) : (engineWrite s j a v).mem = cellSet s.mem a v := rfl
@[simp] theorem engineWrite_inFlight (s : State) (j : Job) (a : Nat) (v : Byte) : (engineWrite s j a v).inFlight = s.inFlight := rfl
@[simp] theorem engineWrite_rstN (s : State) (j : Job) (a : Nat) (v : Byte) : (engineWrite s j a v).rstN = s.rstN := rfl
@[simp] theorem engineWrite_busData (s : State) (j : Job) (a : Nat) (v : Byte) : (engineWrite s j a v).busData = s.busData := rfl
@[simp] theorem engineWrite_memData (s : State) (j : Job) (a : Nat) (v : Byte) : (engineWrite s j a v).memData = s.memData := rfl
@[simp] theorem engineWrite_moves (s : State) (j : Job) (a : Nat) (v : Byte) : (engineWrite s j a v).moves = s.moves := rfl
@[simp] theorem engineWrite_draws (s : State) (j : Job) (a : Nat) (v : Byte) : (engineWrite s j a v).draws = s.draws := rfl
@[simp] theorem engineWrite_busErrors (s : State) (j : Job) (a : Nat) (v : Byte) : (engineWrite s j a v).busErrors = s.busErrors := rfl

@[simp] theorem collideJob_statusState (s : State) (j : Job) : (collideJob s j).statusState = s.statusState := rfl
@[simp] theorem collideJob_statusErr (s : State) (j : Job) : (collideJob s j).statusErr = s.statusErr := rfl
@[simp] theorem collideJob_intStatus (s : State) (j : Job) : (collideJob s j).intStatus = s.intStatus := rfl
@[simp] theorem collideJob_intEnable (s : State) (j : Job) : (collideJob s j).intEnable = s.intEnable := rfl
@[simp] theorem collideJob_format (s : State) (j : Job) : (collideJob s j).format = s.format := rfl
@[simp] theorem collideJob_srcCount (s : State) (j : Job) : (collideJob s j).srcCount = s.srcCount := rfl
@[simp] theorem collideJob_dstCount (s : State) (j : Job) : (collideJob s j).dstCount = s.dstCount := rfl
@[simp] theorem collideJob_src0 (s : State) (j : Job) : (collideJob s j).src0 = s.src0 := rfl
@[simp] theorem collideJob_src1 (s : State) (j : Job) : (collideJob s j).src1 = s.src1 := rfl
@[simp] theorem collideJob_src2 (s : State) (j : Job) : (collideJob s j).src2 = s.src2 := rfl
@[simp] theorem collideJob_src3 (s : State) (j : Job) : (collideJob s j).src3 = s.src3 := rfl
@[simp] theorem collideJob_dst0 (s : State) (j : Job) : (collideJob s j).dst0 = s.dst0 := rfl
@[simp] theorem collideJob_dst1 (s : State) (j : Job) : (collideJob s j).dst1 = s.dst1 := rfl
@[simp] theorem collideJob_dst2 (s : State) (j : Job) : (collideJob s j).dst2 = s.dst2 := rfl
@[simp] theorem collideJob_job (s : State) (j : Job) : (collideJob s j).job = some { j with kind := .collide, pending := freeCells s.draws j.wset } := rfl
@[simp] theorem collideJob_mem (s : State) (j : Job) : (collideJob s j).mem = s.mem := rfl
@[simp] theorem collideJob_inFlight (s : State) (j : Job) : (collideJob s j).inFlight = s.inFlight := rfl
@[simp] theorem collideJob_rstN (s : State) (j : Job) : (collideJob s j).rstN = s.rstN := rfl
@[simp] theorem collideJob_busData (s : State) (j : Job) : (collideJob s j).busData = s.busData := rfl
@[simp] theorem collideJob_memData (s : State) (j : Job) : (collideJob s j).memData = s.memData := rfl
@[simp] theorem collideJob_moves (s : State) (j : Job) : (collideJob s j).moves = s.moves := rfl
@[simp] theorem collideJob_draws (s : State) (j : Job) : (collideJob s j).draws = s.draws + j.wset.length := rfl
@[simp] theorem collideJob_busErrors (s : State) (j : Job) : (collideJob s j).busErrors = s.busErrors := rfl

@[simp] theorem setSrc_statusState (s : State) (c : Fin 4) (d : Slot) : (s.setSrc c d).statusState = s.statusState := by
  fin_cases c <;> rfl
@[simp] theorem setSrc_statusErr (s : State) (c : Fin 4) (d : Slot) : (s.setSrc c d).statusErr = s.statusErr := by
  fin_cases c <;> rfl
@[simp] theorem setSrc_intStatus (s : State) (c : Fin 4) (d : Slot) : (s.setSrc c d).intStatus = s.intStatus := by
  fin_cases c <;> rfl
@[simp] theorem setSrc_intEnable (s : State) (c : Fin 4) (d : Slot) : (s.setSrc c d).intEnable = s.intEnable := by
  fin_cases c <;> rfl
@[simp] theorem setSrc_format (s : State) (c : Fin 4) (d : Slot) : (s.setSrc c d).format = s.format := by
  fin_cases c <;> rfl
@[simp] theorem setSrc_srcCount (s : State) (c : Fin 4) (d : Slot) : (s.setSrc c d).srcCount = s.srcCount := by
  fin_cases c <;> rfl
@[simp] theorem setSrc_dstCount (s : State) (c : Fin 4) (d : Slot) : (s.setSrc c d).dstCount = s.dstCount := by
  fin_cases c <;> rfl
@[simp] theorem setSrc_dst0 (s : State) (c : Fin 4) (d : Slot) : (s.setSrc c d).dst0 = s.dst0 := by
  fin_cases c <;> rfl
@[simp] theorem setSrc_dst1 (s : State) (c : Fin 4) (d : Slot) : (s.setSrc c d).dst1 = s.dst1 := by
  fin_cases c <;> rfl
@[simp] theorem setSrc_dst2 (s : State) (c : Fin 4) (d : Slot) : (s.setSrc c d).dst2 = s.dst2 := by
  fin_cases c <;> rfl
@[simp] theorem setSrc_job (s : State) (c : Fin 4) (d : Slot) : (s.setSrc c d).job = s.job := by
  fin_cases c <;> rfl
@[simp] theorem setSrc_mem (s : State) (c : Fin 4) (d : Slot) : (s.setSrc c d).mem = s.mem := by
  fin_cases c <;> rfl
@[simp] theorem setSrc_inFlight (s : State) (c : Fin 4) (d : Slot) : (s.setSrc c d).inFlight = s.inFlight := by
  fin_cases c <;> rfl
@[simp] theorem setSrc_rstN (s : State) (c : Fin 4) (d : Slot) : (s.setSrc c d).rstN = s.rstN := by
  fin_cases c <;> rfl
@[simp] theorem setSrc_busData (s : State) (c : Fin 4) (d : Slot) : (s.setSrc c d).busData = s.busData := by
  fin_cases c <;> rfl
@[simp] theorem setSrc_memData (s : State) (c : Fin 4) (d : Slot) : (s.setSrc c d).memData = s.memData := by
  fin_cases c <;> rfl
@[simp] theorem setSrc_moves (s : State) (c : Fin 4) (d : Slot) : (s.setSrc c d).moves = s.moves := by
  fin_cases c <;> rfl
@[simp] theorem setSrc_draws (s : State) (c : Fin 4) (d : Slot) : (s.setSrc c d).draws = s.draws := by
  fin_cases c <;> rfl
@[simp] theorem setSrc_busErrors (s : State) (c : Fin 4) (d : Slot) : (s.setSrc c d).busErrors = s.busErrors := by
  fin_cases c <;> rfl

@[simp] theorem setDst_statusState (s : State) (p : Fin 3) (d : Slot) : (s.setDst p d).statusState = s.statusState := by
  fin_cases p <;> rfl
@[simp] theorem setDst_statusErr (s : State) (p : Fin 3) (d : Slot) : (s.setDst p d).statusErr = s.statusErr := by
  fin_cases p <;> rfl
@[simp] theorem setDst_intStatus (s : State) (p : Fin 3) (d : Slot) : (s.setDst p d).intStatus = s.intStatus := by
  fin_cases p <;> rfl
@[simp] theorem setDst_intEnable (s : State) (p : Fin 3) (d : Slot) : (s.setDst p d).intEnable = s.intEnable := by
  fin_cases p <;> rfl
@[simp] theorem setDst_format (s : State) (p : Fin 3) (d : Slot) : (s.setDst p d).format = s.format := by
  fin_cases p <;> rfl
@[simp] theorem setDst_srcCount (s : State) (p : Fin 3) (d : Slot) : (s.setDst p d).srcCount = s.srcCount := by
  fin_cases p <;> rfl
@[simp] theorem setDst_dstCount (s : State) (p : Fin 3) (d : Slot) : (s.setDst p d).dstCount = s.dstCount := by
  fin_cases p <;> rfl
@[simp] theorem setDst_src0 (s : State) (p : Fin 3) (d : Slot) : (s.setDst p d).src0 = s.src0 := by
  fin_cases p <;> rfl
@[simp] theorem setDst_src1 (s : State) (p : Fin 3) (d : Slot) : (s.setDst p d).src1 = s.src1 := by
  fin_cases p <;> rfl
@[simp] theorem setDst_src2 (s : State) (p : Fin 3) (d : Slot) : (s.setDst p d).src2 = s.src2 := by
  fin_cases p <;> rfl
@[simp] theorem setDst_src3 (s : State) (p : Fin 3) (d : Slot) : (s.setDst p d).src3 = s.src3 := by
  fin_cases p <;> rfl
@[simp] theorem setDst_job (s : State) (p : Fin 3) (d : Slot) : (s.setDst p d).job = s.job := by
  fin_cases p <;> rfl
@[simp] theorem setDst_mem (s : State) (p : Fin 3) (d : Slot) : (s.setDst p d).mem = s.mem := by
  fin_cases p <;> rfl
@[simp] theorem setDst_inFlight (s : State) (p : Fin 3) (d : Slot) : (s.setDst p d).inFlight = s.inFlight := by
  fin_cases p <;> rfl
@[simp] theorem setDst_rstN (s : State) (p : Fin 3) (d : Slot) : (s.setDst p d).rstN = s.rstN := by
  fin_cases p <;> rfl
@[simp] theorem setDst_busData (s : State) (p : Fin 3) (d : Slot) : (s.setDst p d).busData = s.busData := by
  fin_cases p <;> rfl
@[simp] theorem setDst_memData (s : State) (p : Fin 3) (d : Slot) : (s.setDst p d).memData = s.memData := by
  fin_cases p <;> rfl
@[simp] theorem setDst_moves (s : State) (p : Fin 3) (d : Slot) : (s.setDst p d).moves = s.moves := by
  fin_cases p <;> rfl
@[simp] theorem setDst_draws (s : State) (p : Fin 3) (d : Slot) : (s.setDst p d).draws = s.draws := by
  fin_cases p <;> rfl
@[simp] theorem setDst_busErrors (s : State) (p : Fin 3) (d : Slot) : (s.setDst p d).busErrors = s.busErrors := by
  fin_cases p <;> rfl

@[simp] theorem engineComplete_intEnable (s : State) (k : JobKind) : (engineComplete s k).intEnable = s.intEnable := by cases k <;> rfl
@[simp] theorem engineComplete_format (s : State) (k : JobKind) : (engineComplete s k).format = s.format := by cases k <;> rfl
@[simp] theorem engineComplete_srcCount (s : State) (k : JobKind) : (engineComplete s k).srcCount = s.srcCount := by cases k <;> rfl
@[simp] theorem engineComplete_dstCount (s : State) (k : JobKind) : (engineComplete s k).dstCount = s.dstCount := by cases k <;> rfl
@[simp] theorem engineComplete_src0 (s : State) (k : JobKind) : (engineComplete s k).src0 = s.src0 := by cases k <;> rfl
@[simp] theorem engineComplete_src1 (s : State) (k : JobKind) : (engineComplete s k).src1 = s.src1 := by cases k <;> rfl
@[simp] theorem engineComplete_src2 (s : State) (k : JobKind) : (engineComplete s k).src2 = s.src2 := by cases k <;> rfl
@[simp] theorem engineComplete_src3 (s : State) (k : JobKind) : (engineComplete s k).src3 = s.src3 := by cases k <;> rfl
@[simp] theorem engineComplete_dst0 (s : State) (k : JobKind) : (engineComplete s k).dst0 = s.dst0 := by cases k <;> rfl
@[simp] theorem engineComplete_dst1 (s : State) (k : JobKind) : (engineComplete s k).dst1 = s.dst1 := by cases k <;> rfl
@[simp] theorem engineComplete_dst2 (s : State) (k : JobKind) : (engineComplete s k).dst2 = s.dst2 := by cases k <;> rfl
@[simp] theorem engineComplete_mem (s : State) (k : JobKind) : (engineComplete s k).mem = s.mem := by cases k <;> rfl
@[simp] theorem engineComplete_inFlight (s : State) (k : JobKind) : (engineComplete s k).inFlight = s.inFlight := by cases k <;> rfl
@[simp] theorem engineComplete_rstN (s : State) (k : JobKind) : (engineComplete s k).rstN = s.rstN := by cases k <;> rfl
@[simp] theorem engineComplete_busData (s : State) (k : JobKind) : (engineComplete s k).busData = s.busData := by cases k <;> rfl
@[simp] theorem engineComplete_memData (s : State) (k : JobKind) : (engineComplete s k).memData = s.memData := by cases k <;> rfl
@[simp] theorem engineComplete_moves (s : State) (k : JobKind) : (engineComplete s k).moves = s.moves := by cases k <;> rfl
@[simp] theorem engineComplete_draws (s : State) (k : JobKind) : (engineComplete s k).draws = s.draws := by cases k <;> rfl
@[simp] theorem engineComplete_busErrors (s : State) (k : JobKind) : (engineComplete s k).busErrors = s.busErrors := by cases k <;> rfl
@[simp] theorem engineComplete_job (s : State) (k : JobKind) : (engineComplete s k).job = none := rfl
@[simp] theorem engineComplete_statusState (s : State) (k : JobKind) : (engineComplete s k).statusState = configured := rfl

@[simp] theorem abandonJob_statusState (s : State) : (abandonJob s).statusState = s.statusState := by
  unfold abandonJob; split <;> rfl
@[simp] theorem abandonJob_statusErr (s : State) : (abandonJob s).statusErr = s.statusErr := by
  unfold abandonJob; split <;> rfl
@[simp] theorem abandonJob_intStatus (s : State) : (abandonJob s).intStatus = s.intStatus := by
  unfold abandonJob; split <;> rfl
@[simp] theorem abandonJob_intEnable (s : State) : (abandonJob s).intEnable = s.intEnable := by
  unfold abandonJob; split <;> rfl
@[simp] theorem abandonJob_format (s : State) : (abandonJob s).format = s.format := by
  unfold abandonJob; split <;> rfl
@[simp] theorem abandonJob_srcCount (s : State) : (abandonJob s).srcCount = s.srcCount := by
  unfold abandonJob; split <;> rfl
@[simp] theorem abandonJob_dstCount (s : State) : (abandonJob s).dstCount = s.dstCount := by
  unfold abandonJob; split <;> rfl
@[simp] theorem abandonJob_src0 (s : State) : (abandonJob s).src0 = s.src0 := by
  unfold abandonJob; split <;> rfl
@[simp] theorem abandonJob_src1 (s : State) : (abandonJob s).src1 = s.src1 := by
  unfold abandonJob; split <;> rfl
@[simp] theorem abandonJob_src2 (s : State) : (abandonJob s).src2 = s.src2 := by
  unfold abandonJob; split <;> rfl
@[simp] theorem abandonJob_src3 (s : State) : (abandonJob s).src3 = s.src3 := by
  unfold abandonJob; split <;> rfl
@[simp] theorem abandonJob_dst0 (s : State) : (abandonJob s).dst0 = s.dst0 := by
  unfold abandonJob; split <;> rfl
@[simp] theorem abandonJob_dst1 (s : State) : (abandonJob s).dst1 = s.dst1 := by
  unfold abandonJob; split <;> rfl
@[simp] theorem abandonJob_dst2 (s : State) : (abandonJob s).dst2 = s.dst2 := by
  unfold abandonJob; split <;> rfl
@[simp] theorem abandonJob_rstN (s : State) : (abandonJob s).rstN = s.rstN := by
  unfold abandonJob; split <;> rfl
@[simp] theorem abandonJob_busData (s : State) : (abandonJob s).busData = s.busData := by
  unfold abandonJob; split <;> rfl
@[simp] theorem abandonJob_memData (s : State) : (abandonJob s).memData = s.memData := by
  unfold abandonJob; split <;> rfl
@[simp] theorem abandonJob_moves (s : State) : (abandonJob s).moves = s.moves := by
  unfold abandonJob; split <;> rfl
@[simp] theorem abandonJob_busErrors (s : State) : (abandonJob s).busErrors = s.busErrors := by
  unfold abandonJob; split <;> rfl
@[simp] theorem abandonJob_job (s : State) : (abandonJob s).job = none := by
  unfold abandonJob; split <;> simp_all

@[simp] theorem resetBlock_job (s : State) : (resetBlock s).job = none := by simp [resetBlock]
@[simp] theorem resetBlock_rstN (s : State) : (resetBlock s).rstN = s.rstN := by simp [resetBlock]
@[simp] theorem resetBlock_busData (s : State) : (resetBlock s).busData = s.busData := by simp [resetBlock]
@[simp] theorem resetBlock_memData (s : State) : (resetBlock s).memData = s.memData := by simp [resetBlock]
@[simp] theorem resetBlock_moves (s : State) : (resetBlock s).moves = s.moves := by simp [resetBlock]
@[simp] theorem resetBlock_busErrors (s : State) : (resetBlock s).busErrors = s.busErrors := by simp [resetBlock]
@[simp] theorem resetBlock_statusState (s : State) : (resetBlock s).statusState = 0#2 := rfl
@[simp] theorem resetBlock_statusErr (s : State) : (resetBlock s).statusErr = 0#4 := rfl
@[simp] theorem resetBlock_intStatus (s : State) : (resetBlock s).intStatus = 0#2 := rfl
@[simp] theorem resetBlock_intEnable (s : State) : (resetBlock s).intEnable = 0#2 := rfl
@[simp] theorem resetBlock_format (s : State) : (resetBlock s).format = 0#4 := rfl
@[simp] theorem resetBlock_srcCount (s : State) : (resetBlock s).srcCount = 0#3 := rfl
@[simp] theorem resetBlock_dstCount (s : State) : (resetBlock s).dstCount = 0#3 := rfl
@[simp] theorem resetBlock_src0 (s : State) : (resetBlock s).src0 = Slot.reset := rfl
@[simp] theorem resetBlock_src1 (s : State) : (resetBlock s).src1 = Slot.reset := rfl
@[simp] theorem resetBlock_src2 (s : State) : (resetBlock s).src2 = Slot.reset := rfl
@[simp] theorem resetBlock_src3 (s : State) : (resetBlock s).src3 = Slot.reset := rfl
@[simp] theorem resetBlock_dst0 (s : State) : (resetBlock s).dst0 = Slot.reset := rfl
@[simp] theorem resetBlock_dst1 (s : State) : (resetBlock s).dst1 = Slot.reset := rfl
@[simp] theorem resetBlock_dst2 (s : State) : (resetBlock s).dst2 = Slot.reset := rfl

end Sys2Proof.Machine
end

