-- ==== Sys2Proof/Laws/Registers.lean ====
section
/-! SUPPORT. Register transactions: where a register stands, what a write does and leaves, and what a read gives after
a slot register was replaced. -/

namespace Sys2Proof.Machine

/-! ## Offsets -/

theorem regOffset_aligned (r : Reg) : (regOffset r).toNat % 4 = 0 := by
  cases r <;> first | rfl | (rename_i c; revert c; decide)

theorem regAt_regOffset {r : Reg} (h : r ≠ .reserved) : regAt (regOffset r) = r := by
  cases r <;> first | rfl | simp_all

theorem regAt_eq_cmd_iff (off : BitVec 12) : regAt off = .cmd ↔ off = 0x004 := by
  constructor
  · intro h
    rw [← regOffset_regAt (off := off) (by rw [h]; decide), h]; rfl
  · rintro rfl; rfl

/-! ## Transactions -/

/-- A write of CMD issues its command. -/
theorem exec_write_cmd (w : Word) (s : State) : exec (.regWrite 0x004 w) s = command w s := rfl

/-- A write at any other admitted offset stores what its register takes. -/
theorem exec_write_other {off : BitVec 12} (h4 : off.toNat % 4 = 0) (hc : off ≠ 0x004) (d : Word) (s : State) :
    exec (.regWrite off d) s = .next (writeReg s (regAt off) d) := by
  have hr : regAt off ≠ .cmd := fun h => hc ((regAt_eq_cmd_iff off).1 h)
  simp only [exec, execRegWrite, admittedOffset, h4, beq_self_eq_true, if_true]

/-- A write of a register by name. -/
theorem exec_write_reg {r : Reg} (h : r ≠ .reserved) (hc : r ≠ .cmd) (d : Word) (s : State) :
    exec (.regWrite (regOffset r) d) s = .next (writeReg s r d) := by
  have ho : regOffset r ≠ 0x004 := fun he =>
    hc (by rw [← regAt_regOffset h, he]; rfl)
  rw [exec_write_other (regOffset_aligned r) ho, regAt_regOffset h]

/-- A read at any admitted offset. -/
theorem exec_read {off : BitVec 12} (h4 : off.toNat % 4 = 0) (s : State) :
    exec (.regRead off) s = .next { s with busData := readReg s (regAt off) } := by
  simp [exec, execRegRead, admittedOffset, h4]

/-! ## Reads after slot updates -/

theorem readReg_setSrc (s : State) (c : Fin 4) (d : Slot) (r : Reg) : readReg (s.setSrc c d) r =
    match r with
    | .srcBase e => if c = e then d.base else (s.src e).base
    | .srcStride e => if c = e then d.stride else (s.src e).stride
    | .srcDim e => if c = e then d.dim else (s.src e).dim
    | r => readReg s r := by
  cases r <;> simp [readReg, src_setSrc, State.statusWord] <;> split <;> rfl

theorem readReg_setDst (s : State) (p : Fin 3) (d : Slot) (r : Reg) : readReg (s.setDst p d) r =
    match r with
    | .dstBase e => if p = e then d.base else (s.dst e).base
    | .dstStride e => if p = e then d.stride else (s.dst e).stride
    | .dstDim e => if p = e then d.dim else (s.dst e).dim
    | r => readReg s r := by
  cases r <;> simp [readReg, dst_setDst, State.statusWord] <;> split <;> rfl

theorem low4_setWidth (d : Word) : (d.extractLsb' 0 4).setWidth 32 = d &&& 0xF#32 := by
  apply BitVec.eq_of_toNat_eq
  have := Nat.and_two_pow_sub_one_eq_mod d.toNat 4
  norm_num at this
  simp [BitVec.extractLsb'_toNat]
  omega

theorem low3_setWidth (d : Word) : (d.extractLsb' 0 3).setWidth 32 = d &&& 0x7#32 := by
  apply BitVec.eq_of_toNat_eq
  have := Nat.and_two_pow_sub_one_eq_mod d.toNat 3
  norm_num at this
  simp [BitVec.extractLsb'_toNat]
  omega

theorem and_allBits (d : Word) : d &&& 0xFFFFFFFF#32 = d := BitVec.and_allOnes

/-! ## What a write leaves -/

theorem SameBeyondRegisters.refl (s : State) : SameBeyondRegisters s s := by constructor <;> rfl

theorem sameBeyondRegisters_setSrc (s : State) (c : Fin 4) (d : Slot) : SameBeyondRegisters s (s.setSrc c d) := by
  constructor <;> simp

theorem sameBeyondRegisters_setDst (s : State) (p : Fin 3) (d : Slot) : SameBeyondRegisters s (s.setDst p d) := by
  constructor <;> simp

theorem sameBeyondRegisters_unlessConfigured {s t : State} (h : SameBeyondRegisters s t) :
    SameBeyondRegisters s (unlessConfigured s t) := by
  unfold unlessConfigured; split
  · exact h
  · exact .refl s

theorem sameBeyondRegisters_unlessBusy {s t : State} (h : SameBeyondRegisters s t) :
    SameBeyondRegisters s (unlessBusy s t) := by
  unfold unlessBusy; split
  · exact .refl s
  · exact h

/-- A register write changes registers only. -/
theorem sameBeyondRegisters_writeReg (s : State) (r : Reg) (d : Word) : SameBeyondRegisters s (writeReg s r d) := by
  cases r <;> simp only [writeReg]
  case srcBase => exact sameBeyondRegisters_unlessBusy (sameBeyondRegisters_setSrc ..)
  case srcStride => exact sameBeyondRegisters_unlessConfigured (sameBeyondRegisters_setSrc ..)
  case srcDim => exact sameBeyondRegisters_unlessConfigured (sameBeyondRegisters_setSrc ..)
  case dstBase => exact sameBeyondRegisters_unlessBusy (sameBeyondRegisters_setDst ..)
  case dstStride => exact sameBeyondRegisters_unlessConfigured (sameBeyondRegisters_setDst ..)
  case dstDim => exact sameBeyondRegisters_unlessConfigured (sameBeyondRegisters_setDst ..)
  case format => exact sameBeyondRegisters_unlessConfigured (by constructor <;> rfl)
  case srcCount => exact sameBeyondRegisters_unlessConfigured (by constructor <;> rfl)
  case dstCount => exact sameBeyondRegisters_unlessConfigured (by constructor <;> rfl)
  all_goals constructor <;> rfl

theorem unlessConfigured_cases (s t : State) :
    unlessConfigured s t = s ∨ (s.statusState = unconfigured ∧ unlessConfigured s t = t) := by
  unfold unlessConfigured; split <;> simp_all

theorem unlessBusy_cases (s t : State) :
    unlessBusy s t = s ∨ (s.statusState ≠ busy ∧ unlessBusy s t = t) := by
  unfold unlessBusy; split <;> simp_all

/-- A register write changes no register but the one written. -/
theorem readReg_writeReg_other (s : State) {r e : Reg} (h : e ≠ r) (d : Word) :
    readReg (writeReg s r d) e = readReg s e := by
  have hu : ∀ t : State, readReg t e = readReg s e → readReg (unlessConfigured s t) e = readReg s e := fun t ht => by
    rcases unlessConfigured_cases s t with h | ⟨-, h⟩ <;> simp [h, ht]
  have hb : ∀ t : State, readReg t e = readReg s e → readReg (unlessBusy s t) e = readReg s e := fun t ht => by
    rcases unlessBusy_cases s t with h | ⟨-, h⟩ <;> simp [h, ht]
  cases r <;> simp only [writeReg]
  case srcBase c => refine hb _ ?_; rw [readReg_setSrc]; cases e <;> simp only [readReg] <;> split <;> simp_all
  case srcStride c => refine hu _ ?_; rw [readReg_setSrc]; cases e <;> simp only [readReg] <;> split <;> simp_all
  case srcDim c => refine hu _ ?_; rw [readReg_setSrc]; cases e <;> simp only [readReg] <;> split <;> simp_all
  case dstBase c => refine hb _ ?_; rw [readReg_setDst]; cases e <;> simp only [readReg] <;> split <;> simp_all
  case dstStride c => refine hu _ ?_; rw [readReg_setDst]; cases e <;> simp only [readReg] <;> split <;> simp_all
  case dstDim c => refine hu _ ?_; rw [readReg_setDst]; cases e <;> simp only [readReg] <;> split <;> simp_all
  case format => exact hu _ (by cases e <;> first | rfl | exact absurd rfl h)
  case srcCount => exact hu _ (by cases e <;> first | rfl | exact absurd rfl h)
  case dstCount => exact hu _ (by cases e <;> first | rfl | exact absurd rfl h)
  all_goals cases e <;> first | rfl | exact absurd rfl h

/-- A register write leaves STATUS as it is. -/
theorem status_writeReg (s : State) (r : Reg) (d : Word) :
    (writeReg s r d).statusState = s.statusState ∧ (writeReg s r d).statusErr = s.statusErr := by
  have hu : ∀ t : State, t.statusState = s.statusState ∧ t.statusErr = s.statusErr →
      (unlessConfigured s t).statusState = s.statusState ∧ (unlessConfigured s t).statusErr = s.statusErr :=
    fun t ht => by rcases unlessConfigured_cases s t with h | ⟨-, h⟩ <;> simp [h, ht]
  have hb : ∀ t : State, t.statusState = s.statusState ∧ t.statusErr = s.statusErr →
      (unlessBusy s t).statusState = s.statusState ∧ (unlessBusy s t).statusErr = s.statusErr :=
    fun t ht => by rcases unlessBusy_cases s t with h | ⟨-, h⟩ <;> simp [h, ht]
  cases r <;> simp only [writeReg]
  case srcBase => exact hb _ (by simp)
  case dstBase => exact hb _ (by simp)
  case format => exact hu _ ⟨rfl, rfl⟩
  case srcCount => exact hu _ ⟨rfl, rfl⟩
  case dstCount => exact hu _ ⟨rfl, rfl⟩
  case srcStride => exact hu _ (by simp)
  case srcDim => exact hu _ (by simp)
  case dstStride => exact hu _ (by simp)
  case dstDim => exact hu _ (by simp)
  all_goals constructor <;> first | rfl | trivial

/-! ## Dimensions -/

/-- A dimension register is its two fields: the width below, the height above (R28, R31). -/
theorem Slot.dim_toNat (d : Slot) : d.dim.toNat = 65536 * d.height + d.width := by
  have := d.dim.isLt
  simp only [Slot.width, Slot.height, BitVec.extractLsb'_toNat, Nat.shiftRight_eq_div_pow]
  omega

/-- The width and the height of a slot whose dimension register holds a word (R28, R31). -/
theorem Slot.dims_of_word (d : Slot) (w : Word) :
    { d with dim := w }.width = w.toNat % 65536 ∧ { d with dim := w }.height = w.toNat / 65536 := by
  have := w.isLt
  simp only [Slot.width, Slot.height, BitVec.extractLsb'_toNat, Nat.shiftRight_eq_div_pow]
  omega

end Sys2Proof.Machine
end

