-- ==== Sys2Proof/Laws/Validator.lean ====
section
/-! SUPPORT. What the validator answers (47_configuration_validator.md R125): each of its checks as a condition on the
registers, and OK exactly when every check of R126 to R134 passes. -/

namespace Sys2Proof.Machine

theorem emptySource_eq_false_iff (s : State) (f : Format) : emptySource s f = false ↔
    ∀ c : Fin 4, c.val < channelCount f → 1 ≤ (s.src c).width ∧ 1 ≤ (s.src c).height := by
  simp only [emptySource, List.any_eq_false, mem_boundSources, Bool.or_eq_true, beq_iff_eq, not_or]
  exact forall₂_congr fun c _ => by omega

theorem unequalSource_eq_false_iff (s : State) (f : Format) : unequalSource s f = false ↔
    ∀ c : Fin 4, c.val < channelCount f → (s.src c).width = s.imageW ∧ (s.src c).height = s.imageH := by
  simp only [unequalSource, List.any_eq_false, mem_boundSources, Bool.or_eq_true, bne_iff_ne, not_or, not_not]

theorem shortSourceStride_eq_false_iff (s : State) (f : Format) : shortSourceStride s f = false ↔
    ∀ c : Fin 4, c.val < channelCount f → (s.src c).width ≤ (s.src c).stride.toNat := by
  simp only [shortSourceStride, List.any_eq_false, mem_boundSources, decide_eq_true_eq, not_lt]

theorem evenEnough_iff (f : Format) (w h : Nat) :
    evenEnough f w h = true ↔ w % (describe f).sx = 0 ∧ h % (describe f).sy = 0 := by
  simp [evenEnough]

theorem zip_boundPlanes (f : Format) (g : Fin 3 → PlaneGeom) (P : Fin 3 × PlaneGeom → Bool) :
    ((boundPlanes f).zip ((boundPlanes f).map g)).any P = false ↔
      ∀ p : Fin 3, p.val < planeCount f → P (p, g p) = false := by
  have h : ∀ l : List (Fin 3), (l.zip (l.map g)).any P = l.any fun p => P (p, g p) := fun l => by
    induction l with
    | nil => rfl
    | cons p rest ih => simp [ih]
  rw [h, List.any_eq_false]
  simp only [mem_boundPlanes, Bool.not_eq_true]

theorem unplannedPlane_eq_false_iff (s : State) (f : Format) (w h : Nat) :
    unplannedPlane s f ((boundPlanes f).map (planeGeom f w h)) = false ↔
    ∀ p : Fin 3, p.val < planeCount f →
      (s.dst p).width = w / (planeDesc f p).dx ∧ (s.dst p).height = h / (planeDesc f p).dy := by
  rw [unplannedPlane, zip_boundPlanes]
  exact forall₂_congr fun p _ => by simp [planeGeom]

theorem shortPlaneStride_eq_false_iff (s : State) (f : Format) (w h : Nat) :
    shortPlaneStride s f ((boundPlanes f).map (planeGeom f w h)) = false ↔
    ∀ p : Fin 3, p.val < planeCount f →
      w / (planeDesc f p).dx * (planeDesc f p).elemBytes ≤ (s.dst p).stride.toNat := by
  rw [shortPlaneStride, zip_boundPlanes]
  exact forall₂_congr fun p _ => decide_eq_false_iff_not.trans not_lt

/-- OK is the answer exactly when every check of R126 to R134 passes. -/
theorem validate_eq_none_iff (s : State) : validate s = none ↔ Validated s := by
  constructor
  · intro h
    unfold validate at h
    split at h
    · simp at h
    · rename_i f hf
      unfold checkFormat at h
      split at h; · simp at h
      rename_i h1
      split at h; · simp at h
      rename_i h2
      split at h; · simp at h
      rename_i h3
      split at h; · simp at h
      rename_i h4
      split at h; · simp at h
      rename_i g hg
      unfold plan at hg
      split at hg
      · rename_i he
        cases hg
        unfold checkDestination at h
        split at h; · simp at h
        rename_i h5
        split at h; · simp at h
        rename_i h6
        split at h; · simp at h
        rename_i h7
        simp only [Bool.not_eq_true] at h2 h3 h4 h6 h7
        exact ⟨f, hf, by omega, (emptySource_eq_false_iff s f).1 h2, (unequalSource_eq_false_iff s f).1 h3,
          (shortSourceStride_eq_false_iff s f).1 h4, (evenEnough_iff f _ _).1 he, by omega,
          (unplannedPlane_eq_false_iff s f _ _).1 h6, (shortPlaneStride_eq_false_iff s f _ _).1 h7⟩
      · simp at hg
  · rintro ⟨f, h⟩
    simp only [validate, h.recognized, checkFormat, h.channels, ne_eq, not_true, if_false,
      (emptySource_eq_false_iff s f).2 h.nonEmpty, (unequalSource_eq_false_iff s f).2 h.sameShape,
      (shortSourceStride_eq_false_iff s f).2 h.srcStrides, plan, (evenEnough_iff f _ _).2 h.evenShape, if_true,
      checkDestination, h.planes, (unplannedPlane_eq_false_iff s f _ _).2 h.planeDims,
      (shortPlaneStride_eq_false_iff s f _ _).2 h.planeStrides, Bool.false_eq_true]

/-- An answer that is not OK is one of the four configuration errors (60_exceptions.md R138). -/
theorem validate_code {s : State} {e : ErrCode} (h : validate s = some e) :
    1 ≤ e.code.toNat ∧ e.code.toNat ≤ 4 := by
  have key : e = .unsupportedFormat ∨ e = .channelCountMismatch ∨ e = .shapeMismatch ∨ e = .destGeometryMismatch := by
    unfold validate checkFormat checkDestination at h
    repeat' split at h
    all_goals simp_all
  rcases key with rfl | rfl | rfl | rfl <;> decide

end Sys2Proof.Machine
end

