-- ==== Sys2Proof/Laws/Exec.lean ====
section
/-! SUPPORT. What an operation and a step can do, said once: the command a word is, EXECUTE and the combines, and the
lists of every effect an operation (`Effect`) and a step (`StepEffect`) can have. Proofs over all operations or all
steps take these lists apart and do not unfold `exec` or `step`. -/

namespace Sys2Proof.Machine

/-! ## Commands -/

/-- A write of CMD does what the command its word decodes to does. -/
theorem command_eq_exec (w : Word) (s : State) : command w s = exec (decodeCommand w) s := by
  unfold command
  split
  · rename_i hb
    cases hi : illegalWord w with
    | true =>
      have : w ≠ 3#32 := by rintro rfl; revert hi; decide
      simp [decodeCommand_of_illegal hi, exec, execIllegal, unlessBusyIgnored, hb, this]
    | false =>
      rcases legal_words hi with rfl | rfl | rfl | rfl <;>
        simp [exec, execNop, execConfigure, execExecute, execSoftReset, executeProtocol, unlessBusyIgnored, hb]
  · unfold decodeCommand; split
    · rfl
    · split <;> simp_all [exec]

theorem exec_combineOf (f : Format) (s : State) : exec (combineOf f) s = combine f s := by cases f <;> rfl

/-- EXECUTE in CONFIGURED with a recognized code starts the job. -/
theorem exec_execute_configured {s : State} {f : Format} (hc : s.statusState = configured)
    (hf : s.selected = some f) : exec .execute s = .next (startJob f s) := by
  have hcb : ¬ configured = busy := by decide
  simp only [exec, execExecute, executeProtocol, hc, hcb, if_false, ne_eq, not_true, hf]

/-- The combine of the selected format is EXECUTE. -/
theorem exec_combine_selected {s : State} {f : Format} (hf : s.selected = some f) :
    exec (combineOf f) s = exec .execute s := by
  rw [exec_combineOf]
  simp [combine, hf, exec, execExecute, executeProtocol]

/-- A combine whose code FORMAT.FMT does not hold stops. -/
theorem exec_combine_unselected {s : State} {f : Format} (hf : s.selected ≠ some f) :
    exec (combineOf f) s = .fault .combineNotSelected := by
  simp [exec_combineOf, combine, hf]

/-! ## The more specific operation -/

/-- The more specific operation a state makes of a transaction does what the transaction does, in every state that
agrees with it on FORMAT. -/
theorem exec_refineTransaction (s t : State) (i : Instr) (hf : t.format = s.format) : exec (refineTransaction s i) t = exec i t := by
  have hc : ∀ j, exec (refineCommand s j) t = exec j t := by
    intro j
    unfold refineCommand
    split
    · split
      · split
        · rename_i f h
          exact exec_combine_selected (by rw [State.selected, hf]; exact h)
        · rfl
      · rfl
    · rfl
  unfold refineTransaction
  split
  · split
    · rename_i ho
      rw [hc, ← command_eq_exec, (regAt_eq_cmd_iff _).1 ho]; rfl
    · rfl
  · rfl

/-! ## Every effect an operation can have -/

/-- What an operation that answers a next state did. -/
inductive Effect (s : State) : State → Prop
  | same : Effect s s
  | read (r : Reg) : Effect s { s with busData := readReg s r }
  | write (r : Reg) (d : Word) : r ≠ .cmd → Effect s (writeReg s r d)
  | illegal : s.statusState ≠ busy → Effect s (fail .illegalCommand s)
  | accept : s.statusState = unconfigured → validate s = none →
      Effect s { s with statusState := configured, statusErr := ErrCode.none.code }
  | reject (e : ErrCode) : s.statusState = unconfigured → validate s = some e → Effect s (fail e s)
  | start (f : Format) : s.statusState = configured → s.selected = some f → Effect s (startJob f s)
  | reset : Effect s (resetBlock s)
  | byte (j : Job) (a : Word) (v : Byte) : s.statusState = busy → s.job = some j →
      cellGet j.pending a.toNat = some v → Effect s (engineWrite s j a.toNat v)
  | complete (j : Job) : s.statusState = busy → s.job = some j → j.pending = [] →
      Effect s (engineComplete s j.kind)

theorem configure_effect {s : State} (hb : s.statusState ≠ busy) : Effect s (configure s) := by
  unfold configure
  split
  · exact .illegal hb
  · rename_i h
    simp only [ne_eq, not_not] at h
    split
    · exact .accept h ‹_›
    · exact .reject _ h ‹_›

theorem execute_effect {s t : State} (h : exec .execute s = .next t) : Effect s t := by
  simp only [exec, execExecute, executeProtocol] at h
  split at h
  · cases h; exact .same
  · rename_i hb
    split at h
    · cases h; exact .illegal hb
    · rename_i hc
      simp only [ne_eq, not_not] at hc
      split at h
      · cases h; exact .start _ hc ‹_›
      · cases h

/-- What an operation answers a next state with is one of the effects. -/
theorem exec_effect {s t : State} {i : Instr} (h : exec i s = .next t) : Effect s t := by
  have hcmd : ∀ j, (j = .nop ∨ j = .configure ∨ j = .execute ∨ j = .softReset ∨ ∃ w, j = .illegal w) →
      exec j s = .next t → Effect s t := by
    rintro j (rfl | rfl | rfl | rfl | ⟨w, rfl⟩) h
    · cases h; exact .same
    · simp only [exec, execConfigure, unlessBusyIgnored] at h
      split at h <;> cases h
      · exact .same
      · exact configure_effect ‹_›
    · exact execute_effect h
    · cases h; exact .reset
    · simp only [exec, execIllegal, unlessBusyIgnored] at h
      split at h <;> cases h
      · exact .same
      · exact .illegal ‹_›
  have hcomb : ∀ f, exec (combineOf f) s = .next t → Effect s t := by
    intro f h
    by_cases hf : s.selected = some f
    · exact execute_effect (exec_combine_selected hf ▸ h)
    · rw [exec_combine_unselected hf] at h; cases h
  cases i with
  | regWrite off d =>
    by_cases h4 : off.toNat % 4 = 0
    · by_cases hc : off = 0x004
      · subst hc
        rw [exec_write_cmd, command_eq_exec] at h
        refine hcmd _ ?_ h
        cases hi : illegalWord d with
        | true => exact .inr (.inr (.inr (.inr ⟨d, decodeCommand_of_illegal hi⟩)))
        | false => rcases legal_words hi with rfl | rfl | rfl | rfl <;> simp
      · rw [exec_write_other h4 hc] at h
        cases h
        exact .write _ d fun hr => hc ((regAt_eq_cmd_iff off).1 hr)
    · simp [exec, execRegWrite, admittedOffset, h4] at h
  | regRead off =>
    by_cases h4 : off.toNat % 4 = 0
    · rw [exec_read h4] at h; cases h; exact .read _
    · simp [exec, execRegRead, admittedOffset, h4] at h
  | nop => exact hcmd _ (by simp) h
  | configure => exact hcmd _ (by simp) h
  | execute => exact hcmd _ (by simp) h
  | softReset => exact hcmd _ (by simp) h
  | illegal w => exact hcmd _ (by simp) h
  | engineWrite a =>
    simp only [exec, execEngineWrite] at h
    split at h
    · cases h
    · split at h
      · split at h
        · cases h; exact .byte _ a _ ‹_› ‹_› ‹_›
        · cases h
      · cases h
  | engineComplete =>
    simp only [exec, execEngineComplete] at h
    split at h
    · cases h
    · split at h
      · split at h
        · cases h; exact .complete _ ‹_› ‹_› ‹_›
        · cases h
      · cases h
  | combineRgb888 => exact hcomb .rgb888 h
  | combineRgba8888 => exact hcomb .rgba8888 h
  | combineYuyv422 => exact hcomb .yuyv422 h
  | combineUyvy422 => exact hcomb .uyvy422 h
  | combineYuv444 => exact hcomb .yuv444 h
  | combineIyuv => exact hcomb .iyuv h
  | combineNv12 => exact hcomb .nv12 h
  | combineNv21 => exact hcomb .nv21 h

/-! ## Every effect a step can have -/

/-- What a step that answers a next state did, besides taking its move off the list or counting the free value of an
unprompted slot (`u`). -/
inductive StepEffect (u : State) : State → Prop
  | port (t : State) : Effect (settleWrites u) t → StepEffect u t
  | engine (t : State) : Effect u t → StepEffect u t
  | land (pick : Nat) : engineChoice pick u = none → StepEffect u (landWrite pick u)
  | hostWrite (a : Word) (v : Byte) : (∀ j, u.job = some j → a.toNat ∉ j.wset ∧ inReadSet u a.toNat = false) →
      StepEffect u (writeMem u a.toNat v)
  | hostRead (v : Byte) (n : Nat) : StepEffect u { u with memData := v, draws := n }
  | assertReset : StepEffect u { resetBlock u with rstN := false }
  | releaseReset : StepEffect u { u with rstN := true }
  | collide (j : Job) : u.job = some j → j.kind = .normal → StepEffect u (collideJob u j)

/-- The state an environment's move, or an unprompted slot, acts on. -/
def stepState (s : State) : State :=
  match s.moves with
  | [] => { s with draws := s.draws + 1 }
  | _ :: rest => { s with moves := rest }

/-- A step with a move waiting is that move, in the state without it. -/
theorem step_of_moves {s : State} {m : Move} {rest : List Move} (h : s.moves = m :: rest) :
    step s = act m { s with moves := rest } := by simp only [step, h]

/-- A step with no move waiting is an unprompted slot. -/
theorem step_of_no_moves {s : State} (h : s.moves = []) : step s = unprompted s := by simp only [step, h]

/-- A request that answers a next state is a transaction the decoder reads, and does what the transaction does. -/
theorem portSlot_next {r : PortRequest} {u t : State} (h : portSlot r u = .next t) :
    u.rstN = true ∧ ∃ i, decodePort r = .instr i ∧ exec i (settleWrites u) = .next t := by
  unfold portSlot fetchPort at h
  split at h
  · rename_i i hf
    split at hf
    · split at hf
      · cases hf
        rw [exec_refineTransaction u (settleWrites u) _ rfl] at h
        exact ⟨‹_›, _, ‹_›, h⟩
      · cases hf
    · cases hf
  · cases h

theorem act_effect {m : Move} {u t : State} (h : act m u = .next t) : StepEffect u t := by
  cases m with
  | port r =>
    simp only [act, portSlot] at h
    split at h
    · exact .port _ (exec_effect h)
    · cases h
  | hostWrite a v =>
    simp only [act, Machine.hostWrite] at h
    split at h
    · cases h; exact .hostWrite a v fun j hj => by simp_all
    · rename_i j hj
      split at h
      · cases h
      · rename_i hn
        cases h
        refine .hostWrite a v fun j' hj' => ?_
        rw [hj] at hj'; cases hj'
        simpa using hn
  | hostRead a =>
    simp only [act, Machine.hostRead] at h
    split at h
    · cases h; exact .hostRead _ u.draws
    · split at h
      · cases h; exact .hostRead _ _
      · cases h; exact .hostRead _ u.draws
  | rstAssert => cases h; exact .assertReset
  | rstRelease => cases h; exact .releaseReset
  | engine pick =>
    simp only [act, engineSlot] at h
    split at h
    · exact .engine _ (exec_effect h)
    · cases h; exact .land pick ‹_›
  | otherJob writes reads =>
    simp only [act, Machine.otherJob] at h
    split at h
    · cases h; exact .engine _ .same
    · rename_i j hj
      split at h
      · rename_i hk
        split at h <;> cases h
        · exact .collide j hj hk
        · exact .engine _ .same
      · cases h; exact .engine _ .same
      · cases h; exact .engine _ .same

/-- What a step answers a next state with: the block as it was, or one of the effects. -/
theorem step_effect {s t : State} (h : step s = .next t) : t = s ∨ StepEffect (stepState s) t := by
  unfold step at h
  split at h
  · rename_i hm
    have hu : stepState s = { s with draws := s.draws + 1 } := by simp only [stepState, hm]
    simp only [unprompted] at h
    split at h
    · exact .inr (.engine _ (hu ▸ exec_effect h))
    · cases h; exact .inl rfl
  · rename_i m rest hm
    have hu : stepState s = { s with moves := rest } := by simp only [stepState, hm]
    exact .inr (hu ▸ act_effect h)

end Sys2Proof.Machine
end

