-- ==== Sys2Proof/Laws/PerInstr.lean ====
section
/-! SUPPORT. The family of per-instruction statements `Encoded`: an operation's encoding has the length its set of rows
gives it (30_encoding.md R70, R74, R78): 6 bytes for a write transaction, 2 for a read, 4 for a command word, 1 for a
format code, and none for the engine's steps. One lemma per constructor of Instr. -/

namespace Sys2Proof.Laws.Encoded

/-- The length of an operation's encoding. -/
def Statement (i : Instr) : Prop :=
  (encode i).map List.length =
    match spaceOf i with
    | .regPort =>
      match i with
      | .regWrite _ _ => some 6
      | _ => some 2
    | .command => some 4
    | .formatCode => some 1
    | .engine => none

theorem regWrite (off : BitVec 12) (data : Word) : Statement (.regWrite off data) := rfl
theorem regRead (off : BitVec 12) : Statement (.regRead off) := rfl
theorem nop : Statement .nop := rfl
theorem configure : Statement .configure := rfl
theorem execute : Statement .execute := rfl
theorem softReset : Statement .softReset := rfl
theorem illegal (w : Word) : Statement (.illegal w) := rfl
theorem engineWrite (a : Word) : Statement (.engineWrite a) := rfl
theorem engineComplete : Statement .engineComplete := rfl
theorem combineRgb888 : Statement .combineRgb888 := rfl
theorem combineRgba8888 : Statement .combineRgba8888 := rfl
theorem combineYuyv422 : Statement .combineYuyv422 := rfl
theorem combineUyvy422 : Statement .combineUyvy422 := rfl
theorem combineYuv444 : Statement .combineYuv444 := rfl
theorem combineIyuv : Statement .combineIyuv := rfl
theorem combineNv12 : Statement .combineNv12 := rfl
theorem combineNv21 : Statement .combineNv21 := rfl

end Sys2Proof.Laws.Encoded
end

