-- ==== Sys2Proof/Laws/Safety.lean ====
section
/-! SUPPORT. What validated configurations, job records and the invariant depend on, so that a step's case is closed by
naming what it leaves alone; and what RESET leaves in memory. -/

namespace Sys2Proof.Machine

/-! ## States with the same configuration -/

/-- The registers a configuration is made of, and the platform, are the same. -/
structure SameConfig (s t : State) : Prop extends SameGeometry s t where
  format : t.format = s.format
  srcCount : t.srcCount = s.srcCount
  dstCount : t.dstCount = s.dstCount

theorem SameConfig.selected {s t : State} (h : SameConfig s t) : t.selected = s.selected := by
  simp [State.selected, h.format]

/-- Field by field; each argument is `rfl` for a state written as an update of `s`. -/
theorem SameConfig.of_fields {s t : State} (hf : t.format = s.format) (hn : t.srcCount = s.srcCount)
    (hd : t.dstCount = s.dstCount)
    (hs : t.src0 = s.src0 ∧ t.src1 = s.src1 ∧ t.src2 = s.src2 ∧ t.src3 = s.src3)
    (hp : t.dst0 = s.dst0 ∧ t.dst1 = s.dst1 ∧ t.dst2 = s.dst2) (hb : t.busErrors = s.busErrors) :
    SameConfig s t := by
  refine ⟨⟨?_, ?_, hb⟩, hf, hn, hd⟩
  · intro c; obtain ⟨h0, h1, h2, h3⟩ := hs; fin_cases c <;> simp [*]
  · intro p; obtain ⟨h0, h1, h2⟩ := hp; fin_cases p <;> simp [*]

/-- A validated configuration depends on FORMAT, the counts, the dimensions and the strides alone (R136): not on a base. -/
theorem validFor_of_dims {s t : State} {f : Format} (hf : t.format = s.format) (hn : t.srcCount = s.srcCount)
    (hd : t.dstCount = s.dstCount)
    (hs : ∀ c, (t.src c).dim = (s.src c).dim ∧ (t.src c).stride = (s.src c).stride)
    (hp : ∀ p, (t.dst p).dim = (s.dst p).dim ∧ (t.dst p).stride = (s.dst p).stride) (h : ValidFor s f) :
    ValidFor t f := by
  have sw : ∀ c, (t.src c).width = (s.src c).width := fun c => by simp [Slot.width, hs]
  have sh : ∀ c, (t.src c).height = (s.src c).height := fun c => by simp [Slot.height, hs]
  have dw : ∀ p, (t.dst p).width = (s.dst p).width := fun p => by simp [Slot.width, hp]
  have dh : ∀ p, (t.dst p).height = (s.dst p).height := fun p => by simp [Slot.height, hp]
  have iw : t.imageW = s.imageW := sw 0
  have ih : t.imageH = s.imageH := sh 0
  constructor
  · rw [← h.recognized]; simp [State.selected, hf]
  · rw [hn, h.channels]
  · intro c hc; rw [sw, sh]; exact h.nonEmpty c hc
  · intro c hc; rw [sw, sh, iw, ih]; exact h.sameShape c hc
  · intro c hc; rw [sw, (hs c).2]; exact h.srcStrides c hc
  · rw [iw, ih]; exact h.evenShape
  · rw [hd, h.planes]
  · intro p hc; rw [dw, dh, iw, ih]; exact h.planeDims p hc
  · intro p hc; rw [(hp p).2, iw]; exact h.planeStrides p hc

theorem SameConfig.validFor {s t : State} {f : Format} (h : SameConfig s t) (hv : ValidFor s f) : ValidFor t f :=
  validFor_of_dims h.format h.srcCount h.dstCount (fun c => by simp [h.src]) (fun p => by simp [h.dst]) hv

theorem SameConfig.jobFits {s t : State} {f : Format} {j : Job} (h : SameConfig s t) (hj : JobFits s f j) :
    JobFits t f j :=
  ⟨by rw [h.writeSet, hj.writeSet], hj.pendingCanonical, hj.pendingInWset, hj.beforeOnWset,
    fun hk => by rw [h.jobKind, hj.kindHolds hk]⟩

/-- The job EXECUTE creates fits the registers. -/
theorem newJob_fits (s : State) (f : Format) : JobFits s f (newJob s f) := by
  refine ⟨rfl, wf_jobBytes s f, ?_, ?_, id⟩
  · intro c hc; exact (keys_jobBytes s f c.1).1 (List.mem_map_of_mem hc)
  · simp [newJob, List.map_map, Function.comp_def]

/-- In BUSY a register write leaves the configuration alone: every register of it is locked (R32, R33). -/
theorem sameConfig_writeReg {s : State} (hb : s.statusState = busy) (r : Reg) (d : Word) :
    SameConfig s (writeReg s r d) := by
  have hu : ¬ busy = unconfigured := by decide
  cases r <;> simp only [writeReg, unlessConfigured, unlessBusy, hb, if_true, hu, if_false] <;>
    exact .of_fields rfl rfl rfl ⟨rfl, rfl, rfl, rfl⟩ ⟨rfl, rfl, rfl⟩ rfl

/-- Outside UNCONFIGURED a register write keeps a validated configuration (R32, R33, R136). -/
theorem validFor_writeReg {s : State} {f : Format} (hu : s.statusState ≠ unconfigured) (h : ValidFor s f) (r : Reg)
    (d : Word) : ValidFor (writeReg s r d) f := by
  by_cases hb : s.statusState = busy
  · exact (sameConfig_writeReg hb r d).validFor h
  · cases r <;> simp only [writeReg, unlessConfigured, unlessBusy, hb, if_false, hu]
    case srcBase c =>
      refine validFor_of_dims (by simp) (by simp) (by simp) (fun e => ?_) (by simp) h
      rw [src_setSrc]; split <;> simp_all
    case dstBase c =>
      refine validFor_of_dims (by simp) (by simp) (by simp) (by simp) (fun e => ?_) h
      rw [dst_setDst]; split <;> simp_all
    case intStatus => exact validFor_of_dims (s := s) rfl rfl rfl (fun _ => ⟨rfl, rfl⟩) (fun _ => ⟨rfl, rfl⟩) h
    case intEnable => exact validFor_of_dims (s := s) rfl rfl rfl (fun _ => ⟨rfl, rfl⟩) (fun _ => ⟨rfl, rfl⟩) h
    all_goals exact h

/-! ## The invariant -/

/-- The invariant after a step that leaves the configuration, STATE and the job alone. -/
theorem Invariant.transfer {s t : State} (hi : Invariant s) (hc : SameConfig s t)
    (hs : t.statusState = s.statusState) (he : t.statusErr.toNat ≤ 6) (hj : t.job = s.job) (hm : Memory.wf t.mem)
    (hf : Memory.wf t.inFlight) : Invariant t := by
  refine ⟨by rw [hs]; exact hi.stateLegal, he, by rw [hj, hs]; exact hi.jobWhenBusy, ?_, ?_, hm, hf⟩
  · intro hu
    rw [hs] at hu
    obtain ⟨f, hv⟩ := hi.validated hu
    exact ⟨f, hc.validFor hv⟩
  · intro f j hsel hjj
    rw [hc.selected] at hsel
    rw [hj] at hjj
    exact hc.jobFits (hi.jobFits f j hsel hjj)

theorem Invariant.no_job {s : State} (hi : Invariant s) (h : s.statusState ≠ busy) : s.job = none := by
  have := hi.jobWhenBusy
  cases hj : s.job with
  | none => rfl
  | some j => exact absurd (this.1 (by simp [hj])) h

/-- A busy block of the invariant has a job and a selected format, which it fits. -/
theorem Invariant.busy_job {s : State} (hi : Invariant s) {j : Job} (hj : s.job = some j) :
    s.statusState = busy ∧ ∃ f, s.selected = some f ∧ JobFits s f j := by
  have hb := hi.jobWhenBusy.1 (by simp [hj])
  obtain ⟨f, hv⟩ := hi.validated (by rw [hb]; decide)
  exact ⟨hb, f, hv.recognized, hi.jobFits f j hv.recognized hj⟩

theorem code_le_six (e : ErrCode) : e.code.toNat ≤ 6 := by cases e <;> decide

/-! ## Abandoned jobs -/

theorem keys_inFlightCells (s : State) (j : Job) : (inFlightCells s j).map Prod.fst = j.wset := by
  unfold inFlightCells
  split
  · simp [List.map_map, Function.comp_def]
  · exact keys_freeCells _ _
  · exact keys_freeCells _ _

theorem cellGet_abandonedCells {s : State} {j : Job} {n : Nat} {l : List Nat} {a : Nat} (ha : a ∈ l) :
    ∃ m, cellGet (abandonedCells s j n l) a = some (unsettledByte s j m a) := by
  induction l generalizing n with
  | nil => simp at ha
  | cons b rest ih =>
    by_cases h : b = a
    · subst h; exact ⟨n, by simp [abandonedCells, cellGet]⟩
    · obtain ⟨m, hm⟩ := ih (n := n + 1) ((List.mem_cons.1 ha).resolve_left (Ne.symm h))
      exact ⟨m, by simp [abandonedCells, cellGet, h, hm]⟩

/-- A byte of the write set of a job RESET abandons is an unsettled byte of it. -/
theorem readMem_resetBlock_wset {s : State} {j : Job} (hj : s.job = some j) {a : Nat} (ha : a ∈ j.wset) :
    ∃ n, readMem (resetBlock s) a = unsettledByte s j n a := by
  obtain ⟨m, hm⟩ := cellGet_abandonedCells (s := s) (j := j) (n := s.draws) ha
  exact ⟨m, by simp [readMem, resetBlock, resetRegisters, abandonJob, hj, cellGet_cellSetAll, hm]⟩

/-- RESET changes no other byte. -/
theorem readMem_resetBlock_other {s : State} {a : Nat} (h : ∀ j, s.job = some j → a ∉ j.wset) :
    readMem (resetBlock s) a = readMem s a := by
  unfold resetBlock
  rw [readMem_congr (t := abandonJob s) (by simp)]
  unfold abandonJob
  split
  · rfl
  · rename_i j hj
    have : cellGet (abandonedCells s j s.draws j.wset) a = none := by
      rw [cellGet_eq_none_iff, keys_abandonedCells]; exact h j hj
    simp [readMem, cellGet_cellSetAll, this]

/-- RESET keeps the canonical form of memory and of the writes in flight. -/
theorem Invariant.wf_abandonJob {s : State} (hi : Invariant s) :
    Memory.wf (abandonJob s).mem ∧ Memory.wf (abandonJob s).inFlight := by
  unfold abandonJob
  split
  · exact ⟨hi.memCanonical, hi.inFlightCanonical⟩
  · rename_i j hj
    obtain ⟨-, f, -, hfit⟩ := hi.busy_job hj
    have hlt : ∀ a ∈ j.wset, a < 2 ^ 32 := by rw [hfit.writeSet]; exact fun a => writeSet_lt s f
    have hr : j.wset.Pairwise (· < ·) := by rw [hfit.writeSet]; exact rising_writeSet s f
    refine ⟨Memory.wf_cellSetAll hi.memCanonical fun c hc => ?_, ?_, fun c hc => ?_⟩
    · have : c.1 ∈ (abandonedCells s j s.draws j.wset).map Prod.fst := List.mem_map_of_mem hc
      rw [keys_abandonedCells] at this
      exact hlt _ this
    · simpa [keys_inFlightCells] using hr
    · have : c.1 ∈ (inFlightCells s j).map Prod.fst := List.mem_map_of_mem hc
      rw [keys_inFlightCells] at this
      exact hlt _ this

/-! ## The engine's writes -/

/-- The engine's writes, in any order of exactly the pending addresses, all run: what was pending is in memory, every
other byte keeps its value, nothing is pending, and nothing else changed. -/
theorem runEngine_pending (order : List Word) : ∀ (s : State) (j : Job), s.statusState = busy → s.job = some j →
    (j.pending.map Prod.fst).Pairwise (· < ·) →
    (order.map BitVec.toNat).Perm (j.pending.map Prod.fst) →
    ∃ t, runEngine order s = .next t ∧ t.job = some { j with pending := [] } ∧
      (∀ a, cellGet t.mem a = (cellGet j.pending a).or (cellGet s.mem a)) ∧
      t = { s with mem := t.mem, job := t.job } ∧ (Memory.wf s.mem → Memory.wf t.mem) := by
  induction order with
  | nil =>
    intro s j hb hj hr hp
    have hnil : j.pending = [] := by simpa using hp.symm.eq_nil
    refine ⟨s, rfl, ?_, ?_, rfl, id⟩
    · rw [hj]; cases j; simp_all
    · intro a; simp [hnil]
  | cons a rest ih =>
    intro s j hb hj hr hp
    have ha : a.toNat ∈ j.pending.map Prod.fst := hp.subset (by simp)
    rw [← isSome_cellGet_iff] at ha
    obtain ⟨v, hv⟩ := Option.isSome_iff_exists.1 ha
    have he : exec (.engineWrite a) s = .next (engineWrite s j a.toNat v) := by
      simp [exec, execEngineWrite, hj, hb, hv]
    have hr' : ((cellErase j.pending a.toNat).map Prod.fst).Pairwise (· < ·) := by
      rw [keys_cellErase]; exact hr.filter _
    have hp' : (rest.map BitVec.toNat).Perm ((cellErase j.pending a.toNat).map Prod.fst) := by
      have h1 := hp.filter (fun b => decide (b ≠ a.toNat))
      rw [keys_cellErase]
      refine List.Perm.trans ?_ h1
      have hnd : (a.toNat :: rest.map BitVec.toNat).Nodup := by
        have := hp.nodup_iff.2 (hr.imp (fun h => Nat.ne_of_lt h))
        simpa using this
      simp only [List.nodup_cons] at hnd
      rw [List.map_cons, List.filter_cons_of_neg (by simp), List.filter_eq_self.2]
      intro b hb
      simp only [ne_eq, decide_not, Bool.not_eq_eq_eq_not, Bool.not_true, decide_eq_false_iff_not]
      rintro rfl; exact hnd.1 hb
    obtain ⟨t, ht, htj, htm, hte, htw⟩ := ih (engineWrite s j a.toNat v)
      { j with pending := cellErase j.pending a.toNat } (by simpa using hb) rfl hr' hp'
    refine ⟨t, ?_, htj, ?_, ?_, ?_⟩
    · simp only [runEngine, he]; exact ht
    · intro b
      rw [htm b]
      simp only [cellGet_cellErase, engineWrite_mem, cellGet_cellSet]
      by_cases hab : a.toNat = b
      · subst hab; simp [hv]
      · simp [hab]
    · rw [hte]; rfl
    · intro hw; exact htw (wf_writeMem hw a.isLt v)

/-- The memory of the machine right after reset is in canonical form. -/
theorem wf_reset_mem : Memory.wf State.reset.mem := ⟨List.Pairwise.nil, by simp [State.reset]⟩

end Sys2Proof.Machine
end

