-- ==== Sys2Proof/Tests/Slice0.lean ====
section
/-! SUPPORT. The model's own tests: the well-formedness check, decoding of words written out from the spec's tables,
one step of each operation against 95_test_vectors.md, and for every statement with hypotheses a witness that meets
them. Expected values come from the spec; each test names its source. -/

namespace Sys2Proof.Tests

open Sys2Proof.Machine

/-! ## Helpers -/

/-- Whether an outcome is a next state with a property. -/
def nextIs (r : Result) (p : State → Bool) : Bool :=
  match r with
  | .next t => p t
  | .fault _ => false
  | .refused _ => false

/-- Bytes from an address upward. -/
def bytesAt (a : Nat) : List Byte → List Host.Cell
  | [] => []
  | v :: rest => (a, v) :: bytesAt (a + 1) rest

/-- A slot with its stride and `DIM(w, h)`. -/
def slot (base stride w h : Nat) : Slot :=
  { base := BitVec.ofNat 32 base, stride := BitVec.ofNat 32 stride, dim := BitVec.ofNat 32 (2 ^ 16 * h + w) }

/-- An UNCONFIGURED block programmed for an image: sources of stride `w` at 0x1000, 0x1100, 0x1200 and 0x1300. -/
def image (code channels planes w h : Nat) (d0 d1 d2 : Slot) (samples : List Host.Cell) : State :=
  { State.reset with
    format := BitVec.ofNat 4 code
    srcCount := BitVec.ofNat 3 channels
    dstCount := BitVec.ofNat 3 planes
    src0 := slot 0x1000 w w h
    src1 := slot 0x1100 w w h
    src2 := slot 0x1200 w w h
    src3 := slot 0x1300 w w h
    dst0 := d0
    dst1 := d1
    dst2 := d2
    mem := samples }

/-- The same block after a CONFIGURE that passed. -/
def ready (s : State) : State := { s with statusState := configured }

/-- Whether the job's pending bytes and kind are as given. -/
def jobIs (s : State) (k : JobKind) (cells : List Host.Cell) : Bool :=
  match s.job with
  | some j => j.kind == k && j.pending == cells
  | none => false

/-- Whether the job's kind and write set are as given, whatever its bytes. -/
def jobKindIs (s : State) (k : JobKind) (addrs : List Nat) : Bool :=
  match s.job with
  | some j => j.kind == k && j.wset == addrs
  | none => false

/-- V1: RGB888 2x2. -/
def rgb : State := image 1 3 1 2 2 (slot 0x2000 6 2 2) Slot.reset Slot.reset
  (bytesAt 0x1000 [1, 2, 3, 4] ++ bytesAt 0x1100 [5, 6, 7, 8] ++ bytesAt 0x1200 [9, 10, 11, 12])

/-- V20: RGBA8888 2x1. -/
def rgba : State := image 2 4 1 2 1 (slot 0x2000 8 2 1) Slot.reset Slot.reset
  (bytesAt 0x1000 [1, 2] ++ bytesAt 0x1100 [3, 4] ++ bytesAt 0x1200 [5, 6] ++ bytesAt 0x1300 [7, 8])

/-- V23: packed 2x1, code 3 or 4. -/
def packed (code : Nat) : State := image code 3 1 2 1 (slot 0x2000 4 2 1) Slot.reset Slot.reset
  (bytesAt 0x1000 [1, 2] ++ bytesAt 0x1100 [3, 4] ++ bytesAt 0x1200 [5, 6])

/-- V28: YUV444 3x1. -/
def yuv444 : State := image 5 3 3 3 1 (slot 0x2000 3 3 1) (slot 0x3000 3 3 1) (slot 0x4000 3 3 1)
  (bytesAt 0x1000 [1, 2, 3] ++ bytesAt 0x1100 [4, 5, 6] ++ bytesAt 0x1200 [7, 8, 9])

/-- The samples of V30 and V34. -/
def blockSamples : List Host.Cell :=
  bytesAt 0x1000 [1, 2, 3, 4] ++ bytesAt 0x1100 [5, 6, 7, 8] ++ bytesAt 0x1200 [9, 10, 11, 12]

/-- V30: IYUV 2x2. -/
def iyuv : State := image 6 3 3 2 2 (slot 0x2000 2 2 2) (slot 0x3000 1 1 1) (slot 0x4000 1 1 1) blockSamples

/-- V34: NV12 or NV21 2x2, code 7 or 8. -/
def semiplanar (code : Nat) : State :=
  image code 3 2 2 2 (slot 0x2000 2 2 2) (slot 0x3000 2 1 1) Slot.reset blockSamples

/-- V80: YUV444 1x1 with plane 0 over the U sample. -/
def overlapping : State := image 5 3 3 1 1 (slot 0x1100 1 1 1) (slot 0x3000 1 1 1) (slot 0x4000 1 1 1)
  (bytesAt 0x1000 [7] ++ bytesAt 0x1100 [8] ++ bytesAt 0x1200 [9])

/-- A job with one byte pending, in a busy block. -/
def oneByte (k : JobKind) : State :=
  { ready (image 5 3 3 1 1 (slot 0x2000 1 1 1) (slot 0x3000 1 1 1) (slot 0x4000 1 1 1) [(0x2000, 0)]) with
    statusState := busy
    job := some { pending := [(0x2000, 7)], wset := [0x2000], kind := k, before := [(0x2000, 0)] } }

/-- A job with nothing pending, in a busy block. -/
def noByte (k : JobKind) : State :=
  { oneByte .normal with
    mem := [(0x2000, 7)]
    job := some { pending := [], wset := [0x2000], kind := k, before := [(0x2000, 0)] } }

/-- A block after a reset, two writes of an abandoned job still in flight. -/
def inFlight : State :=
  { State.reset with mem := [(0x2000, 0), (0x2001, 0)], inFlight := [(0x2000, 7), (0x2001, 8)] }

/-- A busy block running V1, at acceptance. -/
def rgbBusy : State := startJob .rgb888 (ready rgb)

/-! ## Well-formedness: an ill-formed term for each check -/

theorem test_wf_write_misaligned : wellFormed (.regWrite 0x016 0) = false := by decide
theorem test_wf_read_misaligned : wellFormed (.regRead 0x001) = false := by decide
theorem test_wf_illegal_reserved_ok : wellFormed (.illegal 0x00000010) = true := by decide
theorem test_wf_illegal_legal_word : wellFormed (.illegal 0x00000003) = false := by decide
theorem test_wf_write_aligned : wellFormed (.regWrite 0xFFC 0) = true := by decide

/-! ## Decoding: words written out from 30_encoding.md R65, R66, R68 and opcode_table.json -/

/-- `W 0x014 0x00000001` (R75): dir = 1, off = 0x014; the data follows. -/
theorem test_decode_write : decodeBytes .regPort [0x14, 0x10, 0x01, 0x00, 0x00, 0x00] =
    .instr (.regWrite 0x014 0x00000001) [] := by decide
/-- `R 0x008` (R75): dir = 0, off = 0x008. -/
theorem test_decode_read : decodeBytes .regPort [0x08, 0x00] = .instr (.regRead 0x008) [] := by decide
/-- R79: a misaligned offset is refused. -/
theorem test_decode_misaligned : decodePort { header := 0x1006, width := .word, data := 0 } =
    .rejected .misalignedAccess := by decide
/-- R79: a halfword access is refused. -/
theorem test_decode_narrow : decodePort { header := 0x1004, width := .half, data := 1 } =
    .rejected .narrowAccess := by decide
/-- R66. -/
theorem test_decode_nop : decodeBytes .command [0x00, 0x00, 0x00, 0x00] = .instr .nop [] := by decide
theorem test_decode_configure : decodeBytes .command [0x01, 0x00, 0x00, 0x00] = .instr .configure [] := by decide
theorem test_decode_execute : decodeBytes .command [0x02, 0x00, 0x00, 0x00] = .instr .execute [] := by decide
theorem test_decode_softReset : decodeBytes .command [0x03, 0x00, 0x00, 0x00] = .instr .softReset [] := by decide
/-- R67, V12: OP 4, and a legal OP with the top reserved bit set. -/
theorem test_decode_illegal : decodeCommand 0x00000004 = .illegal 0x00000004 ∧
    decodeCommand 0x80000002 = .illegal 0x80000002 := by decide
/-- R68. -/
theorem test_decode_formats : (List.range 16).map (fun n => decodeTableWord 8 n) =
    [none, some .combineRgb888, some .combineRgba8888, some .combineYuyv422, some .combineUyvy422,
      some .combineYuv444, some .combineIyuv, some .combineNv12, some .combineNv21,
      none, none, none, none, none, none, none] := by decide
/-- R65: the last register, the hole after it, and the window's last word. -/
theorem test_regAt_edges : regAt 0x088 = .dstDim 2 ∧ regAt 0x08C = .reserved ∧ regAt 0xFFC = .reserved ∧
    regAt 0x058 = .srcDim 3 ∧ regAt 0x05C = .reserved ∧ regAt 0x060 = .dstBase 0 := by decide

/-! ## One step of each operation -/

/-- V8: reserved bits of FORMAT are dropped. -/
theorem test_regWrite_masks : nextIs (exec (.regWrite 0x014 0xFFFFFFF7) State.reset)
    (fun t => readReg t .format == 0x00000007) = true := by decide
/-- V11: a base is open in CONFIGURED, a dimension is not. -/
theorem test_regWrite_locks : nextIs (exec (.regWrite 0x060 0x3000) (ready rgb))
      (fun t => readReg t (.dstBase 0) == 0x3000) = true ∧
    nextIs (exec (.regWrite 0x028 0x00040004) (ready rgb))
      (fun t => readReg t (.srcDim 0) == 0x00020002) = true := by decide
/-- V7. -/
theorem test_regRead_id : nextIs (exec (.regRead 0x000) State.reset) (fun t => t.busData == 0x50430100) = true := by
  decide
/-- V12, V17 of STATUS's layout: ERR = 5 in CONFIGURED reads 0x51. -/
theorem test_regRead_status : nextIs (exec (.regRead 0x008) { ready rgb with statusErr := 5 })
    (fun t => t.busData == 0x00000051) = true := by decide
/-- V12: NOP leaves STATUS = 0x30. -/
theorem test_nop : nextIs (exec .nop { State.reset with statusErr := 3 })
    (fun t => t.statusWord == 0x30 && t.intStatus == 0) = true := by decide
/-- V1, V39. -/
theorem test_configure_passes : nextIs (exec .configure rgb)
    (fun t => t.statusWord == 0x01 && t.intStatus == 0) = true := by decide
/-- V47: the channel count is checked before the dimensions; V68: chroma given at full resolution. -/
theorem test_configure_order : nextIs (exec .configure { rgb with srcCount := 4, src0 := Slot.reset })
      (fun t => t.statusWord == 0x20 && t.intStatus == 2) = true ∧
    nextIs (exec .configure { iyuv with dst1 := slot 0x3000 2 2 2 })
      (fun t => t.statusWord == 0x40 && t.intStatus == 2) = true := by decide
/-- V12: an accepted EXECUTE clears ERR and leaves INT_STATUS.ERROR. -/
theorem test_execute_accepted : nextIs (exec .execute { ready rgb with statusErr := 5, intStatus := 2 })
    (fun t => t.statusWord == 0x02 && t.intStatus == 2) = true := by decide
/-- V12: EXECUTE in UNCONFIGURED. -/
theorem test_execute_refused : nextIs (exec .execute State.reset)
    (fun t => t.statusWord == 0x50 && t.intStatus == 2) = true := by decide
/-- R88's example. -/
theorem test_softReset : nextIs (exec .softReset (ready rgb))
    (fun t => t.statusWord == 0 && readReg t .format == 0 && t.mem == rgb.mem) = true := by decide
/-- R83's example: in CONFIGURED the word 4 gives STATUS = 0x51. -/
theorem test_illegal : nextIs (exec (.regWrite 0x004 0x00000004) (ready rgb))
    (fun t => t.statusWord == 0x51 && t.intStatus == 2) = true := by decide
/-- V12: in BUSY the word 0x00000013 is not a reset. -/
theorem test_illegal_busy : nextIs (exec (.regWrite 0x004 0x00000013) (oneByte .normal))
    (fun t => t == oneByte .normal) = true := by decide
/-- R86. -/
theorem test_engineWrite : nextIs (exec (.engineWrite 0x2000) (oneByte .normal))
    (fun t => readMem t 0x2000 == 7 && jobIs t .normal []) = true := by decide
/-- R87: DONE for a job without a bus error. -/
theorem test_engineComplete : nextIs (exec .engineComplete (noByte .collide))
    (fun t => t.statusWord == 0x01 && t.intStatus == 1) = true := by decide
/-- V81, V85: the end of a bus-error job. -/
theorem test_engineComplete_busError : nextIs (exec .engineComplete (noByte .busErr))
    (fun t => t.statusWord == 0x61 && t.intStatus == 2) = true := by decide
/-- V1. -/
theorem test_combineRgb888 : nextIs (exec .combineRgb888 (ready rgb))
    (fun t => jobIs t .normal (bytesAt 0x2000 [1, 5, 9, 2, 6, 10, 3, 7, 11, 4, 8, 12])) = true := by decide
/-- V77: a plane that wraps at the top of memory. -/
theorem test_combineRgb888_wraps : nextIs
    (exec .combineRgb888 (ready (image 1 3 1 1 1 (slot 0xFFFFFFFE 3 1 1) Slot.reset Slot.reset
      [(0x1000, 1), (0x1100, 2), (0x1200, 3)])))
    (fun t => jobIs t .normal [(0x00000000, 3), (0xFFFFFFFE, 1), (0xFFFFFFFF, 2)]) = true := by decide
/-- V20. -/
theorem test_combineRgba8888 : nextIs (exec .combineRgba8888 (ready rgba))
    (fun t => jobIs t .normal (bytesAt 0x2000 [1, 3, 5, 7, 2, 4, 6, 8])) = true := by decide
/-- V23. -/
theorem test_combineYuyv422 : nextIs (exec .combineYuyv422 (ready (packed 3)))
    (fun t => jobIs t .normal (bytesAt 0x2000 [1, 3, 2, 5])) = true := by decide
/-- V25: a destination over the unselected U sample is no collision. -/
theorem test_combineYuyv422_unselected : nextIs
    (exec .combineYuyv422 (ready { packed 3 with dst0 := slot 0x1101 4 2 1 }))
    (fun t => jobIs t .normal (bytesAt 0x1101 [1, 3, 2, 5])) = true := by decide
/-- V23. -/
theorem test_combineUyvy422 : nextIs (exec .combineUyvy422 (ready (packed 4)))
    (fun t => jobIs t .normal (bytesAt 0x2000 [3, 1, 5, 2])) = true := by decide
/-- V28. -/
theorem test_combineYuv444 : nextIs (exec .combineYuv444 (ready yuv444))
    (fun t => jobIs t .normal (bytesAt 0x2000 [1, 2, 3] ++ bytesAt 0x3000 [4, 5, 6] ++ bytesAt 0x4000 [7, 8, 9])) =
    true := by decide
/-- V80: a destination over a source; V81: with a bus error as well. -/
theorem test_combineYuv444_kinds : nextIs (exec .combineYuv444 (ready overlapping))
      (fun t => jobKindIs t .collide [0x1100, 0x3000, 0x4000]) = true ∧
    nextIs (exec .combineYuv444 { ready overlapping with busErrors := [{ first := 0x4000, count := 1 }] })
      (fun t => jobKindIs t .busErr [0x1100, 0x3000, 0x4000]) = true := by decide
/-- V30. -/
theorem test_combineIyuv : nextIs (exec .combineIyuv (ready iyuv))
    (fun t => jobIs t .normal (bytesAt 0x2000 [1, 2, 3, 4] ++ [(0x3000, 5), (0x4000, 9)])) = true := by decide
/-- V34. -/
theorem test_combineNv12 : nextIs (exec .combineNv12 (ready (semiplanar 7)))
    (fun t => jobIs t .normal (bytesAt 0x2000 [1, 2, 3, 4] ++ bytesAt 0x3000 [5, 9])) = true := by decide
/-- V34. -/
theorem test_combineNv21 : nextIs (exec .combineNv21 (ready (semiplanar 8)))
    (fun t => jobIs t .normal (bytesAt 0x2000 [1, 2, 3, 4] ++ bytesAt 0x3000 [9, 5])) = true := by decide

/-! ## Steps, and the interrupt line -/

/-- V12: CONFIGURE with nothing programmed, as the first step after reset. -/
theorem test_step_configure : nextIs (step (State.reset.withFetchWord 32 0x00000001))
    (fun t => t.statusWord == 0x10 && t.intStatus == 2) = true := by decide
/-- A format code runs its combine as the first step. -/
theorem test_step_combine : nextIs (step (State.reset.withFetchWord 8 0x7))
    (fun t => t.statusWord == 0x02) = true := by decide
/-- A slot picks among the pending addresses: the last byte of V1's image, (1, 1) of channel 2, is 12. -/
theorem test_step_engine_picks : nextIs (step { rgbBusy with moves := [.engine 11] })
    (fun t => readMem t 0x200B == 12) = true := by decide

/-- R161: the write in flight that the slot picks lands, the other stays in flight. -/
theorem test_step_lands : nextIs (step { inFlight with moves := [.engine 1] })
    (fun t => readMem t 0x2001 == 8 && readMem t 0x2000 == 0 && t.inFlight == [(0x2000, 7)]) = true := by decide

/-- V84: enabling a pending source raises irq at once. -/
theorem test_irq : nextIs (exec (.regWrite 0x010 2) { State.reset with intStatus := 2 }) (fun t => t.irq) = true := by
  decide
/-- R159: no transaction while rst_n is asserted. -/
theorem test_reset_input : step { State.reset with rstN := false, moves := [.port (commandRequest 0)] } =
    .refused .transactionDuringReset := rfl

/-! ## Witnesses: for each statement with hypotheses, a state and operands that meet all of them

A statement with several clauses has a witness for each. -/

theorem witness_DecodingAnEncodingGivesItBack :
    wellFormed (.regWrite 0xFFC 0xFFFFFFFF) = true ∧ spaceOf (.regWrite 0xFFC 0xFFFFFFFF) ≠ .engine ∧
    wellFormed (.illegal 0xFFFFFFFF) = true ∧ spaceOf (.illegal 0xFFFFFFFF) ≠ .engine := by decide

theorem witness_DecodedBytesAreTheEncoding :
    decodeBytes .command [0x04, 0x00, 0x00, 0x00, 0xEE] = .instr (.illegal 0x00000004) [0xEE] ∧
    decodeBytes .regPort [0xFC, 0x0F] = .instr (.regRead 0xFFC) [] ∧
    decodeBytes .formatCode [0x08] = .instr .combineNv21 [] := by decide

theorem witness_IllegalCommandWords :
    4 ≤ ((0x00000004 : Word).extractLsb' 0 4).toNat ∧ (0x00000010 : Word).extractLsb' 4 28 ≠ 0#28 ∧
    ¬((0x00000003 : Word).extractLsb' 4 28 ≠ 0#28 ∨ 4 ≤ ((0x00000003 : Word).extractLsb' 0 4).toNat) ∧
    (ready rgb).statusState ≠ busy ∧ rgbBusy.statusState = busy := by decide

theorem witness_RegisterMapHasNoAlias :
    Reg.dstDim 2 ≠ .reserved ∧ regAt 0x088 ≠ .reserved ∧ regAt 0x088 = regAt 0x088 ∧
    (0x08C : BitVec 12).toNat % 4 = 0 ∧ regAt 0x08C = .reserved ∧
    (0x090 : BitVec 12).toNat % 4 = 0 ∧ regAt 0x090 = .reserved := by decide

/-- A state whose next move is a request for EXECUTE. -/
def asked : State := { ready rgb with moves := [.port (commandRequest 0x00000002)] }

theorem witness_StepRunsTheRequest :
    asked.moves = .port (commandRequest 0x00000002) :: [] ∧ asked.rstN = true ∧
    decodePort (commandRequest 0x00000002) = .instr (.regWrite 0x004 0x00000002) := by decide

theorem witness_StepRunsTheEngine :
    (oneByte .normal).statusState = busy ∧
    (oneByte .normal).job = some { pending := [(0x2000, 7)], wset := [0x2000], kind := .normal, before := [(0x2000, 0)] } ∧
    Memory.wf [(0x2000, (7 : Byte))] ∧ (oneByte .normal).moves = [] ∧
    (0x2000 : Word).toNat ∈ [(0x2000, (7 : Byte))].map Prod.fst ∧
    { oneByte .normal with moves := [.engine 5] }.moves = .engine 5 :: [] := by decide

theorem witness_StepRunsTheEngine_nothing_pending :
    (noByte .normal).statusState = busy ∧
    (noByte .normal).job = some { pending := [], wset := [0x2000], kind := .normal, before := [(0x2000, 0)] } ∧
    Memory.wf [] ∧ (noByte .normal).moves = [] := by decide

theorem witness_GeometryRegistersLock :
    geometryReg .format = true ∧ geometryReg (.dstDim 2) = true ∧ (ready rgb).statusState ≠ unconfigured ∧
    rgb.statusState = unconfigured := by decide

theorem witness_BaseRegistersLockInBusy :
    baseReg (.srcBase 3) = true ∧ baseReg (.dstBase 2) = true ∧ rgbBusy.statusState = busy ∧
    (ready rgb).statusState ≠ busy := by decide

theorem witness_RegReadReturnsTheRegister :
    (0xFFC : BitVec 12).toNat % 4 = 0 ∧ rgb.statusState = unconfigured := by decide

theorem witness_UnadmittedAccessesAreRefused :
    (0xFFF : BitVec 12).toNat % 4 ≠ 0 ∧
    { State.reset with moves := [.port { header := 0x1004, width := .byte, data := 3 }] }.moves =
      .port { header := 0x1004, width := .byte, data := 3 } :: [] ∧ State.reset.rstN = true ∧
    AccessWidth.byte ≠ .word ∧
    { State.reset with moves := [.port { header := 0x1FFF, width := .word, data := 3 }] }.moves =
      .port { header := 0x1FFF, width := .word, data := 3 } :: [] ∧
    (0x1FFF : BitVec 16).toNat < 2 ^ 13 ∧ (0x1FFF : BitVec 16).toNat % 4 ≠ 0 := by decide

theorem witness_RegWriteFrame :
    (0x060 : BitVec 12) ≠ 0x004 ∧ exec (.regWrite 0x060 0x3000) (ready rgb) =
      .next { ready rgb with dst0 := { (ready rgb).dst0 with base := 0x3000 } } := ⟨by decide, rfl⟩

theorem witness_CommandWordActs : rgbBusy.statusState = busy ∧ rgb.statusState ≠ busy := by decide

theorem witness_IllegalWordFails :
    wellFormed (.illegal 0x00000004) = true ∧ State.reset.statusState ≠ busy := by decide

/-- The configuration of V1 passes every check. -/
theorem rgb_validated : Validated rgb := (validate_eq_none_iff rgb).1 (by decide)

theorem witness_ConfigureAcceptsValid : rgb.statusState = unconfigured ∧ Validated rgb := ⟨rfl, rgb_validated⟩

theorem witness_ConfigureRejectsInvalid : State.reset.statusState = unconfigured ∧ ¬ Validated State.reset :=
  ⟨rfl, fun h => absurd ((validate_eq_none_iff _).2 h) (by decide)⟩

theorem witness_UnsupportedFormatReported :
    State.reset.statusState = unconfigured ∧ State.reset.format.toNat = 0 ∧
    { rgb with format := 9 }.statusState = unconfigured ∧ 9 ≤ { rgb with format := 9 }.format.toNat ∧
    exec .configure State.reset = .next (fail .unsupportedFormat State.reset) ∧
    (fail .unsupportedFormat State.reset).statusErr = 1#4 ∧ State.reset.statusErr ≠ 1#4 :=
  ⟨rfl, rfl, rfl, by decide, rfl, rfl, by decide⟩

/-- V44 and V48. -/
theorem witness_ChannelCountMismatchReported :
    { rgb with srcCount := 4 }.statusState = unconfigured ∧ { rgb with srcCount := 4 }.selected = some .rgb888 ∧
    { rgb with srcCount := 4 }.srcCount.toNat ≠ (if Format.rgb888 = .rgba8888 then 4 else 3) ∧
    { rgba with srcCount := 3 }.statusState = unconfigured ∧ { rgba with srcCount := 3 }.selected = some .rgba8888 ∧
    { rgba with srcCount := 3 }.srcCount.toNat ≠ (if Format.rgba8888 = .rgba8888 then 4 else 3) := by decide

/-- V51, V54, V55 and V58: one state for each of the four causes. -/
theorem witness_ShapeMismatchReported :
    (let s := { rgb with src0 := slot 0x1000 2 0 2 }
     s.statusState = unconfigured ∧ s.selected = some .rgb888 ∧ s.srcCount.toNat = channelCount .rgb888 ∧
       (0 : Fin 4).val < channelCount .rgb888 ∧ (s.src 0).width = 0) ∧
    (let s := { rgb with src1 := slot 0x1100 3 3 2 }
     s.statusState = unconfigured ∧ s.selected = some .rgb888 ∧ s.srcCount.toNat = channelCount .rgb888 ∧
       (2 : Fin 4).val < channelCount .rgb888 ∧ (s.src 1).width ≠ (s.src 2).width) ∧
    (let s := { rgb with src2 := slot 0x1200 1 2 2 }
     s.statusState = unconfigured ∧ s.selected = some .rgb888 ∧ s.srcCount.toNat = channelCount .rgb888 ∧
       (s.src 2).stride.toNat < (s.src 2).width) ∧
    (let s := image 6 3 3 3 4 Slot.reset Slot.reset Slot.reset []
     s.statusState = unconfigured ∧ s.selected = some .iyuv ∧ s.srcCount.toNat = channelCount .iyuv ∧
       s.imageW % (describe .iyuv).sx ≠ 0) := by decide

/-- Format, count and shapes of RGB888 are correct in a state. -/
abbrev shapesPass (s : State) : Prop :=
  s.statusState = unconfigured ∧ s.selected = some .rgb888 ∧ s.srcCount.toNat = channelCount .rgb888 ∧
  (∀ c : Fin 4, c.val < channelCount .rgb888 →
    1 ≤ (s.src c).width ∧ 1 ≤ (s.src c).height ∧ (s.src c).width = s.imageW ∧ (s.src c).height = s.imageH ∧
    (s.src c).width ≤ (s.src c).stride.toNat) ∧
  s.imageW % (describe .rgb888).sx = 0 ∧ s.imageH % (describe .rgb888).sy = 0

/-- V63, V66 and V70: one state for each of the three causes. -/
theorem witness_DestGeometryMismatchReported :
    (let s := { rgb with dstCount := 0 }
     shapesPass s ∧ s.dstCount.toNat ≠ planeCount .rgb888) ∧
    (let s := { rgb with dst0 := slot 0x2000 6 2 1 }
     shapesPass s ∧ (0 : Fin 3).val < planeCount .rgb888 ∧ (s.dst 0).height ≠ s.imageH / (planeDesc .rgb888 0).dy) ∧
    (let s := { rgb with dst0 := slot 0x2000 5 2 2 }
     shapesPass s ∧ (s.dst 0).stride.toNat <
       s.imageW / (planeDesc .rgb888 0).dx * (planeDesc .rgb888 0).elemBytes) := by decide

theorem witness_IllegalCommandReported :
    rgb.statusState ≠ busy ∧ wellFormed (.illegal 0x00000011) = true ∧
    (ready rgb).statusState ≠ busy ∧ (ready rgb).statusState = configured ∧
    State.reset.statusState ≠ busy ∧ State.reset.statusState = unconfigured := by decide

theorem witness_SoftResetClearsTheBlock : (ready rgb).job = none := by decide

theorem witness_AbandonedJobLeavesOldOrNew :
    (oneByte .normal).job = some { pending := [(0x2000, 7)], wset := [0x2000], kind := .normal, before := [(0x2000, 0)] } ∧
    0x2001 ∉ [0x2000] ∧ 0x2000 ∈ [0x2000] := by decide

/-- What a combine asks for, and that its job is NORMAL: V1, V20, V23, V28, V30 and V34. -/
theorem witness_Combines :
    ((ready rgb).statusState = configured ∧ (ready rgb).format = 1#4 ∧ jobKind (ready rgb) .rgb888 = .normal) ∧
    ((ready rgba).statusState = configured ∧ (ready rgba).format = 2#4 ∧ jobKind (ready rgba) .rgba8888 = .normal) ∧
    ((ready (packed 3)).statusState = configured ∧ (ready (packed 3)).format = 3#4 ∧
      (ready (packed 3)).imageW % 2 = 0 ∧ jobKind (ready (packed 3)) .yuyv422 = .normal) ∧
    ((ready (packed 4)).statusState = configured ∧ (ready (packed 4)).format = 4#4 ∧
      (ready (packed 4)).imageW % 2 = 0 ∧ jobKind (ready (packed 4)) .uyvy422 = .normal) ∧
    ((ready yuv444).statusState = configured ∧ (ready yuv444).format = 5#4 ∧
      jobKind (ready yuv444) .yuv444 = .normal) ∧
    ((ready iyuv).statusState = configured ∧ (ready iyuv).format = 6#4 ∧ jobKind (ready iyuv) .iyuv = .normal) ∧
    ((ready (semiplanar 7)).statusState = configured ∧ (ready (semiplanar 7)).format = 7#4 ∧
      jobKind (ready (semiplanar 7)) .nv12 = .normal) ∧
    ((ready (semiplanar 8)).statusState = configured ∧ (ready (semiplanar 8)).format = 8#4 ∧
      jobKind (ready (semiplanar 8)) .nv21 = .normal) := by decide

theorem witness_ExecuteRunsTheSelectedCombine :
    (ready rgb).statusState = configured ∧ (ready rgb).selected = some .rgb888 := by decide

/-- A NORMAL, a colliding and a bus-error job (V1, V80, V81). -/
theorem witness_AcceptedJobRecord :
    ((ready rgb).statusState = configured ∧ (ready rgb).selected = some .rgb888 ∧
      exec .execute (ready rgb) = .next rgbBusy ∧ rgbBusy.job = some (newJob (ready rgb) .rgb888)) ∧
    ((ready overlapping).statusState = configured ∧ (ready overlapping).selected = some .yuv444 ∧
      exec .execute (ready overlapping) = .next (startJob .yuv444 (ready overlapping)) ∧
      (newJob (ready overlapping) .yuv444).kind = .collide) :=
  ⟨⟨rfl, rfl, rfl, rfl⟩, rfl, rfl, rfl, by decide⟩

theorem witness_ExecuteOutsideConfigured :
    rgbBusy.statusState = busy ∧ rgbBusy.selected = some .rgb888 ∧ rgb.statusState = unconfigured ∧
    rgb.selected = some .rgb888 ∧ rgb.selected ≠ some .nv12 := by decide

theorem witness_EngineWriteStoresOneByte :
    (oneByte .normal).statusState = busy ∧
    (oneByte .normal).job = some { pending := [(0x2000, 7)], wset := [0x2000], kind := .normal, before := [(0x2000, 0)] } ∧
    cellGet [(0x2000, (7 : Byte))] (0x2000 : Word).toNat = some 7 := by decide

theorem witness_EngineCompleteEndsTheJob :
    ((noByte .normal).statusState = busy ∧ (noByte .normal).job =
      some { pending := [], wset := [0x2000], kind := .normal, before := [(0x2000, 0)] } ∧ JobKind.normal ≠ .busErr) ∧
    ((noByte .busErr).statusState = busy ∧ (noByte .busErr).job =
      some { pending := [], wset := [0x2000], kind := .busErr, before := [(0x2000, 0)] }) := by decide

theorem witness_EngineStepsNotEnabled :
    (ready rgb).statusState ≠ busy ∧
    (oneByte .normal).job = some { pending := [(0x2000, 7)], wset := [0x2000], kind := .normal, before := [(0x2000, 0)] } ∧
    cellGet [(0x2000, (7 : Byte))] (0x2001 : Word).toNat = none ∧ [((0x2000 : Nat), (7 : Byte))] ≠ [] := by decide

theorem witness_OnlyTheEngineWritesMemory :
    exec (.engineWrite 0x2000) (oneByte .normal) =
      .next (engineWrite (oneByte .normal)
        { pending := [(0x2000, 7)], wset := [0x2000], kind := .normal, before := [(0x2000, 0)] } 0x2000 7) ∧
    readMem (engineWrite (oneByte .normal)
        { pending := [(0x2000, 7)], wset := [0x2000], kind := .normal, before := [(0x2000, 0)] } 0x2000 7) 0x2000 ≠
      readMem (oneByte .normal) 0x2000 := ⟨rfl, by decide⟩

/-- Whether a step answers a next state in which a byte of memory reads differently. -/
def stepChanges (s : State) (a : Nat) : Bool := nextIs (step s) fun t => readMem t a != readMem s a

/-- A step of each of the four kinds that change a byte: a host write, ENGINE_WRITE, a landed write, and a transaction
that cannot (it only drops what is in flight). -/
theorem witness_OnlyTheEngineWritesMemory_step :
    stepChanges { ready rgb with moves := [.hostWrite 0x1000 9] } 0x1000 = true ∧
    stepChanges { oneByte .normal with moves := [.engine 0] } 0x2000 = true ∧
    stepChanges { inFlight with moves := [.engine 1] } 0x2001 = true ∧
    stepChanges { inFlight with moves := [.port (commandRequest 0)] } 0x2001 = false := by decide

theorem witness_LandedWriteStoresOneByte :
    (inFlight.statusState ≠ busy ∧ { inFlight with moves := [.engine 1] }.moves = .engine 1 :: [] ∧
      inFlight.inFlight ≠ [] ∧ (0x2001, (8 : Byte)) ∈ inFlight.inFlight) ∧
    (State.reset.job = none ∧ State.reset.inFlight = []) := by decide

theorem witness_OnlyTheHostWritesRegisters :
    exec .execute (ready rgb) = .next rgbBusy ∧ (∀ off d, Instr.execute ≠ .regWrite off d) ∧
    Instr.execute ≠ .softReset :=
  ⟨rfl, fun _ _ h => Instr.noConfusion h, fun h => Instr.noConfusion h⟩

/-- The invariant of a busy block, from its parts. -/
theorem invariant_of_started {s : State} {f : Format} (hs : s.selected = some f) (hv : validate s = none)
    (hm : Memory.wf s.mem) (hf : Memory.wf s.inFlight) : Invariant (startJob f s) := by
  have hc : SameConfig s (startJob f s) := .of_fields rfl rfl rfl ⟨rfl, rfl, rfl, rfl⟩ ⟨rfl, rfl, rfl⟩ rfl
  have h3 : ¬ busy = 3#2 := by decide
  refine ⟨h3, (by decide : (0#4 : BitVec 4).toNat ≤ 6), by simp, fun _ => ?_, fun g j hg hj => ?_, hm, hf⟩
  · obtain ⟨g, h⟩ := (validate_eq_none_iff s).1 hv
    exact ⟨g, hc.validFor h⟩
  · rw [hc.selected, hs] at hg
    cases hg
    simp only [startJob_job, Option.some.injEq] at hj
    subst hj
    exact hc.jobFits (newJob_fits s f)

/-- A job that just started has broken no promise. -/
theorem faithful_of_started {s : State} {f : Format} (hs : s.selected = some f) : JobFaithful (startJob f s) := by
  intro g j hg hj hk q hq
  have hc : SameConfig s (startJob f s) := .of_fields rfl rfl rfl ⟨rfl, rfl, rfl, rfl⟩ ⟨rfl, rfl, rfl⟩ rfl
  rw [hc.selected, hs] at hg
  cases hg
  simp only [startJob_job, Option.some.injEq] at hj
  subst hj
  rw [hc.jobPositions] at hq
  have hk : jobKind s f = .normal := hk
  have hb : cellGet (newJob s f).pending (dstAddr s f q) = some (sampleAt s (select f q)) := jobBytes_at hk hq
  rw [hc.dstAddr, byteOfJob, hb]
  simp only [Option.getD_some, sampleAt, hc.srcAddr]
  rfl

/-- Whether an outcome is a next state. -/
theorem exists_next {r : Result} (h : nextIs r (fun _ => true) = true) : ∃ t, r = .next t := by
  cases r with
  | next t => exact ⟨t, rfl⟩
  | fault _ => cases h
  | refused _ => cases h

/-- V1's job at acceptance, with a slot of the engine as the next move. -/
def rgbEngine : State := startJob .rgb888 { ready rgb with moves := [.engine 0] }

theorem witness_StepKeepsTheInvariant : ∃ t, Invariant rgbEngine ∧ step rgbEngine = .next t := by
  obtain ⟨t, ht⟩ := exists_next (r := step rgbEngine) (by decide)
  exact ⟨t, invariant_of_started rfl (by decide) (by decide) (by decide), ht⟩

theorem witness_StepKeepsTheJobFaithful : ∃ t, Invariant rgbEngine ∧ JobFaithful rgbEngine ∧ step rgbEngine = .next t := by
  obtain ⟨t, ht⟩ := exists_next (r := step rgbEngine) (by decide)
  exact ⟨t, invariant_of_started rfl (by decide) (by decide) (by decide), faithful_of_started rfl, ht⟩

/-- The addresses of V1's plane. -/
def rgbOrder : List Word := (List.range 12).map fun n => BitVec.ofNat 32 (0x2000 + n)

theorem rgbOrder_eq : rgbOrder.map BitVec.toNat = writeSet (ready rgb) .rgb888 := by decide

theorem witness_NormalJobWritesTheImage :
    (ready rgb).statusState = configured ∧ (ready rgb).selected = some .rgb888 ∧
    jobKind (ready rgb) .rgb888 = .normal ∧ (rgbOrder.map BitVec.toNat).Perm (writeSet (ready rgb) .rgb888) :=
  ⟨rfl, rfl, by decide, .of_eq rgbOrder_eq⟩

theorem witness_LumaRoundTrip :
    (ready (semiplanar 7)).statusState = configured ∧ (ready (semiplanar 7)).selected = some .nv12 ∧
    jobKind (ready (semiplanar 7)) .nv12 = .normal ∧
    (([0x3001, 0x3000, 0x2003, 0x2002, 0x2001, 0x2000] : List Word).map BitVec.toNat).Perm
      (writeSet (ready (semiplanar 7)) .nv12) := ⟨rfl, rfl, by decide, by decide⟩

theorem witness_WriteOrderDoesNotShow :
    Memory.wf (ready rgb).mem ∧ (ready rgb).statusState = configured ∧ (ready rgb).selected = some .rgb888 ∧
    (rgbOrder.map BitVec.toNat).Perm (writeSet (ready rgb) .rgb888) ∧
    (rgbOrder.reverse.map BitVec.toNat).Perm (writeSet (ready rgb) .rgb888) := by
  refine ⟨by decide, rfl, rfl, .of_eq rgbOrder_eq, ?_⟩
  rw [List.map_reverse, rgbOrder_eq]
  exact List.reverse_perm _

theorem witness_JobEnds : ∃ j, Invariant rgbBusy ∧ rgbBusy.moves = [] ∧ rgbBusy.job = some j :=
  ⟨newJob (ready rgb) .rgb888, invariant_of_started rfl (by decide) (by decide) (by decide), rfl, rfl⟩

theorem witness_SelectionFollowsTheDescriptor :
    evenEnough .nv21 4 2 = true ∧ { p := 1, x := 1, y := 0, k := 1 } ∈ positions .nv21 4 2 := by decide

/-- The job of the busy block of V1, to which the witnesses below refer. -/
theorem rgbBusy_job : rgbBusy.job = some (newJob (ready rgb) .rgb888) := rfl

theorem witness_HostMemoryAccesses :
    ({ ready rgb with moves := [.hostWrite 0x2000 9] }.moves = .hostWrite 0x2000 9 :: [] ∧ (ready rgb).job = none) ∧
    ({ rgbBusy with moves := [.hostWrite 0x200C 9] }.moves = .hostWrite 0x200C 9 :: [] ∧
      (0x200C : Word).toNat ∉ (newJob (ready rgb) .rgb888).wset ∧
      rgbBusy.selected = some .rgb888 ∧ (0x200C : Word).toNat ∉ readSet rgbBusy .rgb888) ∧
    ({ oneByte .collide with moves := [.hostRead 0x2000] }.moves = .hostRead 0x2000 :: [] ∧
      (oneByte .collide).job = some { pending := [(0x2000, 7)], wset := [0x2000], kind := .collide, before := [(0x2000, 0)] } ∧
      (0x2000 : Word).toNat ∈ [0x2000] ∧ JobKind.collide ≠ .normal) ∧
    ({ rgbBusy with moves := [.hostWrite 0x2000 9] }.moves = .hostWrite 0x2000 9 :: [] ∧
      rgbBusy.selected = some .rgb888 ∧ (0x2000 : Word).toNat ∈ (newJob (ready rgb) .rgb888).wset) ∧
    ({ rgbBusy with moves := [.hostWrite 0x1203 9] }.moves = .hostWrite 0x1203 9 :: [] ∧
      (0x1203 : Word).toNat ∈ readSet rgbBusy .rgb888) ∧
    ({ rgbBusy with moves := [.hostRead 0x200B] }.moves = .hostRead 0x200B :: [] ∧
      (0x200B : Word).toNat ∈ (newJob (ready rgb) .rgb888).wset ∧ (newJob (ready rgb) .rgb888).kind = .normal) ∧
    ({ rgbBusy with moves := [.hostRead 0x200C] }.moves = .hostRead 0x200C :: [] ∧
      (0x200C : Word).toNat ∉ (newJob (ready rgb) .rgb888).wset) := by decide

theorem witness_ResetInputResets :
    { rgbBusy with moves := [.rstAssert] }.moves = .rstAssert :: [] ∧
    { State.reset with rstN := false, moves := [.rstRelease] }.moves = .rstRelease :: [] ∧
    { State.reset with rstN := false, moves := [.port (commandRequest 0)] }.moves = .port (commandRequest 0) :: [] ∧
    { State.reset with rstN := false }.rstN = false := by decide

theorem witness_OtherInstanceCollides :
    { rgbBusy with moves := [.otherJob [0x200B] []] }.moves = .otherJob [0x200B] [] :: [] ∧
    rgbBusy.selected = some .rgb888 ∧ rgbBusy.job = some (newJob (ready rgb) .rgb888) ∧
    (newJob (ready rgb) .rgb888).kind = .normal ∧ 0x200B ∈ (newJob (ready rgb) .rgb888).wset ∧
    0x1000 ∈ readSet rgbBusy .rgb888 ∧ 0x1000 ∉ (newJob (ready rgb) .rgb888).wset ∧
    0x200C ∉ (newJob (ready rgb) .rgb888).wset ∧ 0x200C ∉ readSet rgbBusy .rgb888 := by
  refine ⟨rfl, rfl, rfl, ?_⟩
  decide

end Sys2Proof.Tests
end

/-! ## What a register write stores

The locks of 10_state.md R32 and R33 and the value a write of an unlocked register leaves. -/

section
namespace Sys2Proof.Machine

/-- A geometry register is one a write stores in: neither reserved nor CMD. -/
theorem geometryReg_stored {r : Reg} (h : geometryReg r = true) : r ≠ .reserved ∧ r ≠ .cmd := by
  constructor <;> rintro rfl <;> cases h

/-- A base register is one a write stores in: neither reserved nor CMD. -/
theorem baseReg_stored {r : Reg} (h : baseReg r = true) : r ≠ .reserved ∧ r ≠ .cmd := by
  constructor <;> rintro rfl <;> cases h

theorem unlessConfigured_locked {s : State} (h : s.statusState ≠ unconfigured) (t : State) :
    unlessConfigured s t = s := if_neg h

theorem unlessConfigured_open {s : State} (h : s.statusState = unconfigured) (t : State) :
    unlessConfigured s t = t := if_pos h

theorem unlessBusy_locked {s : State} (h : s.statusState = busy) (t : State) : unlessBusy s t = s := if_pos h

theorem unlessBusy_open {s : State} (h : s.statusState ≠ busy) (t : State) : unlessBusy s t = t := if_neg h

theorem ne_busy_of_unconfigured {s : State} (h : s.statusState = unconfigured) : s.statusState ≠ busy := by
  rw [h]; decide

/-- Outside UNCONFIGURED a write of a geometry register is ignored (R32). -/
theorem writeReg_geometry_locked {s : State} {r : Reg} (hr : geometryReg r = true)
    (h : s.statusState ≠ unconfigured) (d : Word) : writeReg s r d = s := by
  cases r with
  | format | srcCount | dstCount | srcStride | srcDim | dstStride | dstDim => exact unlessConfigured_locked h _
  | _ => cases hr

/-- In UNCONFIGURED a geometry register takes the defined bits of the data (R23 to R31). -/
theorem readReg_writeReg_geometry {s : State} {r : Reg} (hr : geometryReg r = true)
    (h : s.statusState = unconfigured) (d : Word) : readReg (writeReg s r d) r = d &&& definedBits r := by
  cases r with
  | format => rw [writeReg, unlessConfigured_open h]; exact low4_setWidth d
  | srcCount | dstCount => rw [writeReg, unlessConfigured_open h]; exact low3_setWidth d
  | srcStride | srcDim | dstStride | dstDim =>
    simp [writeReg, unlessConfigured_open h, readReg, src_setSrc, dst_setDst, definedBits, and_allBits]
  | _ => cases hr

/-- In BUSY a write of a base register is ignored (R33). -/
theorem writeReg_base_locked {s : State} {r : Reg} (hr : baseReg r = true) (h : s.statusState = busy) (d : Word) :
    writeReg s r d = s := by
  cases r with
  | srcBase c => exact unlessBusy_locked h _
  | dstBase p => exact unlessBusy_locked h _
  | _ => cases hr

/-- Outside BUSY a base register takes the data. -/
theorem readReg_writeReg_base {s : State} {r : Reg} (hr : baseReg r = true) (h : s.statusState ≠ busy) (d : Word) :
    readReg (writeReg s r d) r = d := by
  cases r with
  | srcBase c => simp [writeReg, unlessBusy_open h, readReg, src_setSrc]
  | dstBase p => simp [writeReg, unlessBusy_open h, readReg, dst_setDst]
  | _ => cases hr

/-! ### Slots -/

section
variable {s : State} (h : s.statusState = unconfigured) (d : Word)
include h

theorem src_writeReg_srcBase (c : Fin 4) : (writeReg s (.srcBase c) d).src c = { s.src c with base := d } := by
  simp [writeReg, unlessBusy_open (ne_busy_of_unconfigured h), src_setSrc]

theorem src_writeReg_srcStride (c : Fin 4) :
    (writeReg s (.srcStride c) d).src c = { s.src c with stride := d } := by
  simp [writeReg, unlessConfigured_open h, src_setSrc]

theorem src_writeReg_srcDim (c : Fin 4) : (writeReg s (.srcDim c) d).src c = { s.src c with dim := d } := by
  simp [writeReg, unlessConfigured_open h, src_setSrc]

theorem dst_writeReg_dstBase (p : Fin 3) : (writeReg s (.dstBase p) d).dst p = { s.dst p with base := d } := by
  simp [writeReg, unlessBusy_open (ne_busy_of_unconfigured h), dst_setDst]

theorem dst_writeReg_dstStride (p : Fin 3) :
    (writeReg s (.dstStride p) d).dst p = { s.dst p with stride := d } := by
  simp [writeReg, unlessConfigured_open h, dst_setDst]

theorem dst_writeReg_dstDim (p : Fin 3) : (writeReg s (.dstDim p) d).dst p = { s.dst p with dim := d } := by
  simp [writeReg, unlessConfigured_open h, dst_setDst]

end

/-- A read of a register by name finds it at its offset. -/
theorem readReg_regAt_regOffset (s : State) {r : Reg} (h : r ≠ .reserved) :
    readReg s (regAt (regOffset r)) = readReg s r := by rw [regAt_regOffset h]

/-- STATUS as a number: ERR starts at bit 4, STATE at bit 0 (R17). -/
theorem statusWord_toNat (s : State) : s.statusWord.toNat = 16 * s.statusErr.toNat + s.statusState.toNat := by
  have := s.statusErr.isLt
  have := s.statusState.isLt
  simp only [State.statusWord, BitVec.toNat_ofNat]
  omega

/-- Bit by bit, a write of INT_STATUS keeps the pending bits not written as 1 (R20). -/
theorem getLsbD_clearIntStatus (pending : BitVec 2) (d : Word) {k : Nat} (hk : k < 2) :
    (clearIntStatus pending d).getLsbD k = (pending.getLsbD k && !d.getLsbD k) := by
  simp [clearIntStatus, hk]

end Sys2Proof.Machine
end

/-! ## Which operations leave the programming registers alone -/

section
namespace Sys2Proof.Machine

/-- What EXECUTE can answer with: it is ignored, it is an error, or a job starts. -/
theorem exec_execute_next {s t : State} (h : exec .execute s = .next t) :
    t = s ∨ t = fail .illegalCommand s ∨ ∃ f, t = startJob f s := by
  simp only [exec, execExecute, executeProtocol] at h
  split at h
  · cases h; exact .inl rfl
  · split at h
    · cases h; exact .inr (.inl rfl)
    · split at h <;> cases h
      exact .inr (.inr ⟨_, rfl⟩)

/-- A combine answers a next state only where it is EXECUTE. -/
theorem exec_execute_of_combine {s t : State} {f : Format} (h : exec (combineOf f) s = .next t) :
    exec .execute s = .next t := by
  by_cases hf : s.selected = some f
  · rwa [← exec_combine_selected hf]
  · rw [exec_combine_unselected hf] at h; cases h

theorem SameProgramming.refl (s : State) : SameProgramming s s := by constructor <;> intros <;> rfl

theorem sameProgramming_fail (e : ErrCode) (s : State) : SameProgramming s (fail e s) := by
  constructor <;> intros <;> rfl

theorem sameProgramming_startJob (f : Format) (s : State) : SameProgramming s (startJob f s) := by
  constructor <;> intros <;> rfl

theorem sameProgramming_engineWrite (s : State) (j : Job) (a : Nat) (v : Byte) :
    SameProgramming s (engineWrite s j a v) := by constructor <;> intros <;> rfl

theorem sameProgramming_engineComplete (s : State) (k : JobKind) : SameProgramming s (engineComplete s k) := by
  cases k <;> constructor <;> intros <;> rfl

theorem sameProgramming_configure (s : State) : SameProgramming s (configure s) := by
  unfold configure
  split
  · exact sameProgramming_fail ..
  · split
    · constructor <;> intros <;> rfl
    · exact sameProgramming_fail ..

theorem sameProgramming_unlessBusyIgnored {s t u : State} (hu : SameProgramming s u)
    (h : unlessBusyIgnored s u = .next t) : SameProgramming s t := by
  unfold unlessBusyIgnored at h
  split at h <;> cases h
  · exact .refl s
  · exact hu

theorem sameProgramming_execute {s t : State} (h : exec .execute s = .next t) : SameProgramming s t := by
  rcases exec_execute_next h with rfl | rfl | ⟨f, rfl⟩
  · exact .refl _
  · exact sameProgramming_fail ..
  · exact sameProgramming_startJob ..

/-- The engine's steps leave the programming registers alone: their effect is one byte written or the job's end. -/
theorem sameProgramming_execEngineWrite {s t : State} {a : Word} (h : execEngineWrite a s = .next t) :
    SameProgramming s t := by
  unfold execEngineWrite at h
  split at h
  · cases h
  · split at h
    · split at h <;> cases h
      exact sameProgramming_engineWrite ..
    · cases h

theorem sameProgramming_execEngineComplete {s t : State} (h : execEngineComplete s = .next t) :
    SameProgramming s t := by
  unfold execEngineComplete at h
  split at h
  · cases h
  · split at h
    · split at h <;> cases h
      exact sameProgramming_engineComplete ..
    · cases h

/-- Every operation but a register write and SOFT_RESET leaves the programming registers alone (R13). -/
theorem sameProgramming_exec {s t : State} {i : Instr} (hw : ∀ off d, i ≠ .regWrite off d) (hr : i ≠ .softReset)
    (h : exec i s = .next t) : SameProgramming s t := by
  have hcomb : ∀ f, exec (combineOf f) s = .next t → SameProgramming s t := fun f hf =>
    sameProgramming_execute (exec_execute_of_combine hf)
  cases i with
  | regWrite off d => exact absurd rfl (hw off d)
  | softReset => exact absurd rfl hr
  | regRead off =>
    simp only [exec, execRegRead] at h
    split at h <;> cases h
    constructor <;> intros <;> rfl
  | nop => cases h; exact .refl s
  | configure => exact sameProgramming_unlessBusyIgnored (sameProgramming_configure s) h
  | execute => exact sameProgramming_execute h
  | illegal w => exact sameProgramming_unlessBusyIgnored (sameProgramming_fail _ s) h
  | engineWrite a => exact sameProgramming_execEngineWrite h
  | engineComplete => exact sameProgramming_execEngineComplete h
  | combineRgb888 => exact hcomb .rgb888 h
  | combineRgba8888 => exact hcomb .rgba8888 h
  | combineYuyv422 => exact hcomb .yuyv422 h
  | combineUyvy422 => exact hcomb .uyvy422 h
  | combineYuv444 => exact hcomb .yuv444 h
  | combineIyuv => exact hcomb .iyuv h
  | combineNv12 => exact hcomb .nv12 h
  | combineNv21 => exact hcomb .nv21 h

/-- No effect of an operation reaches rst_n, the host's last memory read, the schedule or the platform. -/
theorem Effect.outside {s t : State} (h : Effect s t) :
    t.rstN = s.rstN ∧ t.memData = s.memData ∧ t.moves = s.moves ∧ t.busErrors = s.busErrors := by
  cases h with
  | write r d _ =>
    have hb := sameBeyondRegisters_writeReg s r d
    exact ⟨hb.rstN, hb.memData, hb.moves, hb.busErrors⟩
  | _ => simp

end Sys2Proof.Machine
end

/-! ## The invariant is kept

An idle and a running block are brought back to the invariant by one lemma each; every effect then names which of the
two it leaves, or that it changed neither the configuration nor the job (`Invariant.transfer`). -/

section
namespace Sys2Proof.Machine

/-- A block without a job meets the invariant when it is UNCONFIGURED, or CONFIGURED with a valid configuration. -/
theorem Invariant.of_idle {t : State}
    (hs : t.statusState = unconfigured ∨ t.statusState = configured ∧ Validated t) (hj : t.job = none)
    (he : t.statusErr.toNat ≤ 6) (hm : Memory.wf t.mem) (hf : Memory.wf t.inFlight) : Invariant t where
  stateLegal := by rcases hs with h | ⟨h, -⟩ <;> rw [h] <;> decide
  errLegal := he
  jobWhenBusy := by rcases hs with h | ⟨h, -⟩ <;> rw [hj, h] <;> decide
  validated hu := hs.elim (fun h => absurd h hu) (·.2)
  jobFits f j _ h := by simp [hj] at h
  memCanonical := hm
  inFlightCanonical := hf

/-- A busy block meets the invariant when its job fits a valid configuration. -/
theorem Invariant.of_running {t : State} {f : Format} {j : Job} (hb : t.statusState = busy) (hj : t.job = some j)
    (hv : ValidFor t f) (hfit : JobFits t f j) (he : t.statusErr.toNat ≤ 6) (hm : Memory.wf t.mem)
    (hf : Memory.wf t.inFlight) : Invariant t where
  stateLegal := by rw [hb]; decide
  errLegal := he
  jobWhenBusy := by simp [hj, hb]
  validated _ := ⟨f, hv⟩
  jobFits f' j' hsel hj' := by
    obtain rfl : f = f' := Option.some.inj (hv.recognized.symm.trans hsel)
    obtain rfl : j = j' := Option.some.inj (hj.symm.trans hj')
    exact hfit
  memCanonical := hm
  inFlightCanonical := hf

/-- Outside BUSY a block of the invariant is UNCONFIGURED, or CONFIGURED with a valid configuration. -/
theorem Invariant.idle_cases {s : State} (hi : Invariant s) (hb : s.statusState ≠ busy) :
    s.statusState = unconfigured ∨ s.statusState = configured ∧ Validated s := by
  by_cases hu : s.statusState = unconfigured
  · exact .inl hu
  · have hcases : ∀ x : BitVec 2, x ≠ unconfigured → x ≠ busy → x ≠ 3#2 → x = configured := by decide
    exact .inr ⟨hcases _ hu hb hi.stateLegal, hi.validated hu⟩

/-- A busy block of the invariant has a valid configuration, which its job fits. -/
theorem Invariant.busy_valid {s : State} (hi : Invariant s) {j : Job} (hj : s.job = some j) :
    s.statusState = busy ∧ ∃ f, ValidFor s f ∧ JobFits s f j := by
  obtain ⟨hb, -⟩ := hi.busy_job hj
  obtain ⟨f, hv⟩ := hi.validated (by rw [hb]; decide)
  exact ⟨hb, f, hv, hi.jobFits f j hv.recognized hj⟩

theorem Invariant.keeps_fail {s : State} (hi : Invariant s) (e : ErrCode) : Invariant (fail e s) :=
  hi.transfer (.of_fields rfl rfl rfl ⟨rfl, rfl, rfl, rfl⟩ ⟨rfl, rfl, rfl⟩ rfl) rfl (code_le_six e) rfl
    hi.memCanonical hi.inFlightCanonical

/-- A register write keeps the invariant: in BUSY it changes nothing of the configuration, outside BUSY there is no job,
and what it may change in CONFIGURED no check looks at. -/
theorem Invariant.keeps_writeReg {s : State} (hi : Invariant s) (r : Reg) (d : Word) : Invariant (writeReg s r d) := by
  have hsame := sameBeyondRegisters_writeReg s r d
  obtain ⟨hstate, herr⟩ := status_writeReg s r d
  have he : (writeReg s r d).statusErr.toNat ≤ 6 := herr ▸ hi.errLegal
  have hm : Memory.wf (writeReg s r d).mem := hsame.mem ▸ hi.memCanonical
  have hf : Memory.wf (writeReg s r d).inFlight := hsame.inFlight ▸ hi.inFlightCanonical
  by_cases hb : s.statusState = busy
  · exact hi.transfer (sameConfig_writeReg hb r d) hstate he hsame.job hm hf
  · refine .of_idle ?_ (hsame.job.trans (hi.no_job hb)) he hm hf
    rw [hstate]
    rcases hi.idle_cases hb with hu | ⟨hc, f, hv⟩
    · exact .inl hu
    · exact .inr ⟨hc, f, validFor_writeReg (by rw [hc]; decide) hv r d⟩

theorem Invariant.keeps_accept {s : State} (hi : Invariant s) (hu : s.statusState = unconfigured)
    (hv : validate s = none) : Invariant { s with statusState := configured, statusErr := ErrCode.none.code } := by
  obtain ⟨f, hvf⟩ := (validate_eq_none_iff s).1 hv
  have hc : SameConfig s { s with statusState := configured, statusErr := ErrCode.none.code } :=
    .of_fields rfl rfl rfl ⟨rfl, rfl, rfl, rfl⟩ ⟨rfl, rfl, rfl⟩ rfl
  exact .of_idle (.inr ⟨rfl, f, hc.validFor hvf⟩) (hi.no_job (ne_busy_of_unconfigured hu)) (code_le_six .none)
    hi.memCanonical hi.inFlightCanonical

theorem Invariant.keeps_startJob {s : State} (hi : Invariant s) {f : Format} (hc : s.statusState = configured)
    (hsel : s.selected = some f) : Invariant (startJob f s) := by
  obtain ⟨f', hv⟩ := hi.validated (by rw [hc]; decide)
  obtain rfl : f = f' := Option.some.inj (hsel.symm.trans hv.recognized)
  have hcfg : SameConfig s (startJob f s) := .of_fields rfl rfl rfl ⟨rfl, rfl, rfl, rfl⟩ ⟨rfl, rfl, rfl⟩ rfl
  exact .of_running rfl rfl (hcfg.validFor hv) (hcfg.jobFits (newJob_fits s f)) (code_le_six .none)
    hi.memCanonical hi.inFlightCanonical

theorem Invariant.keeps_resetBlock {s : State} (hi : Invariant s) : Invariant (resetBlock s) :=
  .of_idle (.inl rfl) (resetBlock_job s) (code_le_six .none) hi.wf_abandonJob.1 hi.wf_abandonJob.2

/-- A job with one byte less pending still fits. -/
theorem JobFits.erase {s : State} {f : Format} {j : Job} (h : JobFits s f j) (a : Nat) :
    JobFits s f { j with pending := cellErase j.pending a } :=
  ⟨h.writeSet, Memory.wf_cellErase h.pendingCanonical a, fun c hc => h.pendingInWset c (cellErase_subset _ a c hc),
    h.beforeOnWset, h.kindHolds⟩

/-- A job made a colliding one still fits: all of its write set is pending. -/
theorem JobFits.collide {s : State} {f : Format} {j : Job} (h : JobFits s f j) (n : Nat) :
    JobFits s f { j with kind := .collide, pending := freeCells n j.wset } where
  writeSet := h.writeSet
  pendingCanonical := by
    rw [h.writeSet]
    exact wf_freeCells (rising_writeSet s f) (fun a => writeSet_lt s f) n
  pendingInWset c hc := by
    have hkey : c.1 ∈ (freeCells n j.wset).map Prod.fst := List.mem_map_of_mem hc
    rwa [keys_freeCells] at hkey
  beforeOnWset := h.beforeOnWset
  kindHolds hk := by cases hk

theorem Invariant.keeps_engineWrite {s : State} (hi : Invariant s) {j : Job} (hj : s.job = some j) (a : Word)
    (v : Byte) : Invariant (engineWrite s j a.toNat v) := by
  obtain ⟨hb, f, hv, hfit⟩ := hi.busy_valid hj
  have hcfg : SameConfig s (engineWrite s j a.toNat v) :=
    .of_fields rfl rfl rfl ⟨rfl, rfl, rfl, rfl⟩ ⟨rfl, rfl, rfl⟩ rfl
  exact .of_running hb rfl (hcfg.validFor hv) (hcfg.jobFits (hfit.erase _)) hi.errLegal
    (wf_writeMem hi.memCanonical a.isLt v) hi.inFlightCanonical

theorem Invariant.keeps_collideJob {s : State} (hi : Invariant s) {j : Job} (hj : s.job = some j) :
    Invariant (collideJob s j) := by
  obtain ⟨hb, f, hv, hfit⟩ := hi.busy_valid hj
  have hcfg : SameConfig s (collideJob s j) := .of_fields rfl rfl rfl ⟨rfl, rfl, rfl, rfl⟩ ⟨rfl, rfl, rfl⟩ rfl
  exact .of_running hb rfl (hcfg.validFor hv) (hcfg.jobFits (hfit.collide _)) hi.errLegal
    hi.memCanonical hi.inFlightCanonical

/-- The end of a job leaves ERR as it was, or at BUS_ERROR (R87). -/
theorem engineComplete_statusErr_le {s : State} (h : s.statusErr.toNat ≤ 6) (k : JobKind) :
    (engineComplete s k).statusErr.toNat ≤ 6 := by
  cases k with
  | normal => exact h
  | collide => exact h
  | busErr => exact code_le_six .busError

theorem Invariant.keeps_engineComplete {s : State} (hi : Invariant s) {j : Job} (hj : s.job = some j) :
    Invariant (engineComplete s j.kind) := by
  obtain ⟨-, f, hv, -⟩ := hi.busy_valid hj
  have hcfg : SameConfig s (engineComplete s j.kind) :=
    .of_fields (by simp) (by simp) (by simp) (by simp) (by simp) (by simp)
  exact .of_idle (.inr ⟨rfl, f, hcfg.validFor hv⟩) rfl (engineComplete_statusErr_le hi.errLegal _)
    (by simpa using hi.memCanonical) (by simpa using hi.inFlightCanonical)

/-- Every effect of an operation keeps the invariant. -/
theorem Effect.keeps_invariant {s t : State} (h : Effect s t) (hi : Invariant s) : Invariant t := by
  cases h with
  | same => exact hi
  | read r =>
    exact hi.transfer (.of_fields rfl rfl rfl ⟨rfl, rfl, rfl, rfl⟩ ⟨rfl, rfl, rfl⟩ rfl) rfl hi.errLegal rfl
      hi.memCanonical hi.inFlightCanonical
  | write r d _ => exact hi.keeps_writeReg r d
  | illegal _ => exact hi.keeps_fail _
  | accept hu hv => exact hi.keeps_accept hu hv
  | reject e _ _ => exact hi.keeps_fail e
  | start f hc hsel => exact hi.keeps_startJob hc hsel
  | reset => exact hi.keeps_resetBlock
  | byte j a v _ hj _ => exact hi.keeps_engineWrite hj a v
  | complete j _ hj _ => exact hi.keeps_engineComplete hj

/-- What only changes memory or the model's own ports keeps the invariant, if memory stays canonical. -/
theorem Invariant.keeps_ports {s : State} (hi : Invariant s) {mem inFlight : List Host.Cell} (rstN : Bool)
    (memData : Byte) (moves : List Move) (draws : Nat) (hm : Memory.wf mem) (hf : Memory.wf inFlight) :
    Invariant { s with
      mem := mem, inFlight := inFlight, rstN := rstN, memData := memData, moves := moves, draws := draws } :=
  hi.transfer (.of_fields rfl rfl rfl ⟨rfl, rfl, rfl, rfl⟩ ⟨rfl, rfl, rfl⟩ rfl) rfl hi.errLegal rfl hm hf

theorem Invariant.keeps_settleWrites {s : State} (hi : Invariant s) : Invariant (settleWrites s) :=
  hi.keeps_ports s.rstN s.memData s.moves s.draws hi.memCanonical ⟨.nil, by simp⟩

theorem Invariant.keeps_landWrite {s : State} (hi : Invariant s) (pick : Nat) : Invariant (landWrite pick s) := by
  by_cases h : s.inFlight = []
  · rwa [landWrite_nil h]
  · obtain ⟨c, hc, he⟩ := landWrite_eq_landCell h pick
    rw [he]
    exact hi.keeps_ports s.rstN s.memData s.moves s.draws
      (Memory.wf_cellSet hi.memCanonical (hi.inFlightCanonical.2 c hc) c.2) (Memory.wf_cellErase hi.inFlightCanonical c.1)

/-- Every effect of a step keeps the invariant. -/
theorem StepEffect.keeps_invariant {u t : State} (h : StepEffect u t) (hi : Invariant u) : Invariant t := by
  have hm := hi.memCanonical
  have hf := hi.inFlightCanonical
  cases h with
  | port _ he => exact he.keeps_invariant hi.keeps_settleWrites
  | engine _ he => exact he.keeps_invariant hi
  | land pick _ => exact hi.keeps_landWrite pick
  | hostWrite a v _ => exact hi.keeps_ports _ _ _ _ (wf_writeMem hm a.isLt v) hf
  | hostRead v n => exact hi.keeps_ports _ v _ n hm hf
  | assertReset =>
    have hr := hi.keeps_resetBlock
    exact hr.keeps_ports false _ _ _ hr.memCanonical hr.inFlightCanonical
  | releaseReset => exact hi.keeps_ports true _ _ _ hm hf
  | collide j hj _ => exact hi.keeps_collideJob hj

/-- Taking the move of a step off the list, or counting its free value, keeps the invariant. -/
theorem Invariant.keeps_stepState {s : State} (hi : Invariant s) : Invariant (stepState s) := by
  unfold stepState
  split <;> exact hi.keeps_ports _ _ _ _ hi.memCanonical hi.inFlightCanonical

end Sys2Proof.Machine
end

/-! ## The statements -/

section
namespace Sys2Proof.Machine

/-- Settles O48: a step leaves the state as it is or has one of the effects of `StepEffect`, and each keeps the
invariant. -/
theorem stepKeepsTheInvariant : Obligations.StepKeepsTheInvariant := by
  intro s t hi h
  rcases step_effect h with rfl | he
  · exact hi
  · exact he.keeps_invariant hi.keeps_stepState

/-- Settles O9, by the lock and the stored bits of a geometry register. -/
theorem geometryRegistersLock : Obligations.GeometryRegistersLock := by
  intro s r d hr
  obtain ⟨hres, hcmd⟩ := geometryReg_stored hr
  refine ⟨fun hs => ?_, fun hs => ?_, ?_⟩
  · rw [exec_write_reg hres hcmd, writeReg_geometry_locked hr hs]
  · exact ⟨_, exec_write_reg hres hcmd d s, readReg_writeReg_geometry hr hs d,
      fun r' hne => readReg_writeReg_other s hne d, sameBeyondRegisters_writeReg s r d⟩
  · rw [exec_read (regOffset_aligned r), regAt_regOffset hres]

/-- Settles O10, by the lock and the stored word of a base register. -/
theorem baseRegistersLockInBusy : Obligations.BaseRegistersLockInBusy := by
  intro s r d hr
  obtain ⟨hres, hcmd⟩ := baseReg_stored hr
  refine ⟨fun hs => ?_, fun hs => ?_⟩
  · rw [exec_write_reg hres hcmd, writeReg_base_locked hr hs]
  · exact ⟨_, exec_write_reg hres hcmd d s, readReg_writeReg_base hr hs d,
      fun r' hne => readReg_writeReg_other s hne d, sameBeyondRegisters_writeReg s r d⟩

/-- Settles O16: a misaligned write answers no next state, any other is `writeReg` of the register at its offset. -/
theorem regWriteFrame : Obligations.RegWriteFrame := by
  intro s t off d hoff h
  by_cases h4 : off.toNat % 4 = 0
  · rw [exec_write_other h4 hoff] at h
    cases h
    obtain ⟨hstate, herr⟩ := status_writeReg s (regAt off) d
    exact ⟨fun r hr => readReg_writeReg_other s hr d, hstate, herr, sameBeyondRegisters_writeReg s _ d⟩
  · simp [exec, execRegWrite, admittedOffset, h4] at h

/-- Settles O44, by the effects of an operation for what none changes, and operation by operation for the registers. -/
theorem onlyTheHostWritesRegisters : Obligations.OnlyTheHostWritesRegisters :=
  fun _ _ _ h => ⟨(exec_effect h).outside, fun hw hr => sameProgramming_exec hw hr h⟩

/-- Settles O11, by the write and the read of the register at offset 0x010. -/
theorem intEnableWrites : Obligations.IntEnableWrites :=
  ⟨fun s d => ⟨exec_write_reg (r := .intEnable) nofun nofun d s, exec_read (regOffset_aligned .intEnable) s⟩, rfl⟩

/-- Settles O12: the write of offset 0x00C is the acknowledgement. -/
theorem intStatusWriteOneToClear : Obligations.IntStatusWriteOneToClear :=
  fun s d => ⟨acknowledge d s, exec_write_reg (r := .intStatus) nofun nofun d s,
    fun _ hk => getLsbD_clearIntStatus s.intStatus d hk, rfl⟩

/-- Settles O13: `writeReg` stores nothing in ID and STATUS. -/
theorem readOnlyRegistersIgnoreWrites : Obligations.ReadOnlyRegistersIgnoreWrites :=
  fun s d => ⟨exec_write_reg (r := .id) nofun nofun d s, exec_write_reg (r := .status) nofun nofun d s⟩

/-- Settles O14: every register is found at its offset, and a write of a slot register in UNCONFIGURED sets its field. -/
theorem regReadReturnsTheRegister : Obligations.RegReadReturnsTheRegister := by
  refine ⟨fun s off h4 => exec_read h4 s, fun s => ?_, fun s c => ?_, fun s p => ?_, fun s c d hu => ?_,
    fun s p d hu => ?_⟩
  · exact ⟨rfl, rfl, statusWord_toNat s, BitVec.toNat_setWidth_of_le (by decide), BitVec.toNat_setWidth_of_le (by decide),
      BitVec.toNat_setWidth_of_le (by decide), BitVec.toNat_setWidth_of_le (by decide)⟩
  · exact ⟨readReg_regAt_regOffset s (r := .srcBase c) nofun, readReg_regAt_regOffset s (r := .srcStride c) nofun,
      (congrArg BitVec.toNat (readReg_regAt_regOffset s (r := .srcDim c) nofun)).trans (s.src c).dim_toNat⟩
  · exact ⟨readReg_regAt_regOffset s (r := .dstBase p) nofun, readReg_regAt_regOffset s (r := .dstStride p) nofun,
      (congrArg BitVec.toNat (readReg_regAt_regOffset s (r := .dstDim p) nofun)).trans (s.dst p).dim_toNat⟩
  · refine ⟨⟨_, exec_write_reg (r := .srcBase c) nofun nofun d s, src_writeReg_srcBase hu d c⟩,
      ⟨_, exec_write_reg (r := .srcStride c) nofun nofun d s, src_writeReg_srcStride hu d c⟩,
      _, exec_write_reg (r := .srcDim c) nofun nofun d s, ?_⟩
    obtain ⟨hw, hh⟩ := (s.src c).dims_of_word d
    rw [src_writeReg_srcDim hu]
    exact ⟨hw, hh, rfl, rfl⟩
  · refine ⟨⟨_, exec_write_reg (r := .dstBase p) nofun nofun d s, dst_writeReg_dstBase hu d p⟩,
      ⟨_, exec_write_reg (r := .dstStride p) nofun nofun d s, dst_writeReg_dstStride hu d p⟩,
      _, exec_write_reg (r := .dstDim p) nofun nofun d s, ?_⟩
    obtain ⟨hw, hh⟩ := (s.dst p).dims_of_word d
    rw [dst_writeReg_dstDim hu]
    exact ⟨hw, hh, rfl, rfl⟩

/-- Settles O45: the conjunction of two 2-bit words is not zero exactly when some bit is set in both. -/
theorem irqFollowsTheRegisters : Obligations.IrqFollowsTheRegisters := by
  have hbits : ∀ a b : BitVec 2, ((a &&& b) != 0#2) = true ↔
      (a.getLsbD 0 = true ∧ b.getLsbD 0 = true) ∨ (a.getLsbD 1 = true ∧ b.getLsbD 1 = true) := by decide
  exact ⟨fun s => hbits s.intStatus s.intEnable, rfl⟩

/-- Settles O46, register by register. -/
theorem resetState : Obligations.ResetState := by
  refine ⟨fun r => ?_, rfl, rfl, rfl⟩
  have hsrc : ∀ c, State.reset.src c = Slot.reset := by decide
  have hdst : ∀ p, State.reset.dst p = Slot.reset := by decide
  cases r with
  | srcBase c => simp [readReg, hsrc, Slot.reset]
  | srcStride c => simp [readReg, hsrc, Slot.reset]
  | srcDim c => simp [readReg, hsrc, Slot.reset]
  | dstBase p => simp [readReg, hdst, Slot.reset]
  | dstStride p => simp [readReg, hdst, Slot.reset]
  | dstDim p => simp [readReg, hdst, Slot.reset]
  | _ => rfl

/-- Settles O47: the reset state is UNCONFIGURED with no job, and a promise is a job's. -/
theorem invariantAtReset : Obligations.InvariantAtReset :=
  ⟨.of_idle (.inl rfl) rfl (code_le_six .none) wf_reset_mem wf_reset_mem, fun _ _ _ hj => nomatch hj⟩

end Sys2Proof.Machine
end

/-! ## A NORMAL job's promise is kept

The promise speaks of the bytes at the write positions and at the sources they select. A step keeps it when it leaves the
configuration, the job and these bytes alone; the engine's own write moves a byte from the pending map to memory. -/

section
namespace Sys2Proof.Machine

/-- The read set the host must keep clear of is that of the selected format (R60). -/
theorem inReadSet_iff (s : State) (a : Nat) : inReadSet s a = true ↔ ∃ f, s.selected = some f ∧ a ∈ readSet s f := by
  unfold inReadSet
  split <;> simp [*]

theorem inReadSet_selected {s : State} {f : Format} (hf : s.selected = some f) (a : Nat) :
    inReadSet s a = true ↔ a ∈ readSet s f := by
  simp [inReadSet_iff, hf]

/-- A block without a NORMAL job promises nothing. -/
theorem JobFaithful.of_no_normal_job {s : State} (h : ∀ j, s.job = some j → j.kind ≠ .normal) : JobFaithful s :=
  fun _ j _ hj hk => absurd hk (h j hj)

theorem JobFaithful.of_no_job {s : State} (h : s.job = none) : JobFaithful s :=
  .of_no_normal_job fun j hj => by simp [h] at hj

/-- The promise after a step that leaves the configuration alone and, of a NORMAL job, the bytes it sees at its write
positions and those memory holds at its sources. -/
theorem JobFaithful.transfer {s t : State} (hp : JobFaithful s) (hc : SameConfig s t)
    (hj : ∀ j', t.job = some j' → j'.kind = .normal → ∃ j, s.job = some j ∧ j.kind = .normal ∧
      ∀ f, s.selected = some f →
        (∀ a ∈ writeSet s f, byteOfJob t j' a = byteOfJob s j a) ∧ ∀ a ∈ readSet s f, readMem t a = readMem s a) :
    JobFaithful t := by
  intro f j' hsel hj' hk q hq
  rw [hc.selected] at hsel
  rw [hc.jobPositions] at hq
  obtain ⟨j, hsj, hsk, hbytes⟩ := hj j' hj' hk
  obtain ⟨hw, hr⟩ := hbytes f hsel
  calc byteOfJob t j' (dstAddr t f q) = byteOfJob s j (dstAddr s f q) := by
        rw [hc.dstAddr, hw _ ((mem_writeSet s f _).2 ⟨q, hq, rfl⟩)]
    _ = sampleAt s (select f q) := hp f j hsel hsj hsk q hq
    _ = sampleAt t (select f q) := by
        rw [sampleAt, sampleAt, hc.srcAddr, hr _ ((mem_readSet s f _).2 ⟨q, hq, rfl⟩)]

theorem byteOfJob_congr {s t : State} (h : t.mem = s.mem) (j : Job) (a : Nat) : byteOfJob t j a = byteOfJob s j a := by
  rw [byteOfJob, byteOfJob, readMem_congr h]

/-- What changes neither the configuration nor the job nor memory keeps the promise. -/
theorem JobFaithful.of_same {s t : State} (hp : JobFaithful s) (hc : SameConfig s t) (hj : t.job = s.job)
    (hm : t.mem = s.mem) : JobFaithful t :=
  hp.transfer hc fun j hjt hk => ⟨j, hj ▸ hjt, hk, fun _ _ =>
    ⟨fun a _ => byteOfJob_congr hm j a, fun a _ => readMem_congr hm a⟩⟩

/-- A register write keeps the promise: in BUSY the configuration is locked, outside BUSY there is no job. -/
theorem JobFaithful.keeps_writeReg {s : State} (hp : JobFaithful s) (hi : Invariant s) (r : Reg) (d : Word) :
    JobFaithful (writeReg s r d) := by
  have hsame := sameBeyondRegisters_writeReg s r d
  by_cases hb : s.statusState = busy
  · exact hp.of_same (sameConfig_writeReg hb r d) hsame.job hsame.mem
  · exact .of_no_job (hsame.job.trans (hi.no_job hb))

/-- EXECUTE makes the promise: a NORMAL job starts with the selected sample pending at every write position. -/
theorem jobFaithful_startJob {s : State} {f : Format} (hf : s.selected = some f) : JobFaithful (startJob f s) := by
  have hc : SameConfig s (startJob f s) := .of_fields rfl rfl rfl ⟨rfl, rfl, rfl, rfl⟩ ⟨rfl, rfl, rfl⟩ rfl
  intro f' j hsel hj hk q hq
  obtain rfl : f = f' := Option.some.inj (hf.symm.trans (hc.selected ▸ hsel))
  obtain rfl : newJob s f = j := Option.some.inj hj
  rw [hc.jobPositions] at hq
  have hbyte : cellGet (newJob s f).pending (dstAddr s f q) = some (sampleAt s (select f q)) := jobBytes_at hk hq
  rw [hc.dstAddr, byteOfJob, hbyte, sampleAt, sampleAt, hc.srcAddr]
  rfl

/-- The engine's write moves a byte from the pending map to memory: every byte of the job is what it was. -/
theorem byteOfJob_engineWrite {s : State} {j : Job} {a : Nat} {v : Byte} (hv : cellGet j.pending a = some v) (b : Nat) :
    byteOfJob (engineWrite s j a v) { j with pending := cellErase j.pending a } b = byteOfJob s j b := by
  have hmem : readMem (engineWrite s j a v) b = readMem (writeMem s a v) b := readMem_congr rfl b
  simp only [byteOfJob, hmem, cellGet_cellErase]
  by_cases hab : a = b
  · subst hab; simp [hv]
  · simp [hab, readMem_writeMem_other s v hab]

/-- In a NORMAL job that fits the registers no byte of the write set is a source. -/
theorem JobFits.not_mem_readSet {s : State} {f : Format} {j : Job} (hfit : JobFits s f j) (hk : j.kind = .normal)
    {a : Nat} (ha : a ∈ j.wset) : a ∉ readSet s f := by
  rw [hfit.writeSet, mem_writeSet] at ha
  rw [mem_readSet]
  rintro ⟨q', hq', he⟩
  obtain ⟨q, hq, rfl⟩ := ha
  exact dstAddr_ne_srcAddr (hfit.kindHolds hk) hq hq' he

/-- The engine's write keeps the promise: it writes no source of a NORMAL job. -/
theorem JobFaithful.keeps_engineWrite {s : State} (hp : JobFaithful s) (hi : Invariant s) {j : Job} {a : Nat} {v : Byte}
    (hj : s.job = some j) (hv : cellGet j.pending a = some v) : JobFaithful (engineWrite s j a v) := by
  refine hp.transfer (.of_fields rfl rfl rfl ⟨rfl, rfl, rfl, rfl⟩ ⟨rfl, rfl, rfl⟩ rfl) fun j' hj' hk => ?_
  obtain rfl : { j with pending := cellErase j.pending a } = j' := Option.some.inj hj'
  refine ⟨j, hj, hk, fun f hf => ⟨fun b _ => byteOfJob_engineWrite hv b, fun b hb => ?_⟩⟩
  have hfit := hi.jobFits f j hf hj
  have hab : a ≠ b := by
    rintro rfl
    exact hfit.not_mem_readSet hk (hfit.pendingInWset _ (mem_of_cellGet hv)) hb
  exact readMem_writeMem_other s v hab

/-- Every effect of an operation keeps the promise. -/
theorem Effect.keeps_jobFaithful {s t : State} (h : Effect s t) (hi : Invariant s) (hp : JobFaithful s) :
    JobFaithful t := by
  cases h with
  | same => exact hp
  | write r d _ => exact hp.keeps_writeReg hi r d
  | read | illegal | accept | reject =>
    exact hp.of_same (.of_fields rfl rfl rfl ⟨rfl, rfl, rfl, rfl⟩ ⟨rfl, rfl, rfl⟩ rfl) rfl rfl
  | start f _ hf => exact jobFaithful_startJob hf
  | reset => exact .of_no_job (resetBlock_job s)
  | byte j a v _ hj hv => exact hp.keeps_engineWrite hi hj hv
  | complete j _ _ _ => exact .of_no_job (engineComplete_job s j.kind)

/-- What only changes the model's own ports keeps the promise. -/
theorem JobFaithful.keeps_ports {s : State} (hp : JobFaithful s) (inFlight : List Host.Cell) (rstN : Bool)
    (memData : Byte) (moves : List Move) (draws : Nat) : JobFaithful { s with
      inFlight := inFlight, rstN := rstN, memData := memData, moves := moves, draws := draws } :=
  hp.of_same (.of_fields rfl rfl rfl ⟨rfl, rfl, rfl, rfl⟩ ⟨rfl, rfl, rfl⟩ rfl) rfl rfl

/-- A host write outside the write and the read set keeps the promise (R60). -/
theorem JobFaithful.keeps_hostWrite {s : State} (hp : JobFaithful s) (hi : Invariant s) {a : Nat} (v : Byte)
    (ha : ∀ j, s.job = some j → a ∉ j.wset ∧ inReadSet s a = false) : JobFaithful (writeMem s a v) := by
  refine hp.transfer (.of_fields rfl rfl rfl ⟨rfl, rfl, rfl, rfl⟩ ⟨rfl, rfl, rfl⟩ rfl) fun j hj hk =>
    ⟨j, hj, hk, fun f hf => ?_⟩
  obtain ⟨hw, hr⟩ := ha j hj
  rw [(hi.jobFits f j hf hj).writeSet] at hw
  rw [← Bool.not_eq_true, inReadSet_selected hf] at hr
  have hother : ∀ {b}, a ≠ b → readMem (writeMem s a v) b = readMem s b := readMem_writeMem_other s v
  refine ⟨fun b hb => ?_, fun b hb => hother fun hab => hr (hab ▸ hb)⟩
  rw [byteOfJob, byteOfJob, hother fun hab => hw (hab ▸ hb)]

/-- With no engine step enabled there is no job. -/
theorem Invariant.no_job_of_engineChoice {s : State} (hi : Invariant s) {pick : Nat} (h : engineChoice pick s = none) :
    s.job = none :=
  ((engineChoice_eq_none_iff pick s).1 h).elim hi.no_job id

/-- Landing a write in flight leaves the job alone. -/
@[simp] theorem landWrite_job (pick : Nat) (s : State) : (landWrite pick s).job = s.job := by
  unfold landWrite; split <;> rfl

/-- Every effect of a step keeps the promise. -/
theorem StepEffect.keeps_jobFaithful {u t : State} (h : StepEffect u t) (hi : Invariant u) (hp : JobFaithful u) :
    JobFaithful t := by
  cases h with
  | port _ he => exact he.keeps_jobFaithful hi.keeps_settleWrites (hp.keeps_ports [] _ _ _ _)
  | engine _ he => exact he.keeps_jobFaithful hi hp
  | land pick hn => exact .of_no_job ((landWrite_job pick u).trans (hi.no_job_of_engineChoice hn))
  | hostWrite a v ha => exact hp.keeps_hostWrite hi v ha
  | hostRead v n => exact hp.keeps_ports _ _ v _ n
  | assertReset => exact .of_no_job (resetBlock_job u)
  | releaseReset => exact hp.keeps_ports _ true _ _ _
  | collide j _ _ => exact .of_no_normal_job fun j' hj' => by cases hj'; nofun

/-- Taking the move of a step off the list, or counting its free value, keeps the promise. -/
theorem JobFaithful.keeps_stepState {s : State} (hp : JobFaithful s) : JobFaithful (stepState s) := by
  unfold stepState
  split <;> exact hp.keeps_ports _ _ _ _ _

end Sys2Proof.Machine
end

/-! ## Requests the port does not admit -/

section
namespace Sys2Proof.Machine

/-- A request the decoder rejects is refused by the name of the rejection. -/
theorem step_port_rejected {s : State} {r : PortRequest} {rest : List Move} {why : Reject}
    (hm : s.moves = .port r :: rest) (hn : s.rstN = true) (hd : decodePort r = .rejected why) :
    step s = .refused (refusalOf why) := by
  rw [step_of_moves hm]
  simp [act, portSlot, fetchPort, hn, hd]

/-- A header of 13 bits has none of the bits above `dir`. -/
theorem undefinedBits_eq_zero {r : PortRequest} (h : r.header.toNat < 2 ^ 13) : r.undefinedBits = 0#3 := by
  apply BitVec.eq_of_toNat_eq
  simp only [PortRequest.undefinedBits, BitVec.extractLsb'_toNat, Nat.shiftRight_eq_div_pow, Nat.div_eq_of_lt h]
  rfl

/-- The low two bits of a transaction word are those of its offset. -/
theorem offset_mod_four (r : PortRequest) : r.offset.toNat % 4 = r.header.toNat % 4 := by
  simp only [PortRequest.offset, BitVec.extractLsb'_toNat, Nat.shiftRight_zero]
  omega

end Sys2Proof.Machine
end

/-! ## The engine's steps -/

section
namespace Sys2Proof.Machine

/-- ENGINE_WRITE at a pending address answers `engineWrite` (R86). -/
theorem exec_engineWrite_pending {s : State} {j : Job} {a : Word} {v : Byte} (hb : s.statusState = busy)
    (hj : s.job = some j) (hv : cellGet j.pending a.toNat = some v) :
    exec (.engineWrite a) s = .next (engineWrite s j a.toNat v) := by
  simp only [exec, execEngineWrite, hj, hb, if_true, hv]

/-- ENGINE_WRITE answers a next state at a pending address only. -/
theorem exec_engineWrite_next {s t : State} {a : Word} (h : exec (.engineWrite a) s = .next t) :
    ∃ j v, s.statusState = busy ∧ s.job = some j ∧ cellGet j.pending a.toNat = some v ∧
      t = engineWrite s j a.toNat v := by
  simp only [exec, execEngineWrite] at h
  split at h
  · cases h
  · split at h
    · split at h <;> cases h
      exact ⟨_, _, ‹_›, ‹_›, ‹_›, rfl⟩
    · cases h

@[simp] theorem readMem_engineWrite_same (s : State) (j : Job) (a : Nat) (v : Byte) :
    readMem (engineWrite s j a v) a = v := readMem_writeMem_same s a v

theorem readMem_engineWrite_other (s : State) (j : Job) {a b : Nat} (v : Byte) (h : a ≠ b) :
    readMem (engineWrite s j a v) b = readMem s b := readMem_writeMem_other s v h

/-- A slot of the engine is the step it chooses. -/
theorem step_engine {s : State} {pick : Nat} {rest : List Move} {i : Instr} (hm : s.moves = .engine pick :: rest)
    (h : engineChoice pick s = some i) : step s = exec i { s with moves := rest } := by
  rw [step_of_moves hm]
  exact engineSlot_some h

/-- With no move left a step is the engine's, at a free pick (log 4). -/
theorem step_unprompted {s : State} {i : Instr} (hm : s.moves = [])
    (h : engineChoice (Config.freePick s.draws) s = some i) : step s = exec i { s with draws := s.draws + 1 } := by
  simp only [step_of_no_moves hm, unprompted, h]

/-- With bytes pending in canonical form a slot writes at an address of the pending map. -/
theorem engineChoice_pending {s : State} {j : Job} (hb : s.statusState = busy) (hj : s.job = some j)
    (hw : Memory.wf j.pending) (hp : j.pending ≠ []) (pick : Nat) :
    ∃ a : Word, a.toNat ∈ j.pending.map Prod.fst ∧ engineChoice pick s = some (.engineWrite a) := by
  obtain ⟨c, hc, he⟩ := engineChoice_write hb hj hp pick
  have haddr : (BitVec.ofNat 32 c.1).toNat = c.1 := by rw [BitVec.toNat_ofNat, Nat.mod_eq_of_lt (hw.2 c hc)]
  refine ⟨_, ?_, he⟩
  rw [haddr]
  exact List.mem_map_of_mem hc

end Sys2Proof.Machine
end

/-! ## What changes memory

Of the operations only ENGINE_WRITE and SOFT_RESET touch memory; of the steps, those that run one of them, a host write
and a landed write. -/

section
namespace Sys2Proof.Machine

@[simp] theorem configure_mem (s : State) : (configure s).mem = s.mem := by
  unfold configure
  split
  · rfl
  · split <;> rfl

/-- A command that a busy block ignores leaves memory alone if its body does. -/
theorem mem_unlessBusyIgnored {s t u : State} (hu : u.mem = s.mem) (h : unlessBusyIgnored s u = .next t) :
    t.mem = s.mem := by
  unfold unlessBusyIgnored at h
  split at h <;> cases h
  · rfl
  · exact hu

theorem mem_exec_execute {s t : State} (h : exec .execute s = .next t) : t.mem = s.mem := by
  rcases exec_execute_next h with rfl | rfl | ⟨f, rfl⟩ <;> rfl

/-- A command word other than SOFT_RESET's leaves memory alone (R53, R135). -/
theorem mem_exec_decodeCommand {s t : State} {w : Word} (hw : w ≠ 3) (h : exec (decodeCommand w) s = .next t) :
    t.mem = s.mem := by
  cases hi : illegalWord w with
  | true =>
    rw [decodeCommand_of_illegal hi] at h
    exact mem_unlessBusyIgnored (fail_mem _ s) h
  | false =>
    rcases legal_words hi with rfl | rfl | rfl | rfl
    · cases h; rfl
    · exact mem_unlessBusyIgnored (configure_mem s) h
    · exact mem_exec_execute h
    · exact absurd rfl hw

/-- A register write other than SOFT_RESET's leaves memory alone. -/
theorem mem_exec_regWrite {s t : State} {off : BitVec 12} {d : Word} (hne : Instr.regWrite off d ≠ .regWrite 0x004 3)
    (h : exec (.regWrite off d) s = .next t) : t.mem = s.mem := by
  by_cases h4 : off.toNat % 4 = 0
  · by_cases hc : off = 0x004
    · subst hc
      rw [exec_write_cmd, command_eq_exec] at h
      exact mem_exec_decodeCommand (fun hd => hne (hd ▸ rfl)) h
    · rw [exec_write_other h4 hc] at h
      cases h
      exact (sameBeyondRegisters_writeReg s _ d).mem
  · simp [exec, execRegWrite, admittedOffset, h4] at h

theorem mem_exec_engineComplete {s t : State} (h : exec .engineComplete s = .next t) : t.mem = s.mem := by
  simp only [exec, execEngineComplete] at h
  split at h
  · cases h
  · split at h
    · split at h <;> cases h
      exact engineComplete_mem s _
    · cases h

/-- Every operation but ENGINE_WRITE and SOFT_RESET leaves memory alone (R53, R54). -/
theorem mem_exec {s t : State} {i : Instr} (he : ∀ w, i ≠ .engineWrite w) (hr : i ≠ .softReset)
    (hc : i ≠ .regWrite 0x004 3) (h : exec i s = .next t) : t.mem = s.mem := by
  have hcomb : ∀ f, exec (combineOf f) s = .next t → t.mem = s.mem := fun f hf =>
    mem_exec_execute (exec_execute_of_combine hf)
  cases i with
  | engineWrite w => exact absurd rfl (he w)
  | softReset => exact absurd rfl hr
  | regWrite off d => exact mem_exec_regWrite hc h
  | regRead off =>
    simp only [exec, execRegRead] at h
    split at h <;> cases h
    rfl
  | nop => cases h; rfl
  | configure => exact mem_unlessBusyIgnored (configure_mem s) h
  | execute => exact mem_exec_execute h
  | illegal w => exact mem_unlessBusyIgnored (fail_mem _ s) h
  | engineComplete => exact mem_exec_engineComplete h
  | combineRgb888 => exact hcomb .rgb888 h
  | combineRgba8888 => exact hcomb .rgba8888 h
  | combineYuyv422 => exact hcomb .yuyv422 h
  | combineUyvy422 => exact hcomb .uyvy422 h
  | combineYuv444 => exact hcomb .yuv444 h
  | combineIyuv => exact hcomb .iyuv h
  | combineNv12 => exact hcomb .nv12 h
  | combineNv21 => exact hcomb .nv21 h

/-- SOFT_RESET, as a command or as its CMD write, is RESET (R88). -/
theorem exec_reset_next {s t : State} {i : Instr} (hi : i = .softReset ∨ i = .regWrite 0x004 3)
    (h : exec i s = .next t) : t = resetBlock s := by
  rcases hi with rfl | rfl
  · cases h; rfl
  · rw [exec_write_cmd, command_eq_exec] at h
    cases h; rfl

/-- What a slot chooses is ENGINE_COMPLETE or an ENGINE_WRITE. -/
theorem engineChoice_engine {pick : Nat} {s : State} {i : Instr} (h : engineChoice pick s = some i) :
    i = .engineComplete ∨ ∃ w, i = .engineWrite w := by
  unfold engineChoice at h
  split at h
  · split at h
    · cases h
    · split at h <;> cases h
      · exact .inl rfl
      · exact .inr ⟨_, rfl⟩
  · cases h

/-- A host write that is not refused stores its byte. -/
theorem hostWrite_next {s t : State} {w : Word} {v : Byte} (h : hostWrite w v s = .next t) :
    t = writeMem s w.toNat v := by
  unfold hostWrite at h
  split at h
  · cases h; rfl
  · split at h <;> cases h
    rfl

/-- A host read leaves memory alone (R55). -/
theorem mem_hostRead {s t : State} {w : Word} (h : hostRead w s = .next t) : t.mem = s.mem := by
  unfold hostRead at h
  split at h
  · cases h; rfl
  · split at h <;> cases h <;> rfl

/-- A job of another block leaves memory alone. -/
theorem mem_otherJob {s t : State} {writes reads : List Nat} (h : otherJob writes reads s = .next t) :
    t.mem = s.mem := by
  unfold otherJob at h
  split at h
  · cases h; rfl
  · split at h
    · split at h <;> cases h <;> rfl
    · cases h; rfl
    · cases h; rfl

section
variable {s t : State} {a : Nat} (hne : readMem t a ≠ readMem s a)
include hne

/-- A byte RESET changes is in the write set of the job it abandons (R160). -/
theorem wset_of_reset_changes (h : t.mem = (resetBlock s).mem) : ∃ j, s.job = some j ∧ a ∈ j.wset := by
  by_contra hno
  push Not at hno
  exact hne ((readMem_congr h a).trans (readMem_resetBlock_other hno))

/-- A byte ENGINE_WRITE changes is the one at its address, which was pending. -/
theorem pending_of_engineWrite_changes {w : Word} (h : exec (.engineWrite w) s = .next t) :
    a = w.toNat ∧ s.statusState = busy ∧ ∃ j, s.job = some j ∧ cellGet j.pending a = some (readMem t a) := by
  obtain ⟨j, v, hb, hj, hv, rfl⟩ := exec_engineWrite_next h
  have haw : a = w.toNat := by
    by_contra haw
    exact hne (readMem_engineWrite_other s j v (Ne.symm haw))
  exact ⟨haw, hb, j, hj, by rw [haw, hv, readMem_engineWrite_same]⟩

/-- An operation that changes a byte is ENGINE_WRITE at it, or SOFT_RESET of a job whose write set holds it. -/
theorem exec_changes_byte {i : Instr} (h : exec i s = .next t) :
    (∃ w : Word, i = .engineWrite w ∧ a = w.toNat) ∨
    ((i = .softReset ∨ i = .regWrite 0x004 3) ∧ ∃ j, s.job = some j ∧ a ∈ j.wset) := by
  by_cases he : ∃ w, i = .engineWrite w
  · obtain ⟨w, rfl⟩ := he
    exact .inl ⟨w, rfl, (pending_of_engineWrite_changes hne h).1⟩
  · by_cases hr : i = .softReset ∨ i = .regWrite 0x004 3
    · exact .inr ⟨hr, wset_of_reset_changes hne (by rw [exec_reset_next hr h])⟩
    · rw [not_or] at hr
      exact absurd (readMem_congr (mem_exec (not_exists.1 he) hr.1 hr.2 h) a) hne

/-- A byte a chosen engine step changes was pending. -/
theorem engineChoice_changes_byte {u : State} {pick : Nat} {i : Instr} (hi : engineChoice pick u = some i)
    (h : exec i s = .next t) :
    s.statusState = busy ∧ ∃ j, s.job = some j ∧ cellGet j.pending a = some (readMem t a) := by
  rcases engineChoice_engine hi with rfl | ⟨w, rfl⟩
  · exact absurd (readMem_congr (mem_exec_engineComplete h) a) hne
  · exact (pending_of_engineWrite_changes hne h).2

/-- A byte a step with no move left changes was pending. -/
theorem unprompted_changes_byte (h : unprompted s = .next t) :
    s.statusState = busy ∧ ∃ j, s.job = some j ∧ cellGet j.pending a = some (readMem t a) := by
  unfold unprompted at h
  split at h
  · exact engineChoice_changes_byte (s := { s with draws := s.draws + 1 }) hne ‹_› h
  · cases h; exact absurd rfl hne

/-- A byte a slot of the engine changes was pending in a busy block, or in flight in one with no engine step enabled. -/
theorem engineSlot_changes_byte {pick : Nat} (h : engineSlot pick s = .next t) :
    (s.statusState = busy ∧ ∃ j, s.job = some j ∧ cellGet j.pending a = some (readMem t a)) ∨
    ((s.statusState ≠ busy ∨ s.job = none) ∧ (a, readMem t a) ∈ s.inFlight) := by
  unfold engineSlot at h
  split at h
  · exact .inl (engineChoice_changes_byte hne ‹_› h)
  · rename_i hnone
    cases h
    refine .inr ⟨(engineChoice_eq_none_iff pick s).1 hnone, ?_⟩
    by_cases hf : s.inFlight = []
    · exact absurd (by rw [landWrite_nil hf]) hne
    · obtain ⟨c, hc, he⟩ := landWrite_eq_landCell hf pick
      rw [he] at hne ⊢
      obtain rfl : a = c.1 := by
        by_contra hac
        exact hne (readMem_landCell_other s c hac)
      rwa [readMem_landCell_same]

/-- A byte a transaction changes is in the write set of the job its SOFT_RESET abandons. -/
theorem portSlot_changes_byte {r : PortRequest} (h : portSlot r s = .next t) :
    decodePort r = .instr (.regWrite 0x004 3) ∧ ∃ j, s.job = some j ∧ a ∈ j.wset := by
  obtain ⟨-, i, hd, he⟩ := portSlot_next h
  obtain ⟨-, -, -, hi⟩ := decodePort_instr hd
  have hport : (∀ w, i ≠ .engineWrite w) ∧ i ≠ .softReset := by
    rw [hi]; split <;> exact ⟨nofun, nofun⟩
  rcases exec_changes_byte (s := settleWrites s) hne he with ⟨w, hw, -⟩ | ⟨hw | rfl, hj⟩
  · exact absurd hw (hport.1 w)
  · exact absurd hw hport.2
  · exact ⟨hd, hj⟩

end

end Sys2Proof.Machine
end

/-! ## The record of an accepted job -/

section
namespace Sys2Proof.Machine

/-- A job is BUSERR exactly when an address of it answers with a bus error (R145). -/
theorem jobKind_eq_busErr_iff (s : State) (f : Format) : jobKind s f = .busErr ↔ jobBusError s f = true := by
  unfold jobKind
  cases jobBusError s f <;> cases jobCollides s f <;> simp

/-- Without a bus error a job is COLLIDE exactly when it collides (R59, R148). -/
theorem jobKind_eq_collide_iff {s : State} {f : Format} (h : jobKind s f ≠ .busErr) :
    jobKind s f = .collide ↔ jobCollides s f = true := by
  rw [ne_eq, jobKind_eq_busErr_iff] at h
  unfold jobKind
  cases jobCollides s f <;> simp [h]

end Sys2Proof.Machine
end

/-! ## A whole job

EXECUTE, the engine's writes in any order of the write set, and the job's end: the bytes pending at acceptance end up in
memory, and nothing else depends on the order. -/

section
namespace Sys2Proof.Machine

/-- The state a whole job ends in, given the memory it leaves (R85 to R87). -/
def jobEnd (s : State) (f : Format) (mem : List Host.Cell) : State :=
  engineComplete { startJob f s with mem := mem, job := some { newJob s f with pending := [] } } (jobKind s f)

/-- A whole job runs to its end in every order of its write set: memory holds what was pending at acceptance, and
elsewhere what it held. -/
theorem runJob_next {s : State} {f : Format} {order : List Word} (hc : s.statusState = configured)
    (hf : s.selected = some f) (ho : (order.map BitVec.toNat).Perm (writeSet s f)) :
    ∃ mem, runJob order s = .next (jobEnd s f mem) ∧
      (∀ a, cellGet mem a = (cellGet (jobBytes s f) a).or (cellGet s.mem a)) ∧ (Memory.wf s.mem → Memory.wf mem) := by
  obtain ⟨t, hrun, hjob, hmem, ht, hwf⟩ := runEngine_pending order (startJob f s) (newJob s f) rfl rfl
    (wf_jobBytes s f).1 (ho.trans (.of_eq (keys_jobBytes_eq s f).symm))
  rw [hjob] at ht
  refine ⟨t.mem, ?_, hmem, hwf⟩
  have hend : exec .engineComplete t = .next (jobEnd s f t.mem) := by rw [ht]; rfl
  simp only [runJob, exec_execute_configured hc hf, hrun, hend]

section
variable {s : State} {f : Format} {mem : List Host.Cell}
  (hm : ∀ a, cellGet mem a = (cellGet (jobBytes s f) a).or (cellGet s.mem a))
include hm

/-- After a whole NORMAL job every write position holds the sample it selects. -/
theorem readMem_jobEnd_position (hk : jobKind s f = .normal) {q : Pos} (hq : q ∈ jobPositions s f) :
    readMem (jobEnd s f mem) (dstAddr s f q) = sampleAt s (select f q) := by
  simp [readMem, jobEnd, hm, jobBytes_at hk hq]

/-- A whole job changes no byte outside its write set. -/
theorem readMem_jobEnd_other {a : Nat} (ha : a ∉ writeSet s f) : readMem (jobEnd s f mem) a = readMem s a := by
  have hnone : cellGet (jobBytes s f) a = none := by rwa [cellGet_eq_none_iff, keys_jobBytes]
  simp [readMem, jobEnd, hm, hnone]

end

/-- A whole job leaves the programming registers alone. -/
theorem sameProgramming_jobEnd (s : State) (f : Format) (mem : List Host.Cell) :
    SameProgramming s (jobEnd s f mem) := by
  unfold jobEnd
  generalize jobKind s f = k
  cases k <;> constructor <;> intros <;> rfl

/-- A whole NORMAL job ends with DONE set and no error (R87). -/
theorem jobEnd_normal {s : State} {f : Format} (hk : jobKind s f = .normal) (mem : List Host.Cell) :
    (jobEnd s f mem).statusErr = 0#4 ∧ (jobEnd s f mem).intStatus = s.intStatus ||| 1#2 := by
  simp only [jobEnd, hk]
  exact ⟨rfl, rfl⟩

end Sys2Proof.Machine
end

/-! ## The host's own accesses of memory, and jobs of another block -/

section
namespace Sys2Proof.Machine

/-- A host write without a job, or outside the write and read set of the job, stores its byte (R60). -/
theorem hostWrite_allowed {s : State} {a : Word} (v : Byte)
    (h : ∀ j, s.job = some j → a.toNat ∉ j.wset ∧ ∀ f, s.selected = some f → a.toNat ∉ readSet s f) :
    hostWrite a v s = .next (writeMem s a.toNat v) := by
  unfold hostWrite
  split
  · rfl
  · rename_i j hj
    obtain ⟨hw, hr⟩ := h j hj
    have hn : ¬ (j.wset.contains a.toNat || inReadSet s a.toNat) = true := by
      rw [Bool.or_eq_true, List.contains_iff_mem, inReadSet_iff]
      rintro (hin | ⟨f, hf, hin⟩)
      · exact hw hin
      · exact hr f hf hin
    rw [if_neg hn]

/-- A host write of a byte of the job's write or read set is refused (R60; log 18). -/
theorem hostWrite_refused {s : State} {j : Job} {f : Format} {a : Word} (v : Byte) (hj : s.job = some j)
    (hf : s.selected = some f) (h : a.toNat ∈ j.wset ∨ a.toNat ∈ readSet s f) :
    hostWrite a v s = .refused .hostWriteDuringJob := by
  have hin : (j.wset.contains a.toNat || inReadSet s a.toNat) = true := by
    rw [Bool.or_eq_true, List.contains_iff_mem, inReadSet_iff]
    exact h.imp_right fun hr => ⟨f, hf, hr⟩
  simp only [hostWrite, hj, hin, if_true]

/-- A host read of a write-set byte returns an unsettled byte (R58; log 7). -/
theorem hostRead_wset {s : State} {j : Job} {a : Word} (hj : s.job = some j) (ha : a.toNat ∈ j.wset) :
    hostRead a s = .next { s with memData := unsettledByte s j s.draws a.toNat, draws := s.draws + 1 } := by
  simp only [hostRead, hj, List.contains_iff_mem.2 ha, if_true]

/-- Every other host read returns the byte in memory. -/
theorem hostRead_other {s : State} {a : Word} (h : ∀ j, s.job = some j → a.toNat ∉ j.wset) :
    hostRead a s = .next { s with memData := readMem s a.toNat } := by
  unfold hostRead
  split
  · rfl
  · rename_i j hj
    rw [if_neg fun hin => h j hj (List.contains_iff_mem.1 hin)]

/-- An unsettled byte of a NORMAL job is the old or the new one (R58). -/
theorem unsettledByte_normal {j : Job} (hk : j.kind = .normal) (s : State) (n a : Nat) :
    unsettledByte s j n a = byteBefore s j a ∨ unsettledByte s j n a = byteOfJob s j a := by
  simp only [unsettledByte, hk]
  split
  · exact .inr rfl
  · exact .inl rfl

/-- An unsettled byte of any other job is the free byte (R58). -/
theorem unsettledByte_not_normal {j : Job} (hk : j.kind ≠ .normal) (s : State) (n a : Nat) :
    unsettledByte s j n a = Config.freeByte n := by
  unfold unsettledByte
  split
  · exact absurd ‹_› hk
  · rfl
  · rfl

/-- Two lists overlap exactly when some address is in both. -/
theorem overlap_iff (l m : List Nat) : overlap l m = true ↔ ∃ a ∈ l, a ∈ m := by
  simp [overlap]

/-- Another block breaks the duty of R64 exactly when its write set meets the job's write or read set, or its read set
meets the job's write set. -/
theorem otherConflicts_iff {s : State} {f : Format} (hf : s.selected = some f) (j : Job) (writes reads : List Nat) :
    otherConflicts s j writes reads = true ↔
      ∃ a, (a ∈ writes ∧ (a ∈ j.wset ∨ a ∈ readSet s f)) ∨ (a ∈ reads ∧ a ∈ j.wset) := by
  simp only [otherConflicts, Bool.or_eq_true, overlap_iff, List.any_eq_true, inReadSet_selected hf, and_or_left,
    exists_or]

/-- A job of another block makes a NORMAL job a colliding one exactly when it conflicts with it (R64). -/
theorem otherJob_normal {s : State} {j : Job} (hj : s.job = some j) (hk : j.kind = .normal) (writes reads : List Nat) :
    otherJob writes reads s = .next (if otherConflicts s j writes reads then collideJob s j else s) := by
  simp only [otherJob, hj, hk]
  split <;> rfl

end Sys2Proof.Machine
end

/-! ## The statements on memory, the engine and the host's accesses -/

section
namespace Sys2Proof.Machine

/-- Settles O49: a step leaves the state as it is or has one of the effects of `StepEffect`, and each keeps the
promise. -/
theorem stepKeepsTheJobFaithful : Obligations.StepKeepsTheJobFaithful := by
  intro s t hi hp h
  rcases step_effect h with rfl | he
  · exact hp
  · exact he.keeps_jobFaithful hi.keeps_stepState hp.keeps_stepState

/-- Settles O8: a slot and an unprompted step run the engine step `engineChoice` names. -/
theorem stepRunsTheEngine : Obligations.StepRunsTheEngine := by
  intro s j hb hj hw
  refine ⟨fun pick rest hm => ⟨fun hp => ?_, fun hp => ?_⟩, fun a ha => ?_, fun hm => ⟨fun hp => ?_, fun hp => ?_⟩⟩
  · exact step_engine hm (engineChoice_complete hb hj hp pick)
  · obtain ⟨a, ha, he⟩ := engineChoice_pending hb hj hw hp pick
    exact ⟨a, ha, step_engine hm he⟩
  · obtain ⟨pick, he⟩ := exists_engineChoice hb hj ha
    exact ⟨pick, fun rest => step_engine (s := { s with moves := .engine pick :: rest }) rfl he⟩
  · exact step_unprompted hm (engineChoice_complete hb hj hp _)
  · obtain ⟨a, ha, he⟩ := engineChoice_pending hb hj hw hp (Config.freePick s.draws)
    exact ⟨a, ha, step_unprompted hm he⟩

/-- Settles O38: the accepted job is `newJob`, and each clause is what its field is made of. -/
theorem acceptedJobRecord : Obligations.AcceptedJobRecord := by
  intro s t f j hc hf h hj
  rw [exec_execute_configured hc hf] at h
  cases h
  obtain rfl : newJob s f = j := Option.some.inj hj
  refine ⟨mem_jobPositions s f, mem_writeSet s f, ?_, fun hk => ?_, fun a => ?_⟩
  · exact (jobKind_eq_busErr_iff s f).trans (jobBusError_iff s f)
  · exact (jobKind_eq_collide_iff hk).trans (jobCollides_iff s f)
  · exact (isSome_cellGet_iff _ a).trans (keys_jobBytes s f a)

/-- Settles O43, operation by operation and move by move. -/
theorem onlyTheEngineWritesMemory : Obligations.OnlyTheEngineWritesMemory := by
  refine ⟨fun s t i h a hne => exec_changes_byte hne h, fun s t h a hne => ?_⟩
  cases hm : s.moves with
  | nil =>
    rw [step_of_no_moves hm] at h
    exact .inr (.inl ⟨.inl rfl, unprompted_changes_byte hne h⟩)
  | cons m rest =>
    rw [step_of_moves hm] at h
    have hsame : t.mem ≠ s.mem := fun he => hne (readMem_congr he a)
    cases m with
    | port r =>
      obtain ⟨hd, hj⟩ := portSlot_changes_byte (s := { s with moves := rest }) hne h
      exact .inr (.inr (.inr ⟨.inr ⟨r, rest, rfl, hd⟩, hj⟩))
    | hostWrite w v =>
      obtain rfl := hostWrite_next h
      have haw : a = w.toNat := by
        by_contra haw
        exact hne (readMem_writeMem_other _ v (Ne.symm haw))
      exact .inl ⟨w, v, rest, rfl, haw, by rw [haw, readMem_writeMem_same]⟩
    | hostRead w => exact absurd (mem_hostRead h) hsame
    | rstAssert =>
      cases h
      exact .inr (.inr (.inr ⟨.inl ⟨rest, rfl⟩, wset_of_reset_changes (s := { s with moves := rest }) hne rfl⟩))
    | rstRelease => cases h; exact absurd rfl hsame
    | engine pick =>
      rcases engineSlot_changes_byte (s := { s with moves := rest }) hne h with ⟨hb, hj⟩ | ⟨hn, hf⟩
      · exact .inr (.inl ⟨.inr ⟨pick, rest, rfl⟩, hb, hj⟩)
      · exact .inr (.inr (.inl ⟨⟨pick, rest, rfl⟩, hn, hf⟩))
    | otherJob writes reads => exact absurd (mem_otherJob h) hsame

/-- Settles O50: a whole job ends in `jobEnd`, with the selected samples at the write positions. -/
theorem normalJobWritesTheImage : Obligations.NormalJobWritesTheImage := by
  intro s f order hc hf hk ho
  obtain ⟨mem, hrun, hm, -⟩ := runJob_next hc hf ho
  obtain ⟨herr, hint⟩ := jobEnd_normal hk mem
  exact ⟨_, hrun, fun q hq => readMem_jobEnd_position hm hk hq, fun a ha => readMem_jobEnd_other hm ha, rfl, herr, hint,
    rfl, engineComplete_busData _ _, sameProgramming_jobEnd s f mem⟩

/-- Settles O52: whatever the order, the memories left are canonical and hold the same bytes. -/
theorem writeOrderDoesNotShow : Obligations.WriteOrderDoesNotShow := by
  intro s f order order' hw hc hf ho ho'
  obtain ⟨mem, hrun, hm, hmw⟩ := runJob_next hc hf ho
  obtain ⟨mem', hrun', hm', hmw'⟩ := runJob_next hc hf ho'
  obtain rfl : mem = mem' := cells_ext (hmw hw).1 (hmw' hw).1 fun a => (hm a).trans (hm' a).symm
  exact ⟨_, hrun, hrun'⟩

/-- Settles O59: the move collides the job exactly on a conflict. -/
theorem otherInstanceCollides : Obligations.OtherInstanceCollides := by
  intro s rest writes reads f j hm hf hj hk
  have hstep := otherJob_normal (s := { s with moves := rest }) hj hk writes reads
  have hiff := otherConflicts_iff (s := { s with moves := rest }) hf j writes reads
  rw [step_of_moves hm]
  refine ⟨fun hc => ?_, fun hw hr => ?_⟩
  · rw [if_pos (hiff.2 hc)] at hstep
    refine ⟨_, _, hstep, rfl, rfl, rfl, fun a => ?_, rfl⟩
    rw [isSome_cellGet_iff, keys_freeCells]
  · rw [if_neg] at hstep
    · exact hstep
    · rw [hiff]
      rintro ⟨a, ⟨ha, hin⟩ | ⟨ha, hin⟩⟩
      · exact hin.elim (hw a ha).1 (hw a ha).2
      · exact hr a ha hin

/-- Settles O15: a misaligned offset fails the admission of R79, and the step refuses what the decoder rejects. -/
theorem unadmittedAccessesAreRefused : Obligations.UnadmittedAccessesAreRefused := by
  refine ⟨fun s off d h4 => ?_, fun s r rest hm hn hw => ?_, fun s r rest hm hn hw hlt h4 => ?_⟩
  · have hoff : admittedOffset off = false := beq_eq_false_iff_ne.2 h4
    simp [exec, execRegWrite, execRegRead, hoff]
  · exact step_port_rejected (why := .narrowAccess) hm hn (by simp [decodePort, hw])
  · rw [← offset_mod_four] at h4
    exact step_port_rejected (why := .misalignedAccess) hm hn
      (by simp [decodePort, hw, undefinedBits_eq_zero hlt, h4])

/-- Settles O40: ENGINE_WRITE is `engineWrite`, one byte written and erased from what is pending. -/
theorem engineWriteStoresOneByte : Obligations.EngineWriteStoresOneByte := by
  intro s j a v hb hj hv
  exact ⟨_, _, exec_engineWrite_pending hb hj hv, rfl, readMem_engineWrite_same s j _ v,
    fun b hne => readMem_engineWrite_other s j v (Ne.symm hne), cellGet_cellErase_same j.pending _,
    fun b hne => cellGet_cellErase_other j.pending (Ne.symm hne), rfl, rfl, rfl, rfl⟩

/-- Settles O57: each access is `hostWrite` or `hostRead` in the state without its move. -/
theorem hostMemoryAccesses : Obligations.HostMemoryAccesses := by
  intro s rest a v
  refine ⟨fun hm h => ?_, fun j f hm hj hf h => ?_, fun j hm hj ha hk => ?_, fun j hm hj ha hk => ?_, fun hm h => ?_⟩ <;>
    rw [step_of_moves hm]
  · exact ⟨_, hostWrite_allowed (s := { s with moves := rest }) v h, readMem_writeMem_same _ _ v,
      fun b hb => readMem_writeMem_other _ v (Ne.symm hb), rfl⟩
  · exact hostWrite_refused (s := { s with moves := rest }) v hj hf h
  · exact ⟨_, hostRead_wset (s := { s with moves := rest }) hj ha, unsettledByte_normal hk _ _ _, rfl⟩
  · exact (hostRead_wset (s := { s with moves := rest }) hj ha).trans (by rw [unsettledByte_not_normal hk])
  · exact hostRead_other (s := { s with moves := rest }) h

end Sys2Proof.Machine
end

/-! ## Encodings

What a decoder reads back from an encoding, and what it accepts: in each set of rows the bytes it takes are the encoding
of the operation it gives. -/

section
namespace Sys2Proof

/-- Decoding answers an operation with bytes left over exactly when it answers the operation. -/
theorem withRest_eq_instr_iff {d : Decoded} {rest rest' : List Byte} {i : Instr} :
    d.withRest rest = .instr i rest' ↔ d = .instr i ∧ rest = rest' := by
  cases d <;> simp [Decoded.withRest]

/-! ### Decoding an encoding -/

/-- The port reads the fields of an encoded header back. -/
theorem decodePort_encodeHeader {off : BitVec 12} (h4 : off.toNat % 4 = 0) (write : Bool) (d : Word) :
    decodePort ⟨encodeHeader write off, .word, d⟩ = .instr (if write then .regWrite off d else .regRead off) := by
  have hdir : (PortRequest.mk (encodeHeader write off) .word d).isWrite = write := encodeHeader_dir off write
  have hoff : (PortRequest.mk (encodeHeader write off) .word d).offset = off := encodeHeader_off off write
  have hundef : (PortRequest.mk (encodeHeader write off) .word d).undefinedBits = 0#3 :=
    encodeHeader_undefined off write
  cases write <;> simp [decodePort, hdir, hoff, hundef, h4]

/-- A transaction word with `dir` set takes the word after it as its data. -/
theorem decodeBytes_write {h : BitVec 16} (hd : h.getLsbD 12 = true) (w : Word) (rest : List Byte) :
    decodeBytes .regPort (bytesOfHalf h ++ bytesOfWord w ++ rest) = (decodePort ⟨h, .word, w⟩).withRest rest := by
  simp only [decodeBytes, bytesOfHalf, bytesOfWord, List.cons_append, List.nil_append, halfOfBytes_extract,
    wordOfBytes_byteOfWord, hd, if_true]

/-- A transaction word with `dir` clear stands alone. -/
theorem decodeBytes_read {h : BitVec 16} (hd : h.getLsbD 12 = false) (rest : List Byte) :
    decodeBytes .regPort (bytesOfHalf h ++ rest) = (decodePort ⟨h, .word, 0#32⟩).withRest rest := by
  simp only [decodeBytes, bytesOfHalf, List.cons_append, List.nil_append, halfOfBytes_extract, hd, Bool.false_eq_true,
    if_false]

theorem decodeBytes_command (w : Word) (rest : List Byte) :
    decodeBytes .command (bytesOfWord w ++ rest) = .instr (decodeCommand w) rest := by
  simp [decodeBytes, bytesOfWord, wordOfBytes_byteOfWord]

theorem decodeBytes_format (f : Format) (rest : List Byte) :
    decodeBytes .formatCode (bytesOfFormat f ++ rest) = .instr (combineOf f) rest := by
  cases f <;> rfl

/-! ### What decodes -/

/-- The operation is a well-formed one of the set of rows, and these bytes are its encoding. -/
structure EncodedAs (sp : Space) (i : Instr) (own : List Byte) : Prop where
  wellFormed : wellFormed i = true
  space : spaceOf i = sp
  encode : encode i = some own

/-- A transaction with `dir` set is encoded by its header and its data. -/
theorem encodedAs_write {h : BitVec 16} {d : Word} {i : Instr} (hd : h.getLsbD 12 = true)
    (hp : decodePort ⟨h, .word, d⟩ = .instr i) : EncodedAs .regPort i (bytesOfHalf h ++ bytesOfWord d) := by
  obtain ⟨-, hu, h4, hi⟩ := decodePort_instr hp
  obtain rfl : i = .regWrite (h.extractLsb' 0 12) d := hi.trans (if_pos hd)
  have hh := encodeHeader_fields h hu
  rw [hd] at hh
  exact ⟨(offsetAligned_iff _).2 h4, rfl, by rw [encode, hh]⟩

/-- A transaction with `dir` clear is encoded by its header alone. -/
theorem encodedAs_read {h : BitVec 16} {d : Word} {i : Instr} (hd : h.getLsbD 12 = false)
    (hp : decodePort ⟨h, .word, d⟩ = .instr i) : EncodedAs .regPort i (bytesOfHalf h) := by
  obtain ⟨-, hu, h4, hi⟩ := decodePort_instr hp
  obtain rfl : i = .regRead (h.extractLsb' 0 12) := hi.trans (if_neg (Bool.eq_false_iff.1 hd))
  have hh := encodeHeader_fields h hu
  rw [hd] at hh
  exact ⟨(offsetAligned_iff _).2 h4, rfl, by rw [encode, hh]⟩

/-- Every command word is the encoding of what it decodes to. -/
theorem encodedAs_decodeCommand (w : Word) : EncodedAs .command (decodeCommand w) (bytesOfWord w) := by
  cases hi : illegalWord w with
  | true => rw [decodeCommand_of_illegal hi]; exact ⟨hi, rfl, rfl⟩
  | false => rcases legal_words hi with rfl | rfl | rfl | rfl <;> exact ⟨rfl, rfl, rfl⟩

theorem encodedAs_combineOf (f : Format) : EncodedAs .formatCode (combineOf f) (bytesOfFormat f) := by
  cases f <;> exact ⟨rfl, rfl, rfl⟩

/-- A byte that decodes to a combine is the code of its format, with no bit above the code. -/
theorem decodeFormatByte_instr {b : Byte} {i : Instr} (h : decodeFormatByte b = .instr i) :
    ∃ f, i = combineOf f ∧ bytesOfFormat f = [b] := by
  unfold decodeFormatByte at h
  split at h
  · cases h
  · rename_i hhigh
    split at h <;> cases h
    rename_i f hf
    rw [decodeFormat_iff] at hf
    refine ⟨f, rfl, ?_⟩
    have hsplit : ∀ b : Byte, b.extractLsb' 4 4 = 0#4 → (b.extractLsb' 0 4).setWidth 8 = b := by decide
    rw [bytesOfFormat, ← hf, hsplit b (not_not.1 hhigh)]

/-- What the port's bytes decode to is encoded by the bytes taken. -/
theorem encodedAs_of_decodeBytes_regPort {bytes rest : List Byte} {i : Instr}
    (h : decodeBytes .regPort bytes = .instr i rest) : ∃ own, EncodedAs .regPort i own ∧ bytes = own ++ rest := by
  match bytes, h with
  | h0 :: h1 :: tail, h =>
    simp only [decodeBytes] at h
    split at h
    · rename_i hd
      split at h
      · obtain ⟨hp, rfl⟩ := withRest_eq_instr_iff.1 h
        exact ⟨_, encodedAs_write hd hp, by rw [bytesOfHalf_halfOfBytes, bytesOfWord_wordOfBytes]; rfl⟩
      · cases h
    · rename_i hd
      obtain ⟨hp, rfl⟩ := withRest_eq_instr_iff.1 h
      exact ⟨_, encodedAs_read (Bool.eq_false_iff.2 hd) hp, by rw [bytesOfHalf_halfOfBytes]; rfl⟩

end Sys2Proof
end

/-! ## The statements on encodings and the operation a request runs -/

section
namespace Sys2Proof.Machine

/-- Settles O1, operation by operation: each set of rows reads its own encoding back. -/
theorem decodingAnEncodingGivesItBack : Obligations.DecodingAnEncodingGivesItBack := by
  intro i hw hs
  cases i with
  | regWrite off d =>
    refine ⟨_, rfl, fun rest => ?_⟩
    rw [spaceOf, decodeBytes_write (encodeHeader_dir off true), decodePort_encodeHeader ((offsetAligned_iff off).1 hw)]
    rfl
  | regRead off =>
    refine ⟨_, rfl, fun rest => ?_⟩
    rw [spaceOf, decodeBytes_read (encodeHeader_dir off false), decodePort_encodeHeader ((offsetAligned_iff off).1 hw)]
    rfl
  | nop => exact ⟨_, rfl, decodeBytes_command 0⟩
  | configure => exact ⟨_, rfl, decodeBytes_command 1⟩
  | execute => exact ⟨_, rfl, decodeBytes_command 2⟩
  | softReset => exact ⟨_, rfl, decodeBytes_command 3⟩
  | illegal w =>
    refine ⟨_, rfl, fun rest => ?_⟩
    rw [spaceOf, decodeBytes_command, decodeCommand_of_illegal hw]
  | engineWrite | engineComplete => exact absurd rfl hs
  | combineRgb888 => exact ⟨_, rfl, decodeBytes_format .rgb888⟩
  | combineRgba8888 => exact ⟨_, rfl, decodeBytes_format .rgba8888⟩
  | combineYuyv422 => exact ⟨_, rfl, decodeBytes_format .yuyv422⟩
  | combineUyvy422 => exact ⟨_, rfl, decodeBytes_format .uyvy422⟩
  | combineYuv444 => exact ⟨_, rfl, decodeBytes_format .yuv444⟩
  | combineIyuv => exact ⟨_, rfl, decodeBytes_format .iyuv⟩
  | combineNv12 => exact ⟨_, rfl, decodeBytes_format .nv12⟩
  | combineNv21 => exact ⟨_, rfl, decodeBytes_format .nv21⟩

/-- Settles O2, set of rows by set of rows: the bytes a decoder takes are the encoding of what it gives. -/
theorem decodedBytesAreTheEncoding : Obligations.DecodedBytesAreTheEncoding := by
  intro sp bytes rest i h
  have hown : ∃ own, EncodedAs sp i own ∧ bytes = own ++ rest := by
    cases sp with
    | regPort => exact encodedAs_of_decodeBytes_regPort h
    | command =>
      match bytes, h with
      | b0 :: b1 :: b2 :: b3 :: tail, h =>
        cases h
        exact ⟨_, encodedAs_decodeCommand _, by rw [bytesOfWord_wordOfBytes]; rfl⟩
    | formatCode =>
      match bytes, h with
      | b :: tail, h =>
        obtain ⟨hb, rfl⟩ := withRest_eq_instr_iff.1 h
        obtain ⟨f, rfl, hf⟩ := decodeFormatByte_instr hb
        exact ⟨_, encodedAs_combineOf f, by rw [hf]; rfl⟩
    | engine => cases h
  obtain ⟨own, he, hb⟩ := hown
  exact ⟨he.wellFormed, he.space, own, he.encode, hb⟩

/-- Settles O4: a CMD write does what its word decodes to, and the legal words are 0 to 3. -/
theorem illegalCommandWords : Obligations.IllegalCommandWords := by
  intro w s
  rw [← illegalWord_iff]
  refine ⟨fun hi => ?_, fun hl => ?_⟩
  · have hdec := decodeCommand_of_illegal hi
    rw [exec_write_cmd, command_eq_exec, hdec]
    exact ⟨rfl, fun hb => if_neg hb, fun hb => if_pos hb⟩
  · rcases legal_words (Bool.eq_false_iff.2 hl) with rfl | rfl | rfl | rfl <;> simp

/-- Settles O5: a register's offset is a function of the register, and a reserved offset has no storage. -/
theorem registerMapHasNoAlias : Obligations.RegisterMapHasNoAlias := by
  refine ⟨fun r hr => regAt_regOffset hr, fun off off' hr he => ?_, fun off h4 => regAt_eq_reserved_iff h4,
    fun off d s h4 hr => ?_⟩
  · calc off' = regOffset (regAt off') := (regOffset_regAt (he ▸ hr)).symm
      _ = regOffset (regAt off) := by rw [he]
      _ = off := regOffset_regAt hr
  · have hc : off ≠ 0x004 := by rintro rfl; cases hr
    rw [exec_read h4, exec_write_other h4 hc, hr]
    exact ⟨rfl, rfl⟩

/-- Settles O7: refining a transaction never changes what it does. -/
theorem refinedOperationIsTheTransaction : Obligations.RefinedOperationIsTheTransaction :=
  fun s i => exec_refineTransaction s s i rfl

/-- Settles O3, word by word. -/
theorem wordsOfTheTableDecode : Obligations.WordsOfTheTableDecode := by
  unfold Obligations.WordsOfTheTableDecode
  decide

/-- Settles O6: the port runs the refined operation, which does what the decoded one does. -/
theorem stepRunsTheRequest : Obligations.StepRunsTheRequest := by
  intro s r rest i hm hn hd
  have hfetch : fetchPort { s with moves := rest } r = .run (refineTransaction { s with moves := rest } i) := by
    simp only [fetchPort, hn, if_true, hd]
  rw [step_of_moves hm]
  simp only [act, portSlot, hfetch]
  exact exec_refineTransaction _ _ i rfl

/-- Settles O37: both answer `startJob`, which touches no programming register. -/
theorem executeRunsTheSelectedCombine : Obligations.ExecuteRunsTheSelectedCombine := by
  intro s f hc hf
  have hx := exec_execute_configured hc hf
  exact ⟨startJob f s, newJob s f, hx, (exec_combine_selected hf).trans hx,
    rfl, rfl, rfl, rfl, rfl, rfl, sameProgramming_startJob f s⟩

end Sys2Proof.Machine
end

/-! ## The commands

What CONFIGURE, EXECUTE, an illegal word and a write of CMD answer, state by state (40_commands.md R81 to R85). -/

section
namespace Sys2Proof.Machine

/-- Outside BUSY an illegal word fails with ILLEGAL_COMMAND (R83). -/
theorem exec_illegal_not_busy {s : State} (hb : s.statusState ≠ busy) (w : Word) :
    exec (.illegal w) s = .next (failed s 5#4) := if_neg hb

/-- In UNCONFIGURED CONFIGURE does what the validator answers (R84). -/
theorem exec_configure_unconfigured {s : State} (hu : s.statusState = unconfigured) :
    exec .configure s = .next (configure s) := if_neg (ne_busy_of_unconfigured hu)

/-- CONFIGURE of a configuration the validator accepts locks it (R84). -/
theorem exec_configure_accept {s : State} (hu : s.statusState = unconfigured) (hv : validate s = none) :
    exec .configure s = .next { s with statusState := configured, statusErr := ErrCode.none.code } := by
  rw [exec_configure_unconfigured hu]
  simp only [configure, hu, ne_eq, not_true, if_false, hv]

/-- CONFIGURE of a configuration the validator rejects reports its code (R84). -/
theorem exec_configure_reject {s : State} {e : ErrCode} (hu : s.statusState = unconfigured)
    (hv : validate s = some e) : exec .configure s = .next (failed s e.code) := by
  rw [exec_configure_unconfigured hu]
  simp only [configure, hu, ne_eq, not_true, if_false, hv]
  rfl

/-- A busy block ignores EXECUTE (R81). -/
theorem exec_execute_busy {s : State} (hb : s.statusState = busy) : exec .execute s = .next s := if_pos hb

/-- An UNCONFIGURED block answers EXECUTE with ILLEGAL_COMMAND (R85). -/
theorem exec_execute_unconfigured {s : State} (hu : s.statusState = unconfigured) :
    exec .execute s = .next (failed s 5#4) := by
  have hc : s.statusState ≠ configured := by rw [hu]; decide
  exact (if_neg (ne_busy_of_unconfigured hu)).trans (if_pos hc)

/-- In BUSY a write of CMD resets with the exact word 3 and is ignored with every other (R81). -/
theorem exec_write_cmd_busy {s : State} (hb : s.statusState = busy) (w : Word) :
    exec (.regWrite 0x004 w) s = if w = 0x00000003 then exec .softReset s else .next s := if_pos hb

end Sys2Proof.Machine
end

/-! ## The end of a job

ENGINE_COMPLETE (40_commands.md R87), where the engine's steps are not enabled (R86, R87), and that a job left to the
engine alone ends (70_reset_and_hazards.md R168): each unprompted step writes one pending byte, and the step after the
last completes the job. -/

section
namespace Sys2Proof.Machine

/-- ENGINE_COMPLETE with nothing pending answers `engineComplete` (R87). -/
theorem exec_engineComplete_done {s : State} {j : Job} (hb : s.statusState = busy) (hj : s.job = some j)
    (hp : j.pending = []) : exec .engineComplete s = .next (engineComplete s j.kind) := by
  simp only [exec, execEngineComplete, hj, hb, if_true, hp]

/-- A job that is not BUSERR ends with DONE (R87). -/
theorem engineComplete_of_ne_busErr {k : JobKind} (hk : k ≠ .busErr) (s : State) :
    engineComplete s k = { s with job := none, statusState := 1#2, intStatus := s.intStatus ||| 1#2 } := by
  cases k with
  | normal | collide => rfl
  | busErr => exact absurd rfl hk

/-- ENGINE_WRITE stops outside BUSY and at an address that is not pending (R86; log 13). -/
theorem exec_engineWrite_not_enabled {s : State} {a : Word}
    (h : s.statusState ≠ busy ∨ ∀ j, s.job = some j → cellGet j.pending a.toNat = none) :
    exec (.engineWrite a) s = .fault .engineWriteNotEnabled := by
  simp only [exec, execEngineWrite]
  split
  · rfl
  · rename_i j hj
    rcases h with hb | hn
    · rw [if_neg hb]
    · simp only [hn j hj, ite_self]

/-- ENGINE_COMPLETE stops outside BUSY and with bytes pending (R87; log 13). -/
theorem exec_engineComplete_not_enabled {s : State}
    (h : s.statusState ≠ busy ∨ ∀ j, s.job = some j → j.pending ≠ []) :
    exec .engineComplete s = .fault .engineCompleteNotEnabled := by
  simp only [exec, execEngineComplete]
  split
  · rfl
  · rename_i j hj
    rcases h with hb | hn
    · rw [if_neg hb]
    · obtain ⟨c, cs, hp⟩ := List.exists_cons_of_ne_nil (hn j hj)
      simp only [hp, ite_self]

/-- Erasing an address of a canonical map takes one cell away. -/
theorem length_cellErase {m : List Host.Cell} (hm : Memory.wf m) {a : Nat} (ha : a ∈ m.map Prod.fst) :
    (cellErase m a).length + 1 = m.length := by
  have hnd : (m.map Prod.fst).Nodup := hm.1.imp Nat.ne_of_lt
  have hkeys : (cellErase m a).map Prod.fst = (m.map Prod.fst).erase a := by
    simp [keys_cellErase, hnd.erase_eq_filter, bne, beq_eq_decide]
  calc (cellErase m a).length + 1 = ((m.map Prod.fst).erase a).length + 1 := by rw [← hkeys, List.length_map]
    _ = m.length := by rw [List.length_erase_add_one ha, List.length_map]

/-- With no move left and bytes pending, a step of a block of the invariant leaves one byte less pending. -/
theorem step_unprompted_write {s : State} {j : Job} (hi : Invariant s) (hm : s.moves = []) (hj : s.job = some j)
    (hp : j.pending ≠ []) :
    ∃ t j', step s = .next t ∧ t.moves = [] ∧ t.job = some j' ∧ j'.pending.length + 1 = j.pending.length := by
  obtain ⟨hb, f, -, hfit⟩ := hi.busy_job hj
  obtain ⟨a, ha, hchoice⟩ := engineChoice_pending hb hj hfit.pendingCanonical hp (Config.freePick s.draws)
  obtain ⟨v, hv⟩ := Option.isSome_iff_exists.1 ((isSome_cellGet_iff j.pending a.toNat).2 ha)
  exact ⟨_, _, (step_unprompted hm hchoice).trans (exec_engineWrite_pending hb hj hv), hm, rfl,
    length_cellErase hfit.pendingCanonical ha⟩

/-- With no move left and nothing pending, a step of a busy block ends the job. -/
theorem step_unprompted_complete {s : State} {j : Job} (hb : s.statusState = busy) (hm : s.moves = [])
    (hj : s.job = some j) (hp : j.pending = []) :
    step s = .next (engineComplete { s with draws := s.draws + 1 } j.kind) :=
  (step_unprompted hm (engineChoice_complete hb hj hp _)).trans (exec_engineComplete_done hb hj hp)

/-- A run of one step more is the step, then the rest of the run. -/
theorem run_succ_of_step {s t : State} (h : step s = .next t) (n : Nat) :
    Host.Core.run core (n + 1) s = Host.Core.run core n t := by
  have hs : core.step s = .next t := h
  simp only [Host.Core.run, hs]

/-- With no move left, a job with `n` bytes pending ends in `n + 1` steps (R168). -/
theorem run_ends_job (n : Nat) : ∀ {s : State} {j : Job}, Invariant s → s.moves = [] → s.job = some j →
    j.pending.length = n →
    ∃ t, Host.Core.run core (n + 1) s = .next t ∧ t.statusState = configured ∧ t.job = none := by
  induction n with
  | zero =>
    intro s j hi hm hj hn
    have hstep := step_unprompted_complete (hi.busy_job hj).1 hm hj (List.eq_nil_of_length_eq_zero hn)
    exact ⟨_, run_succ_of_step hstep 0, rfl, rfl⟩
  | succ n ih =>
    intro s j hi hm hj hn
    have hp : j.pending ≠ [] := List.ne_nil_of_length_eq_add_one hn
    obtain ⟨u, j', hstep, hmu, hju, hlen⟩ := step_unprompted_write hi hm hj hp
    rw [run_succ_of_step hstep]
    exact ih (stepKeepsTheInvariant s u hi hstep) hmu hju (by omega)

end Sys2Proof.Machine
end

/-! ## The statements on the commands, the engine's end of a job and the reset input -/

section
namespace Sys2Proof.Machine

/-- Settles O17: in BUSY by the first test of `command`; outside it a legal word is one of 0 to 3, and every other
word decodes to ILLEGAL. -/
theorem commandWordActs : Obligations.CommandWordActs := by
  intro s w
  refine ⟨fun hb => exec_write_cmd_busy hb w, fun hb => ?_⟩
  rw [exec_write_cmd, command_eq_exec]
  cases hi : illegalWord w with
  | true =>
    have hne : ∀ v : Word, illegalWord v = false → w ≠ v := by rintro _ hv rfl; simp [hi] at hv
    rw [decodeCommand_of_illegal hi, exec_illegal_not_busy hb, if_neg (hne 0 rfl), if_neg (hne 1 rfl),
      if_neg (hne 2 rfl), if_neg (hne 3 rfl)]
  | false => rcases legal_words hi with rfl | rfl | rfl | rfl <;> rfl

/-- Settles O20: the validator answers OK exactly for a validated configuration. -/
theorem configureAcceptsValid : Obligations.ConfigureAcceptsValid :=
  fun s hu hv => exec_configure_accept hu ((validate_eq_none_iff s).2 hv)

/-- Settles O21: any other configuration gets a code from the validator, one of 1 to 4. -/
theorem configureRejectsInvalid : Obligations.ConfigureRejectsInvalid := by
  intro s hu hv
  obtain ⟨e, he⟩ := Option.ne_none_iff_exists'.1 (mt (validate_eq_none_iff s).1 hv)
  obtain ⟨hlow, hhigh⟩ := validate_code he
  exact ⟨e.code, hlow, hhigh, exec_configure_reject hu he⟩

/-- Settles O53, by induction on the number of pending bytes. -/
theorem jobEnds : Obligations.JobEnds :=
  fun _ _ hi hm hj => run_ends_job _ hi hm hj rfl

/-- Settles O18: NOP answers the state it is given. -/
theorem nopDoesNothing : Obligations.NopDoesNothing := fun _ => rfl

/-- Settles O19, for every word ILLEGAL can carry. -/
theorem illegalWordFails : Obligations.IllegalWordFails :=
  fun _ w _ hb => exec_illegal_not_busy hb w

/-- Settles O39: the selected combine is EXECUTE, and EXECUTE is ignored in BUSY and fails in UNCONFIGURED. -/
theorem executeOutsideConfigured : Obligations.ExecuteOutsideConfigured := by
  intro s f
  refine ⟨fun hb => ?_, fun hu => ?_, exec_combine_unselected⟩
  · have hx := exec_execute_busy hb
    exact ⟨hx, fun hf => (exec_combine_selected hf).trans hx⟩
  · have hx := exec_execute_unconfigured hu
    exact ⟨hx, fun hf => (exec_combine_selected hf).trans hx⟩

/-- Settles O41: the job's end is `engineComplete` of its kind. -/
theorem engineCompleteEndsTheJob : Obligations.EngineCompleteEndsTheJob := by
  intro s j hb hj hp
  rw [exec_engineComplete_done hb hj hp]
  refine ⟨fun hk => ?_, fun hk => ?_⟩
  · rw [engineComplete_of_ne_busErr hk]
  · rw [hk]; rfl

/-- Settles O42, step by step of the engine. -/
theorem engineStepsNotEnabled : Obligations.EngineStepsNotEnabled :=
  fun _ => ⟨fun _ => exec_engineWrite_not_enabled, exec_engineComplete_not_enabled⟩

/-- Settles O58: each move is `assertReset`, `releaseReset` or a request the port does not take. -/
theorem resetInputResets : Obligations.ResetInputResets := by
  intro s rest
  refine ⟨fun hm => ⟨resetBlock { s with moves := rest }, rfl, ?_⟩, fun hm => ?_, fun r hm hn => ?_⟩ <;>
    rw [step_of_moves hm]
  · rfl
  · rfl
  · simp [act, portSlot, fetchPort, hn]

end Sys2Proof.Machine
end

/-! ## Selection against the descriptor

What the eight selection functions (43 to 46) share: the channel they take is the one the descriptor's byte pattern
(41_format_descriptor.md R92 to R101) holds at that byte of the row, and the sample lies in the first row of the
element's pixels, no further right than the first of them. -/

section
namespace Sys2Proof.Machine

/-! ### The channel -/

/-- Two elements of a plane make whole patterns: a packed pixel pair is one, in every other plane an element is. -/
theorem pattern_length_dvd (f : Format) (p : Fin 3) :
    (planeDesc f p).pattern.length ∣ 2 * (planeDesc f p).elemBytes := by
  fin_cases p <;> cases f <;> decide

/-- Which byte of the pattern a byte of the row is depends on its element's column only by its parity. -/
theorem patternIndex_parity (f : Format) (p : Fin 3) (x k : Nat) :
    (x % 2 * (planeDesc f p).elemBytes + k) % (planeDesc f p).pattern.length =
      (x * (planeDesc f p).elemBytes + k) % (planeDesc f p).pattern.length :=
  (((Nat.mod_modEq x 2).mul_right' _).of_dvd (pattern_length_dvd f p)).add_right k

/-- Which slot is selected depends on the element's column only by its parity, and not on its row. -/
theorem select_c_parity (f : Format) (q : Pos) :
    (select f { q with x := q.x % 2, y := 0 }).c = (select f q).c := by
  obtain ⟨p, x, y, k⟩ := q
  cases f with
  | rgb888 | rgba8888 | yuv444 => rfl
  | yuyv422 | uyvy422 =>
    simp only [select, selectYuyv422, selectUyvy422, packedChroma, apply_ite Sample.c, Nat.mod_mod]
  | iyuv => fin_cases p <;> rfl
  | nv12 | nv21 => fin_cases p <;> cases k <;> rfl

/-- R94 to R101 for the first two elements of a row: the selected slot holds the pattern's channel. -/
theorem order_select_firstPair (f : Format) (p : Fin 3) (hp : p.val < planeCount f) (b : Nat) (hb : b < 2) (k : Nat)
    (hk : k < (planeDesc f p).elemBytes) :
    (describe f).order[(select f { p := p, x := b, y := 0, k := k }).c.val]? =
      (planeDesc f p).pattern[(b * (planeDesc f p).elemBytes + k) % (planeDesc f p).pattern.length]? := by
  revert p b k
  cases f <;> decide

/-- The selected slot holds the channel of the byte's place in the row's pattern. -/
theorem order_select {f : Format} {q : Pos} (hp : q.p.val < planeCount f) (hk : q.k < (planeDesc f q.p).elemBytes) :
    (describe f).order[(select f q).c.val]? = (planeDesc f q.p).pattern[
      (q.x * (planeDesc f q.p).elemBytes + q.k) % (planeDesc f q.p).pattern.length]? := by
  rw [← select_c_parity, ← patternIndex_parity]
  exact order_select_firstPair f q.p hp _ (Nat.mod_lt _ two_pos) q.k hk

/-- Every plane of a format has a pattern. -/
theorem pattern_length_pos (f : Format) (p : Fin 3) (hp : p.val < planeCount f) :
    0 < (planeDesc f p).pattern.length := by
  revert p
  cases f <;> decide

/-- The selected slot is bound, since it holds a channel of the pattern. -/
theorem select_c_lt {f : Format} {q : Pos} (hp : q.p.val < planeCount f) (hk : q.k < (planeDesc f q.p).elemBytes) :
    (select f q).c.val < channelCount f := by
  have hsome := List.getElem?_eq_getElem (Nat.mod_lt (q.x * (planeDesc f q.p).elemBytes + q.k)
    (pattern_length_pos f q.p hp))
  exact (List.getElem?_eq_some_iff.1 ((order_select hp hk).trans hsome)).1

/-! ### The sample -/

/-- A packed chroma sample is of the pixel's own column or, for V, of the one left of it, and of the pixel's row. -/
theorem packedChroma_near (q : Pos) : (packedChroma q).x ≤ q.x ∧ (packedChroma q).y = q.y := by
  unfold packedChroma
  split
  · exact ⟨le_rfl, rfl⟩
  · exact ⟨Nat.sub_le _ _, rfl⟩

/-- The selected sample lies in the first row of its element's pixels, at their first column or left of it. -/
theorem select_near {f : Format} {q : Pos} (hp : q.p.val < planeCount f) :
    (select f q).x ≤ (planeDesc f q.p).dx * q.x ∧ (select f q).y = (planeDesc f q.p).dy * q.y := by
  obtain ⟨p, x, y, k⟩ := q
  have own : x ≤ 1 * x ∧ y = 1 * y := ⟨(one_mul x).ge, (one_mul y).symm⟩
  have chroma (r : Pos) : (packedChroma r).x ≤ 1 * r.x ∧ (packedChroma r).y = 1 * r.y := by
    simpa only [one_mul] using packedChroma_near r
  cases f with
  | rgb888 | rgba8888 | yuv444 => fin_cases p <;> exact own
  | yuyv422 =>
    obtain rfl : p = 0 := Fin.val_eq_zero_iff.1 (Nat.lt_one_iff.1 hp)
    cases k <;> [exact own; exact chroma _]
  | uyvy422 =>
    obtain rfl : p = 0 := Fin.val_eq_zero_iff.1 (Nat.lt_one_iff.1 hp)
    cases k <;> [exact chroma _; exact own]
  | iyuv => fin_cases p <;> [exact own; exact ⟨le_rfl, rfl⟩; exact ⟨le_rfl, rfl⟩]
  | nv12 | nv21 =>
    fin_cases p
    · exact own
    · cases k <;> exact ⟨le_rfl, rfl⟩
    · exact absurd hp (lt_irrefl 2)

/-- Settles O56: the pattern repeats every two elements, and an element inside the plane begins inside the image,
whatever the division of the image's size leaves over. -/
theorem selectionFollowsTheDescriptor : Obligations.SelectionFollowsTheDescriptor := by
  intro f w h q _ hq
  obtain ⟨hp, hx, hy, hk⟩ := (mem_positions f w h q).1 hq
  obtain ⟨hsx, hsy⟩ := select_near hp
  have hpixel : (planeDesc f q.p).dx * q.x < w := lt_imp_lt_of_le_imp_le Nat.div_le_of_le_mul hx
  have hrow : (planeDesc f q.p).dy * q.y < h := lt_imp_lt_of_le_imp_le Nat.div_le_of_le_mul hy
  exact ⟨order_select hp hk, select_c_lt hp hk, hsx.trans_lt hpixel, hsy.trans_lt hrow⟩

end Sys2Proof.Machine
end

/-! ## The plan of each format

The planner (42_layout_planner.md R102 to R105): it fails exactly on a shape the format's divisors do not divide, and
otherwise lists planes that are either of the image's size or halved both ways. -/

section
namespace Sys2Proof.Machine

theorem plan_eq_none_iff (f : Format) (w h : Nat) :
    plan f w h = none ↔ w % (describe f).sx ≠ 0 ∨ h % (describe f).sy ≠ 0 := by
  rw [← not_and_or, ← evenEnough_iff]
  simp [plan]

theorem plan_of_even {f : Format} {w h : Nat} {ps : List (Fin 3)} (hps : boundPlanes f = ps)
    (hw : w % (describe f).sx = 0) (hh : h % (describe f).sy = 0) :
    plan f w h = some (ps.map (planeGeom f w h)) :=
  hps ▸ if_pos ((evenEnough_iff f w h).2 ⟨hw, hh⟩)

/-- A plane with both divisors 1 is of the image's size. -/
theorem planeGeom_full (f : Format) (p : Fin 3) {w h e : Nat} {pat : List Channel}
    (hd : planeDesc f p = ⟨e, 1, 1, pat⟩) : planeGeom f w h p = ⟨w, h, e * w⟩ := by
  simp [planeGeom, hd, Nat.mul_comm]

/-- A plane with both divisors 2 is halved both ways. -/
theorem planeGeom_halved (f : Format) (p : Fin 3) {w h e : Nat} {pat : List Channel}
    (hd : planeDesc f p = ⟨e, 2, 2, pat⟩) : planeGeom f w h p = ⟨w / 2, h / 2, e * (w / 2)⟩ := by
  simp [planeGeom, hd, Nat.mul_comm]

theorem plan_interleaved_or_packed {f : Format} {w h e : Nat} {pat : List Channel} (hps : boundPlanes f = [0])
    (hd : planeDesc f 0 = ⟨e, 1, 1, pat⟩) (hw : w % (describe f).sx = 0) (hh : h % (describe f).sy = 0) :
    plan f w h = some [⟨w, h, e * w⟩] := by
  rw [plan_of_even hps hw hh, List.map_singleton, planeGeom_full f 0 hd]

theorem plan_yuv444 (w h : Nat) : plan .yuv444 w h = some [⟨w, h, w⟩, ⟨w, h, w⟩, ⟨w, h, w⟩] := by
  rw [plan_of_even (ps := [0, 1, 2]) rfl (Nat.mod_one w) (Nat.mod_one h)]
  simp [planeGeom_full .yuv444 0 rfl, planeGeom_full .yuv444 1 rfl, planeGeom_full .yuv444 2 rfl]

theorem plan_iyuv {w h : Nat} (hw : w % 2 = 0) (hh : h % 2 = 0) :
    plan .iyuv w h = some [⟨w, h, w⟩, ⟨w / 2, h / 2, w / 2⟩, ⟨w / 2, h / 2, w / 2⟩] := by
  rw [plan_of_even (ps := [0, 1, 2]) rfl hw hh]
  simp [planeGeom_full .iyuv 0 rfl, planeGeom_halved .iyuv 1 rfl, planeGeom_halved .iyuv 2 rfl]

/-- The two-byte elements of the halved plane take as many bytes a row as the luma plane, since the width is even. -/
theorem plan_semiplanar {f : Format} {w h : Nat} {pat pat' : List Channel} (hps : boundPlanes f = [0, 1])
    (hluma : planeDesc f 0 = ⟨1, 1, 1, pat⟩) (hchroma : planeDesc f 1 = ⟨2, 2, 2, pat'⟩)
    (hsx : (describe f).sx = 2) (hsy : (describe f).sy = 2) (hw : w % 2 = 0) (hh : h % 2 = 0) :
    plan f w h = some [⟨w, h, w⟩, ⟨w / 2, h / 2, w⟩] := by
  have hstride : 2 * (w / 2) = w := Nat.mul_div_cancel' (Nat.dvd_of_mod_eq_zero hw)
  rw [plan_of_even hps (hsx ▸ hw) (hsy ▸ hh)]
  simp [planeGeom_full f 0 hluma, planeGeom_halved f 1 hchroma, hstride]

/-- Settles O54, format by format: a plane keeps the image size or halves it, and its stride is what a row takes. -/
theorem planOfEachFormat : Obligations.PlanOfEachFormat := by
  intro w h
  have hw1 : w % 1 = 0 := Nat.mod_one w
  have hh1 : h % 1 = 0 := Nat.mod_one h
  exact ⟨plan_interleaved_or_packed rfl rfl hw1 hh1, plan_interleaved_or_packed rfl rfl hw1 hh1, plan_yuv444 w h,
    fun hw => ⟨plan_interleaved_or_packed rfl rfl hw hh1, plan_interleaved_or_packed rfl rfl hw hh1⟩,
    fun hw hh => ⟨plan_iyuv hw hh, plan_semiplanar rfl rfl rfl rfl rfl hw hh,
      plan_semiplanar rfl rfl rfl rfl rfl hw hh⟩⟩

/-- Settles O55, by the format's divisors: 1 divides every number, and 2 the even ones. -/
theorem planFailsOnUnevenShapes : Obligations.PlanFailsOnUnevenShapes := by
  intro f w h
  rw [plan_eq_none_iff]
  cases f with
  | rgb888 | rgba8888 | yuv444 => simp [describe, Nat.mod_one]
  | yuyv422 | uyvy422 => simp [describe, Nat.mod_one]
  | iyuv | nv12 | nv21 => simp [describe]

end Sys2Proof.Machine
end

/-! ## What an accepted combine leaves

A selected combine in CONFIGURED starts the job `newJob` (40_commands.md R85). Its write set and its pending bytes, with
addresses and samples named as claims name them (20_memory.md R50, R51): for every format, then for a plane of the
image's size. -/

section
namespace Sys2Proof.Machine

theorem accepted_startJob (s : State) (f : Format) : Accepted s (startJob f s) (newJob s f) :=
  ⟨rfl, rfl, rfl, rfl, rfl, rfl, sameProgramming_startJob f s⟩

theorem exec_combineOf_configured {s : State} {f : Format} (hc : s.statusState = configured)
    (hf : s.format = formatCode f) : exec (combineOf f) s = .next (startJob f s) := by
  have hsel : s.selected = some f := (decodeFormat_iff s.format f).2 hf
  rw [exec_combine_selected hsel, exec_execute_configured hc hsel]

/-- Byte `k` of element `x` is byte `E * x + k` of its row (R50). -/
theorem dstAddr_eq_planeByte (s : State) (f : Format) (q : Pos) :
    dstAddr s f q = planeByte s q.p q.y ((planeDesc f q.p).elemBytes * q.x + q.k) := by
  rw [dstAddr, planeByte, addr32, Nat.mul_comm q.x, Nat.add_assoc _ _ q.k]

theorem sampleAt_eq_sourceByte (s : State) (q : Sample) : sampleAt s q = sourceByte s q.c q.x q.y := rfl

/-- A NORMAL job has the selected sample pending at every byte of an element. -/
theorem cellGet_newJob_pending {s : State} {f : Format} {q : Pos} (hk : (newJob s f).kind = .normal)
    (hq : q ∈ jobPositions s f) :
    cellGet (newJob s f).pending (planeByte s q.p q.y ((planeDesc f q.p).elemBytes * q.x + q.k)) =
      some (sourceByte s (select f q).c (select f q).x (select f q).y) := by
  rw [← dstAddr_eq_planeByte, ← sampleAt_eq_sourceByte]
  exact jobBytes_at hk hq

section
variable {s : State} {f : Format} {p : Fin 3} {n : Nat} {pat : List Channel} (hd : planeDesc f p = ⟨n, 1, 1, pat⟩)
include hd

theorem mem_jobPositions_full (hp : p.val < planeCount f) {x y k : Nat} :
    ⟨p, x, y, k⟩ ∈ jobPositions s f ↔ x < s.imageW ∧ y < s.imageH ∧ k < n := by
  simp [mem_jobPositions, hd, hp]

theorem cellGet_newJob_pending_full (hp : p.val < planeCount f) (hk : (newJob s f).kind = .normal) {x y k : Nat}
    (hx : x < s.imageW) (hy : y < s.imageH) (hkn : k < n) :
    cellGet (newJob s f).pending (planeByte s p y (n * x + k)) =
      some (sourceByte s (select f ⟨p, x, y, k⟩).c (select f ⟨p, x, y, k⟩).x (select f ⟨p, x, y, k⟩).y) := by
  have hbyte := cellGet_newJob_pending hk ((mem_jobPositions_full hd hp).2 ⟨hx, hy, hkn⟩)
  rwa [hd] at hbyte

end

/-- The write set of a format with one plane, of the image's size: `n` bytes a pixel. -/
theorem mem_newJob_wset_onePlane {s : State} {f : Format} {n : Nat} {pat : List Channel} (hp : planeCount f = 1)
    (hd : planeDesc f 0 = ⟨n, 1, 1, pat⟩) (a : Nat) :
    a ∈ (newJob s f).wset ↔
      ∃ x y k, x < s.imageW ∧ y < s.imageH ∧ k < n ∧ a = planeByte s 0 y (n * x + k) := by
  have h0 : (0 : Fin 3).val < planeCount f := hp ▸ Nat.one_pos
  refine (mem_writeSet s f a).trans ⟨?_, ?_⟩
  · rintro ⟨⟨p, x, y, k⟩, hq, rfl⟩
    obtain rfl : p = 0 := Fin.val_eq_zero_iff.1 (Nat.lt_one_iff.1 (hp ▸ ((mem_jobPositions s f _).1 hq).1))
    obtain ⟨hx, hy, hk⟩ := (mem_jobPositions_full hd h0).1 hq
    exact ⟨x, y, k, hx, hy, hk, by rw [dstAddr_eq_planeByte, hd]⟩
  · rintro ⟨x, y, k, hx, hy, hk, rfl⟩
    exact ⟨⟨0, x, y, k⟩, (mem_jobPositions_full hd h0).2 ⟨hx, hy, hk⟩, by rw [dstAddr_eq_planeByte, hd]⟩

end Sys2Proof.Machine
end

/-! ## The interleaved combines

One plane, each pixel's samples one after another (43_combine_interleaved.md R110 to R112). -/

section
namespace Sys2Proof.Machine

/-- An interleaved combine is accepted, and byte `k` of a pixel's `n` is the pixel's sample of slot `k` (R110). -/
theorem exec_combineOf_interleaved {s : State} {f : Format} {n : Nat} {pat : List Channel} (hp : planeCount f = 1)
    (hd : planeDesc f 0 = ⟨n, 1, 1, pat⟩) (hsel : ∀ q, select f q = ⟨Fin.ofNat 4 q.k, q.x, q.y⟩)
    (hc : s.statusState = configured) (hf : s.format = formatCode f) :
    ∃ t j, exec (combineOf f) s = .next t ∧ Accepted s t j ∧
      (∀ a, a ∈ j.wset ↔ ∃ x y k, x < s.imageW ∧ y < s.imageH ∧ k < n ∧ a = planeByte s 0 y (n * x + k)) ∧
      (j.kind = .normal → ∀ x y, x < s.imageW → y < s.imageH → ∀ k, k < n →
        cellGet j.pending (planeByte s 0 y (n * x + k)) = some (sourceByte s (Fin.ofNat 4 k) x y)) := by
  refine ⟨_, _, exec_combineOf_configured hc hf, accepted_startJob s f, mem_newJob_wset_onePlane hp hd, ?_⟩
  intro hk x y hx hy k hkn
  have hbyte := cellGet_newJob_pending_full hd (hp ▸ Nat.one_pos) hk hx hy hkn
  rwa [hsel] at hbyte

/-- Settles O29: the interleaved combine with 3 bytes a pixel. -/
theorem combineRgb888Selects : Obligations.CombineRgb888Selects := by
  intro s hc hf
  obtain ⟨t, j, hexec, hacc, hwset, hpend⟩ :=
    exec_combineOf_interleaved (f := .rgb888) rfl rfl (fun _ => rfl) hc hf
  refine ⟨t, j, hexec, hacc, hwset, fun hk x y hx hy => ?_⟩
  have hbyte := hpend hk x y hx hy
  exact ⟨hbyte 0 (by decide), hbyte 1 (by decide), hbyte 2 (by decide)⟩

/-- Settles O30: the interleaved combine with 4 bytes a pixel. -/
theorem combineRgba8888Selects : Obligations.CombineRgba8888Selects := by
  intro s hc hf
  obtain ⟨t, j, hexec, hacc, hwset, hpend⟩ :=
    exec_combineOf_interleaved (f := .rgba8888) rfl rfl (fun _ => rfl) hc hf
  refine ⟨t, j, hexec, hacc, hwset, fun hk x y hx hy => ?_⟩
  have hbyte := hpend hk x y hx hy
  exact ⟨hbyte 0 (by decide), hbyte 1 (by decide), hbyte 2 (by decide), hbyte 3 (by decide)⟩

end Sys2Proof.Machine
end

/-! ## The packed 4:2:2 combines

One plane, the four bytes of a pixel pair one after another: each pixel's luma, and the chroma of the pair's even column,
U with the first pixel and V with the second (44_combine_packed.md R114 to R117). -/

section
namespace Sys2Proof.Machine

/-- The first pixel of a pair takes its U. -/
theorem packedChroma_evenColumn (p : Fin 3) (i y k : Nat) : packedChroma ⟨p, 2 * i, y, k⟩ = ⟨1, 2 * i, y⟩ :=
  if_pos (Nat.mul_mod_right 2 i)

/-- The second pixel of a pair takes the V of the pair's even column. -/
theorem packedChroma_oddColumn (p : Fin 3) (i y k : Nat) : packedChroma ⟨p, 2 * i + 1, y, k⟩ = ⟨2, 2 * i, y⟩ :=
  if_neg (by simp)

section
variable {s : State} {f : Format} {pat : List Channel} (hd : planeDesc f 0 = ⟨2, 1, 1, pat⟩)
include hd

/-- The write set of a format with one plane of two-byte elements, for an even width: four bytes a pixel pair. -/
theorem mem_newJob_wset_pairs (hp : planeCount f = 1) (hw : s.imageW % 2 = 0) (a : Nat) :
    a ∈ (newJob s f).wset ↔
      ∃ i y k, i < s.imageW / 2 ∧ y < s.imageH ∧ k < 4 ∧ a = planeByte s 0 y (4 * i + k) := by
  refine (mem_newJob_wset_onePlane hp hd a).trans ⟨?_, ?_⟩
  · rintro ⟨x, y, k, hx, hy, hk, rfl⟩
    have hbyte : 2 * x + k = 4 * (x / 2) + (2 * (x % 2) + k) := by omega
    exact ⟨x / 2, y, 2 * (x % 2) + k, by omega, hy, by omega, by rw [hbyte]⟩
  · rintro ⟨i, y, k, hi, hy, hk, rfl⟩
    have hbyte : 4 * i + k = 2 * (2 * i + k / 2) + k % 2 := by omega
    exact ⟨2 * i + k / 2, y, k % 2, by omega, hy, by omega, by rw [hbyte]⟩

/-- Byte `k` of pixel `b` of a pair is byte `2 * b + k` of the pair's four, and has the selected sample pending. -/
theorem cellGet_newJob_pending_pair (hp : planeCount f = 1) (hk : (newJob s f).kind = .normal) {i y b k : Nat}
    (hi : i < s.imageW / 2) (hy : y < s.imageH) (hb : b < 2) (hk2 : k < 2) {q : Sample}
    (hsel : select f ⟨0, 2 * i + b, y, k⟩ = q) :
    cellGet (newJob s f).pending (planeByte s 0 y (4 * i + (2 * b + k))) = some (sourceByte s q.c q.x q.y) := by
  have hx : 2 * i + b < s.imageW := by omega
  have hrow : 4 * i + (2 * b + k) = 2 * (2 * i + b) + k := by omega
  rw [hrow, cellGet_newJob_pending_full hd (hp ▸ Nat.one_pos) hk hx hy hk2, hsel]

/-- A packed combine is accepted, and a pair's bytes are its two luma samples and the even column's U and V, where a
pixel's byte `l` is its luma and its byte `c` its chroma (R114, R115). -/
theorem exec_combineOf_packed (hp : planeCount f = 1) {l c : Nat} (hl : l < 2) (hc2 : c < 2)
    (hluma : ∀ x y, select f ⟨0, x, y, l⟩ = ⟨0, x, y⟩)
    (hchroma : ∀ x y, select f ⟨0, x, y, c⟩ = packedChroma ⟨0, x, y, c⟩)
    (hc : s.statusState = configured) (hf : s.format = formatCode f) (hw : s.imageW % 2 = 0) :
    ∃ t j, exec (combineOf f) s = .next t ∧ Accepted s t j ∧
      (∀ a, a ∈ j.wset ↔ ∃ i y k, i < s.imageW / 2 ∧ y < s.imageH ∧ k < 4 ∧ a = planeByte s 0 y (4 * i + k)) ∧
      (j.kind = .normal → ∀ i y, i < s.imageW / 2 → y < s.imageH →
        cellGet j.pending (planeByte s 0 y (4 * i + (2 * 0 + l))) = some (sourceByte s 0 (2 * i) y) ∧
        cellGet j.pending (planeByte s 0 y (4 * i + (2 * 0 + c))) = some (sourceByte s 1 (2 * i) y) ∧
        cellGet j.pending (planeByte s 0 y (4 * i + (2 * 1 + l))) = some (sourceByte s 0 (2 * i + 1) y) ∧
        cellGet j.pending (planeByte s 0 y (4 * i + (2 * 1 + c))) = some (sourceByte s 2 (2 * i) y)) := by
  refine ⟨_, _, exec_combineOf_configured hc hf, accepted_startJob s f, mem_newJob_wset_pairs hd hp hw, ?_⟩
  intro hk i y hi hy
  exact ⟨cellGet_newJob_pending_pair hd hp hk hi hy two_pos hl (hluma _ y),
    cellGet_newJob_pending_pair hd hp hk hi hy two_pos hc2 ((hchroma _ y).trans (packedChroma_evenColumn 0 i y c)),
    cellGet_newJob_pending_pair hd hp hk hi hy one_lt_two hl (hluma _ y),
    cellGet_newJob_pending_pair hd hp hk hi hy one_lt_two hc2 ((hchroma _ y).trans (packedChroma_oddColumn 0 i y c))⟩

end

/-- Settles O31: the packed combine whose pixels hold luma first. -/
theorem combineYuyv422Selects : Obligations.CombineYuyv422Selects := by
  intro s hc hf hw
  obtain ⟨t, j, hexec, hacc, hwset, hpend⟩ := exec_combineOf_packed (f := .yuyv422) (l := 0) (c := 1) rfl rfl
    two_pos one_lt_two (fun _ _ => rfl) (fun _ _ => rfl) hc hf hw
  exact ⟨t, j, hexec, hacc, hwset, hpend⟩

/-- Settles O32: the packed combine whose pixels hold chroma first. -/
theorem combineUyvy422Selects : Obligations.CombineUyvy422Selects := by
  intro s hc hf hw
  obtain ⟨t, j, hexec, hacc, hwset, hpend⟩ := exec_combineOf_packed (f := .uyvy422) (l := 1) (c := 0) rfl rfl
    one_lt_two two_pos (fun _ _ => rfl) (fun _ _ => rfl) hc hf hw
  refine ⟨t, j, hexec, hacc, hwset, fun hk i y hi hy => ?_⟩
  obtain ⟨hy0, hu, hy1, hv⟩ := hpend hk i y hi hy
  exact ⟨hu, hy0, hv, hy1⟩

end Sys2Proof.Machine
end

/-! ## The planar and semi-planar combines

Planes of the image's size, one byte an element, hold a channel pixel by pixel; the halved planes of the 4:2:0 formats
hold the top-left sample of each 2x2 block (45_combine_planar.md R118 to R120, 46_combine_semiplanar.md R121 to R123).
-/

section
namespace Sys2Proof.Machine

/-- `a` is a byte address of plane `p`'s elements: what the plane adds to the write set (R51). -/
def PlaneCovers (s : State) (f : Format) (p : Fin 3) (a : Nat) : Prop :=
  ∃ x y k, ⟨p, x, y, k⟩ ∈ jobPositions s f ∧ a = planeByte s p y ((planeDesc f p).elemBytes * x + k)

theorem mem_newJob_wset_iff_planeCovers (s : State) (f : Format) (a : Nat) :
    a ∈ (newJob s f).wset ↔ ∃ p, PlaneCovers s f p a := by
  refine (mem_writeSet s f a).trans ⟨?_, ?_⟩
  · rintro ⟨⟨p, x, y, k⟩, hq, rfl⟩
    exact ⟨p, x, y, k, hq, dstAddr_eq_planeByte s f _⟩
  · rintro ⟨p, x, y, k, hq, rfl⟩
    exact ⟨⟨p, x, y, k⟩, hq, (dstAddr_eq_planeByte s f ⟨p, x, y, k⟩).symm⟩

/-- The write set, plane by plane. -/
theorem mem_newJob_wset_iff_planeCovers_or (s : State) (f : Format) (a : Nat) :
    a ∈ (newJob s f).wset ↔ PlaneCovers s f 0 a ∨ PlaneCovers s f 1 a ∨ PlaneCovers s f 2 a := by
  rw [mem_newJob_wset_iff_planeCovers, Fin.exists_fin_succ, Fin.exists_fin_two]
  rfl

/-- A plane the format does not have adds nothing. -/
theorem not_planeCovers_of_le {s : State} {f : Format} {p : Fin 3} (hp : planeCount f ≤ p.val) (a : Nat) :
    ¬ PlaneCovers s f p a := by
  rintro ⟨x, y, k, hq, -⟩
  exact hp.not_gt ((mem_jobPositions s f _).1 hq).1

/-! ### A plane of the image's size, one byte an element -/

section
variable {s : State} {f : Format} {p : Fin 3} {pat : List Channel} (hd : planeDesc f p = ⟨1, 1, 1, pat⟩)
  (hp : p.val < planeCount f)
include hd hp

theorem planeCovers_full_iff (a : Nat) :
    PlaneCovers s f p a ↔ ∃ x y, x < s.imageW ∧ y < s.imageH ∧ a = planeByte s p y x := by
  simp [PlaneCovers, mem_jobPositions_full hd hp, hd, and_assoc]

/-- A plane that copies slot `c` pixel by pixel. -/
theorem cellGet_newJob_pending_copy {c : Fin 4} (hsel : ∀ x y, select f ⟨p, x, y, 0⟩ = ⟨c, x, y⟩)
    (hk : (newJob s f).kind = .normal) {x y : Nat} (hx : x < s.imageW) (hy : y < s.imageH) :
    cellGet (newJob s f).pending (planeByte s p y x) = some (sourceByte s c x y) := by
  have hbyte := cellGet_newJob_pending_full hd hp hk hx hy one_pos
  rwa [hsel, Nat.one_mul] at hbyte

end

/-! ### A halved plane -/

section
variable {s : State} {f : Format} {p : Fin 3} {n : Nat} {pat : List Channel} (hd : planeDesc f p = ⟨n, 2, 2, pat⟩)
  (hp : p.val < planeCount f)
include hd hp

theorem mem_jobPositions_halved {x y k : Nat} :
    ⟨p, x, y, k⟩ ∈ jobPositions s f ↔ x < s.imageW / 2 ∧ y < s.imageH / 2 ∧ k < n := by
  simp [mem_jobPositions, hd, hp]

theorem planeCovers_halved_iff (a : Nat) :
    PlaneCovers s f p a ↔
      ∃ x y k, x < s.imageW / 2 ∧ y < s.imageH / 2 ∧ k < n ∧ a = planeByte s p y (n * x + k) := by
  simp [PlaneCovers, mem_jobPositions_halved hd hp, hd, and_assoc]

/-- Byte `k` of an element is its block's top-left sample of slot `c` (R118). -/
theorem cellGet_newJob_pending_topLeft {k : Nat} (hkn : k < n) {c : Fin 4}
    (hsel : ∀ x y, select f ⟨p, x, y, k⟩ = topLeft c ⟨p, x, y, k⟩) (hk : (newJob s f).kind = .normal) {x y : Nat}
    (hx : x < s.imageW / 2) (hy : y < s.imageH / 2) :
    cellGet (newJob s f).pending (planeByte s p y (n * x + k)) = some (sourceByte s c (2 * x) (2 * y)) := by
  have hbyte := cellGet_newJob_pending hk ((mem_jobPositions_halved hd hp).2 ⟨hx, hy, hkn⟩)
  rwa [hd, hsel] at hbyte

end

/-- A halved plane of one-byte elements. -/
theorem planeCovers_halved_oneByte_iff {s : State} {f : Format} {p : Fin 3} {pat : List Channel}
    (hd : planeDesc f p = ⟨1, 2, 2, pat⟩) (hp : p.val < planeCount f) (a : Nat) :
    PlaneCovers s f p a ↔ ∃ x y, x < s.imageW / 2 ∧ y < s.imageH / 2 ∧ a = planeByte s p y x := by
  simp [planeCovers_halved_iff hd hp]

theorem cellGet_newJob_pending_topLeft_oneByte {s : State} {f : Format} {p : Fin 3} {pat : List Channel}
    (hd : planeDesc f p = ⟨1, 2, 2, pat⟩) (hp : p.val < planeCount f) {c : Fin 4}
    (hsel : ∀ x y, select f ⟨p, x, y, 0⟩ = topLeft c ⟨p, x, y, 0⟩) (hk : (newJob s f).kind = .normal) {x y : Nat}
    (hx : x < s.imageW / 2) (hy : y < s.imageH / 2) :
    cellGet (newJob s f).pending (planeByte s p y x) = some (sourceByte s c (2 * x) (2 * y)) := by
  have hbyte := cellGet_newJob_pending_topLeft hd hp one_pos hsel hk hx hy
  rwa [Nat.one_mul] at hbyte

/-! ### The combines -/

/-- Each plane of YUV444 is of the image's size, one byte an element. -/
theorem planeDesc_yuv444 (p : Fin 3) : ∃ pat, planeDesc .yuv444 p = ⟨1, 1, 1, pat⟩ := by
  fin_cases p <;> exact ⟨_, rfl⟩

/-- Settles O33: plane `p` copies slot `p`. -/
theorem combineYuv444Selects : Obligations.CombineYuv444Selects := by
  intro s hc hf
  refine ⟨_, _, exec_combineOf_configured (f := .yuv444) hc hf, accepted_startJob s .yuv444, fun a => ?_,
    fun hk x y hx hy => ?_⟩
  · rw [mem_newJob_wset_iff_planeCovers]
    refine exists_congr fun p => ?_
    obtain ⟨pat, hd⟩ := planeDesc_yuv444 p
    exact planeCovers_full_iff hd p.isLt a
  · have hbyte (p : Fin 3) : cellGet (newJob s .yuv444).pending (planeByte s p y x) =
        some (sourceByte s p.castSucc x y) := by
      obtain ⟨pat, hd⟩ := planeDesc_yuv444 p
      exact cellGet_newJob_pending_copy hd p.isLt (fun _ _ => rfl) hk hx hy
    exact ⟨hbyte 0, hbyte 1, hbyte 2⟩

/-- Settles O34: the luma plane copies slot 0, and two halved planes hold the blocks' top-left U and V. -/
theorem combineIyuvSelects : Obligations.CombineIyuvSelects := by
  intro s hc hf
  have h0 : (0 : Fin 3).val < planeCount .iyuv := by decide
  have h1 : (1 : Fin 3).val < planeCount .iyuv := by decide
  have h2 : (2 : Fin 3).val < planeCount .iyuv := by decide
  refine ⟨_, _, exec_combineOf_configured (f := .iyuv) hc hf, accepted_startJob s .iyuv, fun a => ?_,
    fun hk => ⟨fun x y hx hy => ?_, fun x y hx hy => ⟨?_, ?_⟩⟩⟩
  · rw [mem_newJob_wset_iff_planeCovers_or, planeCovers_full_iff rfl h0, planeCovers_halved_oneByte_iff rfl h1,
      planeCovers_halved_oneByte_iff rfl h2]
    simp only [and_or_left, exists_or]
  · exact cellGet_newJob_pending_copy rfl h0 (fun _ _ => rfl) hk hx hy
  · exact cellGet_newJob_pending_topLeft_oneByte rfl h1 (fun _ _ => rfl) hk hx hy
  · exact cellGet_newJob_pending_topLeft_oneByte rfl h2 (fun _ _ => rfl) hk hx hy

/-- A semi-planar combine is accepted: the luma plane copies slot 0, and an element of the halved plane is its block's
top-left samples of slots `c` and `d`, in this order (R118, R121). -/
theorem exec_combineOf_semiplanar {s : State} {f : Format} {pat pat' : List Channel} {c d : Fin 4}
    (hp : planeCount f = 2) (hluma : planeDesc f 0 = ⟨1, 1, 1, pat⟩) (hchroma : planeDesc f 1 = ⟨2, 2, 2, pat'⟩)
    (hsel : ∀ x y, select f ⟨0, x, y, 0⟩ = ⟨0, x, y⟩)
    (hfirst : ∀ x y, select f ⟨1, x, y, 0⟩ = topLeft c ⟨1, x, y, 0⟩)
    (hsecond : ∀ x y, select f ⟨1, x, y, 1⟩ = topLeft d ⟨1, x, y, 1⟩)
    (hc : s.statusState = configured) (hf : s.format = formatCode f) :
    ∃ t j, exec (combineOf f) s = .next t ∧ Accepted s t j ∧
      (∀ a, a ∈ j.wset ↔
        (∃ x y, x < s.imageW ∧ y < s.imageH ∧ a = planeByte s 0 y x) ∨
        (∃ x y k, x < s.imageW / 2 ∧ y < s.imageH / 2 ∧ k < 2 ∧ a = planeByte s 1 y (2 * x + k))) ∧
      (j.kind = .normal →
        (∀ x y, x < s.imageW → y < s.imageH →
          cellGet j.pending (planeByte s 0 y x) = some (sourceByte s 0 x y)) ∧
        ∀ x y, x < s.imageW / 2 → y < s.imageH / 2 →
          cellGet j.pending (planeByte s 1 y (2 * x)) = some (sourceByte s c (2 * x) (2 * y)) ∧
          cellGet j.pending (planeByte s 1 y (2 * x + 1)) = some (sourceByte s d (2 * x) (2 * y))) := by
  have h0 : (0 : Fin 3).val < planeCount f := hp.symm ▸ two_pos
  have h1 : (1 : Fin 3).val < planeCount f := hp.symm ▸ one_lt_two
  have h2 (a : Nat) : ¬ PlaneCovers s f 2 a := not_planeCovers_of_le hp.le a
  refine ⟨_, _, exec_combineOf_configured hc hf, accepted_startJob s f, fun a => ?_,
    fun hk => ⟨fun x y hx hy => ?_, fun x y hx hy => ⟨?_, ?_⟩⟩⟩
  · rw [mem_newJob_wset_iff_planeCovers_or, or_iff_left (h2 a), planeCovers_full_iff hluma h0,
      planeCovers_halved_iff hchroma h1]
  · exact cellGet_newJob_pending_copy hluma h0 hsel hk hx hy
  · exact cellGet_newJob_pending_topLeft hchroma h1 two_pos hfirst hk hx hy
  · exact cellGet_newJob_pending_topLeft hchroma h1 one_lt_two hsecond hk hx hy

/-- Settles O35: the semi-planar combine with slot 1, U, first. -/
theorem combineNv12Selects : Obligations.CombineNv12Selects := fun _ =>
  exec_combineOf_semiplanar (f := .nv12) rfl rfl rfl (fun _ _ => rfl) (fun _ _ => rfl) (fun _ _ => rfl)

/-- Settles O36: the semi-planar combine with slot 2, V, first. -/
theorem combineNv21Selects : Obligations.CombineNv21Selects := fun _ =>
  exec_combineOf_semiplanar (f := .nv21) rfl rfl rfl (fun _ _ => rfl) (fun _ _ => rfl) (fun _ _ => rfl)

end Sys2Proof.Machine
end

/-! ## The luma round trip

What a whole NORMAL job leaves in a plane that copies a channel, and plane 0 of the planar and semi-planar formats as
such a plane for the Y channel (46_combine_semiplanar.md R124). -/

section
namespace Sys2Proof.Machine

/-- After a whole NORMAL job a plane of the image's size, one byte an element, that selects slot `c` pixel by pixel is
that channel. -/
theorem runJob_copies_plane {s : State} {f : Format} {p : Fin 3} {pat : List Channel} {c : Fin 4} {order : List Word}
    (hd : planeDesc f p = ⟨1, 1, 1, pat⟩) (hp : p.val < planeCount f)
    (hsel : ∀ x y, select f ⟨p, x, y, 0⟩ = ⟨c, x, y⟩) (hc : s.statusState = configured) (hf : s.selected = some f)
    (hk : jobKind s f = .normal) (ho : (order.map BitVec.toNat).Perm (writeSet s f)) :
    ∃ t, runJob order s = .next t ∧
      ∀ x y, x < s.imageW → y < s.imageH → readMem t (planeByte s p y x) = sourceByte s c x y := by
  obtain ⟨t, hrun, himage, -⟩ := normalJobWritesTheImage s f order hc hf hk ho
  refine ⟨t, hrun, fun x y hx hy => ?_⟩
  have hbyte := himage ⟨p, x, y, 0⟩ ((mem_jobPositions_full hd hp).2 ⟨hx, hy, one_pos⟩)
  rwa [dstAddr_eq_planeByte, hd, Nat.one_mul, Nat.add_zero, hsel, sampleAt_eq_sourceByte] at hbyte

/-- Plane 0 of the planar and semi-planar formats has the image's size, one byte an element, and selects Y pixel by
pixel (R119, R120, R122, R123). -/
theorem lumaPlane_copies_y {f : Format} (h : f = .yuv444 ∨ f = .iyuv ∨ f = .nv12 ∨ f = .nv21) :
    (∃ pat, planeDesc f 0 = ⟨1, 1, 1, pat⟩) ∧ (0 : Fin 3).val < planeCount f ∧
      ∀ x y, select f ⟨0, x, y, 0⟩ = ⟨0, x, y⟩ := by
  obtain rfl | rfl | rfl | rfl := h <;> exact ⟨⟨_, rfl⟩, by decide, fun _ _ => rfl⟩

/-- Settles O51: plane 0 of each of the four formats copies the Y channel. -/
theorem lumaRoundTrip : Obligations.LumaRoundTrip := by
  intro s f order hc hf hluma hk ho
  obtain ⟨⟨_, hd⟩, hp, hsel⟩ := lumaPlane_copies_y hluma
  exact runJob_copies_plane hd hp hsel hc hf hk ho

end Sys2Proof.Machine
end

/-! ## The validator's answers

The code that CONFIGURE reports, by the check that fails first (47_configuration_validator.md R125 to R134). -/

section
namespace Sys2Proof.Machine

/-- RGBA8888 combines four channels, every other format three. -/
theorem channelCount_eq_ite (f : Format) : channelCount f = if f = .rgba8888 then 4 else 3 := by
  cases f <;> rfl

/-- With a recognized format the validator answers the checks of that format (R125). -/
theorem validate_of_selected {s : State} {f : Format} (hf : s.selected = some f) : validate s = checkFormat s f := by
  simp only [validate, hf]

/-- Of the checks of a format the count of sources comes first (R127). -/
theorem checkFormat_of_srcCount_ne {s : State} {f : Format} (hn : s.srcCount.toNat ≠ channelCount f) :
    checkFormat s f = some .channelCountMismatch := if_pos hn

/-- Settles O23: the count is the first check of a recognized format, and its code is 2. -/
theorem channelCountMismatchReported : Obligations.ChannelCountMismatchReported := by
  intro s f hu hf hn
  rw [← channelCount_eq_ite] at hn
  exact exec_configure_reject hu ((validate_of_selected hf).trans (checkFormat_of_srcCount_ne hn))

end Sys2Proof.Machine
end

/-! ## What a reset leaves

RESET clears the registers, and what it leaves of a job it abandons (70_reset_and_hazards.md R158, R160, R161). -/

section
namespace Sys2Proof.Machine

/-- After RESET every register reads as it does in the reset state, whatever the block did before (R158). -/
theorem readReg_resetBlock (s : State) (r : Reg) : readReg (resetBlock s) r = readReg State.reset r := by
  have hsrc : ∀ c, (resetBlock s).src c = State.reset.src c := fun c => by fin_cases c <;> rfl
  have hdst : ∀ p, (resetBlock s).dst p = State.reset.dst p := fun p => by fin_cases p <;> rfl
  cases r with
  | srcBase c | srcStride c | srcDim c => simp only [readReg, hsrc]
  | dstBase p | dstStride p | dstDim p => simp only [readReg, hdst]
  | _ => rfl

/-- With no job to abandon RESET touches the registers alone (R160). -/
theorem resetBlock_of_no_job {s : State} (h : s.job = none) : resetBlock s = resetRegisters s := by
  simp only [resetBlock, abandonJob, h]

/-- What may still land after RESET abandons a job is that job's (R161; log 16). -/
theorem resetBlock_inFlight_of_job {s : State} {j : Job} (hj : s.job = some j) :
    (resetBlock s).inFlight = inFlightCells s j := by
  simp only [resetBlock, abandonJob, hj, resetRegisters_inFlight]

/-- What may still land of a NORMAL job is the byte the job writes (R161; log 16). -/
theorem eq_byteOfJob_of_mem_inFlightCells {s : State} {j : Job} (hk : j.kind = .normal) {a : Nat} {v : Byte}
    (h : (a, v) ∈ inFlightCells s j) : v = byteOfJob s j a := by
  simp only [inFlightCells, hk, List.mem_map, Prod.mk.injEq] at h
  obtain ⟨_, -, rfl, rfl⟩ := h
  rfl

/-- RESET drops the interrupt line (R22, R158). -/
theorem irq_resetBlock (s : State) : (resetBlock s).irq = false := by simp [State.irq]

/-- Settles O28: the three clauses are what RESET leaves outside the write set, in flight, and in the write set. -/
theorem abandonedJobLeavesOldOrNew : Obligations.AbandonedJobLeavesOldOrNew := by
  intro s j hj
  refine ⟨resetBlock s, rfl, fun a ha => ?_, fun c hc => ?_, fun hk a ha => ⟨?_, fun v hv => ?_⟩⟩
  · exact readMem_resetBlock_other fun j' hj' => Option.some.inj (hj.symm.trans hj') ▸ ha
  · rw [resetBlock_inFlight_of_job hj] at hc
    exact keys_inFlightCells s j ▸ List.mem_map_of_mem hc
  · obtain ⟨n, hn⟩ := readMem_resetBlock_wset hj ha
    exact hn ▸ unsettledByte_normal hk s n a
  · rw [resetBlock_inFlight_of_job hj] at hv
    exact eq_byteOfJob_of_mem_inFlightCells hk hv

/-- Settles O27: the registers read as in the reset state, and without a job nothing else is touched. -/
theorem softResetClearsTheBlock : Obligations.SoftResetClearsTheBlock := by
  intro s
  refine ⟨resetBlock s, rfl, fun r => (readReg_resetBlock s r).trans (resetState.1 r), rfl, resetBlock_job s,
    irq_resetBlock s, resetBlock_rstN s, resetBlock_busData s, resetBlock_memData s, resetBlock_moves s,
    resetBlock_busErrors s, fun hj => ?_⟩
  rw [resetBlock_of_no_job hj]
  exact ⟨rfl, rfl, rfl⟩

end Sys2Proof.Machine
end

/-! ## Writes that land after a reset -/

section
namespace Sys2Proof.Machine

/-- A slot of the engine in which no engine step is enabled lands the write it picks (R161; logs 13, 16). -/
theorem step_land {s : State} {pick : Nat} {rest : List Move} (hm : s.moves = .engine pick :: rest)
    (h : s.statusState ≠ busy ∨ s.job = none) : step s = .next (landWrite pick { s with moves := rest }) := by
  rw [step_of_moves hm]
  exact engineSlot_none ((engineChoice_eq_none_iff pick s).2 h)

/-- Settles O60: the slot is `landWrite`, which lands one cell, and every cell has a pick that lands it. -/
theorem landedWriteStoresOneByte : Obligations.LandedWriteStoresOneByte := by
  intro s h
  refine ⟨fun pick rest hm => ⟨fun hf => ?_, fun hf => ?_⟩, fun c hc => ?_⟩
  · exact (step_land hm h).trans (congrArg _ (landWrite_nil (s := { s with moves := rest }) hf pick))
  · obtain ⟨c, hc, hland⟩ := landWrite_eq_landCell (s := { s with moves := rest }) hf pick
    exact ⟨c, hc, _, (step_land hm h).trans (congrArg _ hland), readMem_landCell_same _ c,
      fun b hb => readMem_landCell_other _ c hb, cellGet_cellErase_same _ c.1,
      fun b hb => cellGet_cellErase_other _ (Ne.symm hb), rfl⟩
  · obtain ⟨pick, hpick⟩ := exists_landWrite hc
    refine ⟨pick, fun rest => ?_⟩
    have hstep := step_land (s := { s with moves := .engine pick :: rest }) rfl h
    exact ⟨_, hstep.trans (congrArg _ (hpick _ rfl)), readMem_landCell_same _ c, cellGet_cellErase_same _ c.1⟩

end Sys2Proof.Machine
end

/-! ## The shape and destination checks

The checks that CONFIGURE reports with one code, as one condition each (60_exceptions.md R142, R143). -/

section
namespace Sys2Proof.Machine

/-- One of the shape checks of a format fails (R128 to R131). -/
def shapeFault (s : State) (f : Format) : Bool :=
  emptySource s f || unequalSource s f || shortSourceStride s f || !evenEnough f s.imageW s.imageH

theorem shapeFault_eq_false_iff (s : State) (f : Format) : shapeFault s f = false ↔
    (∀ c : Fin 4, c.val < channelCount f →
      1 ≤ (s.src c).width ∧ 1 ≤ (s.src c).height ∧ (s.src c).width = s.imageW ∧ (s.src c).height = s.imageH ∧
      (s.src c).width ≤ (s.src c).stride.toNat) ∧
    s.imageW % (describe f).sx = 0 ∧ s.imageH % (describe f).sy = 0 := by
  simp only [shapeFault, Bool.or_eq_false_iff, Bool.not_eq_false', emptySource_eq_false_iff,
    unequalSource_eq_false_iff, shortSourceStride_eq_false_iff, evenEnough_iff, imp_and, forall_and, and_assoc]

/-- One of the destination checks fails, on the planes of the plan (R132 to R134). -/
def planeFault (s : State) (f : Format) : Bool :=
  let g := (boundPlanes f).map (planeGeom f s.imageW s.imageH)
  s.dstCount.toNat != planeCount f || unplannedPlane s f g || shortPlaneStride s f g

theorem planeFault_eq_false_iff (s : State) (f : Format) : planeFault s f = false ↔
    s.dstCount.toNat = planeCount f ∧
    (∀ p : Fin 3, p.val < planeCount f →
      (s.dst p).width = s.imageW / (planeDesc f p).dx ∧ (s.dst p).height = s.imageH / (planeDesc f p).dy) ∧
    ∀ p : Fin 3, p.val < planeCount f →
      s.imageW / (planeDesc f p).dx * (planeDesc f p).elemBytes ≤ (s.dst p).stride.toNat := by
  simp only [planeFault, Bool.or_eq_false_iff, bne_eq_false_iff_eq, unplannedPlane_eq_false_iff,
    shortPlaneStride_eq_false_iff, and_assoc]

/-- On the planes of the plan the destination checks all answer one code (R132 to R134). -/
theorem checkDestination_plan (s : State) (f : Format) :
    checkDestination s f ((boundPlanes f).map (planeGeom f s.imageW s.imageH)) =
      if planeFault s f then some .destGeometryMismatch else none := by
  simp only [checkDestination, planeFault, Bool.or_eq_true, bne_iff_ne, ite_or]

/-- With the count of sources right, a shape fault decides the answer, and without one the destination does. -/
theorem checkFormat_of_srcCount_eq {s : State} {f : Format} (hn : s.srcCount.toNat = channelCount f) :
    checkFormat s f = if shapeFault s f then some .shapeMismatch
      else if planeFault s f then some .destGeometryMismatch else none := by
  rw [← checkDestination_plan]
  simp only [checkFormat, plan, hn, ne_eq, not_true, if_false, shapeFault, Bool.or_eq_true, ite_or]
  cases evenEnough f s.imageW s.imageH <;> simp

/-- Settles O24: each cause contradicts one of the shape checks. -/
theorem shapeMismatchReported : Obligations.ShapeMismatchReported := by
  intro s f hu hf hn hcause
  have hfault : shapeFault s f = true := by
    rw [← Bool.not_eq_false, shapeFault_eq_false_iff]
    rintro ⟨hpass, heven⟩
    obtain ⟨c, hc, hzero⟩ | ⟨c, e, hc, he, hdiff⟩ | ⟨c, hc, hshort⟩ | hodd := hcause
    · have := hpass c hc; omega
    · have := hpass c hc; have := hpass e he; omega
    · have := hpass c hc; omega
    · omega
  refine exec_configure_reject (e := .shapeMismatch) hu ?_
  rw [validate_of_selected hf, checkFormat_of_srcCount_eq hn, if_pos hfault]

/-- Settles O25: the shapes pass, and each cause contradicts one of the destination checks. -/
theorem destGeometryMismatchReported : Obligations.DestGeometryMismatchReported := by
  intro s f hu hf hn hshapes hw hh hcause
  have hpass : shapeFault s f = false := (shapeFault_eq_false_iff s f).2 ⟨hshapes, hw, hh⟩
  have hfault : planeFault s f = true := by
    rw [← Bool.not_eq_false, planeFault_eq_false_iff]
    rintro ⟨hcount, hdims, hstrides⟩
    obtain hne | ⟨p, hp, hdim⟩ | ⟨p, hp, hshort⟩ := hcause
    · exact hne hcount
    · exact hdim.elim (· (hdims p hp).1) (· (hdims p hp).2)
    · exact absurd hshort (not_lt.2 (hstrides p hp))
  refine exec_configure_reject (e := .destGeometryMismatch) hu ?_
  rw [validate_of_selected hf, checkFormat_of_srcCount_eq hn, hpass, if_neg Bool.false_ne_true, if_pos hfault]

end Sys2Proof.Machine
end

/-! ## The causes of ILLEGAL_COMMAND -/

section
namespace Sys2Proof.Machine

/-- A CONFIGURED block answers CONFIGURE with ILLEGAL_COMMAND (R84). -/
theorem exec_configure_configured {s : State} (hc : s.statusState = configured) :
    exec .configure s = .next (failed s 5#4) := by
  have hb : s.statusState ≠ busy := by rw [hc]; decide
  have hu : s.statusState ≠ unconfigured := by rw [hc]; decide
  exact (if_neg hb).trans (congrArg _ (if_pos hu))

/-- Settles O26, cause by cause: the word's command fails. -/
theorem illegalCommandReported : Obligations.IllegalCommandReported := by
  intro s w hb hcause
  rw [exec_write_cmd, command_eq_exec]
  obtain hi | ⟨rfl, hc⟩ | ⟨rfl, hu⟩ := hcause
  · rw [decodeCommand_of_illegal hi]
    exact exec_illegal_not_busy hb w
  · exact exec_configure_configured hc
  · exact exec_execute_unconfigured hu

end Sys2Proof.Machine
end

/-! ## UNSUPPORTED_FORMAT

Which configurations the validator answers it for, and that CONFIGURE alone brings it to STATUS.ERR
(60_exceptions.md R140). -/

section
namespace Sys2Proof.Machine

/-- The checks of a recognized format do not answer UNSUPPORTED_FORMAT (R127 to R134). -/
theorem checkFormat_ne_unsupportedFormat (s : State) (f : Format) : checkFormat s f ≠ some .unsupportedFormat := by
  by_cases hn : s.srcCount.toNat = channelCount f
  · rw [checkFormat_of_srcCount_eq hn]
    cases shapeFault s f <;> cases planeFault s f <;> decide
  · rw [checkFormat_of_srcCount_ne hn]
    decide

/-- The validator answers UNSUPPORTED_FORMAT exactly for a code outside 1 to 8 (R126). -/
theorem validate_eq_unsupportedFormat_iff (s : State) :
    validate s = some .unsupportedFormat ↔ s.format.toNat = 0 ∨ 9 ≤ s.format.toNat := by
  rw [← decodeFormat_none_iff, ← State.selected]
  cases hf : s.selected with
  | none => simp only [validate, hf]
  | some f => simpa only [validate_of_selected hf, reduceCtorEq, iff_false] using checkFormat_ne_unsupportedFormat s f

theorem code_eq_one_iff (e : ErrCode) : e.code = 1#4 ↔ e = .unsupportedFormat := by cases e <;> decide

section
variable {s t : State} (ht : t.statusErr = 1#4) (hs : s.statusErr ≠ 1#4)
include ht hs

/-- The one effect of an operation that brings STATUS.ERR to 1 is the rejection of an unrecognized format. -/
theorem Effect.rejects_of_raises_unsupportedFormat (h : Effect s t) :
    s.statusState = unconfigured ∧ validate s = some .unsupportedFormat := by
  cases h with
  | same | read | byte => exact absurd ht hs
  | write r d _ => exact absurd ((status_writeReg s r d).2.symm.trans ht) hs
  | illegal => exact nomatch (code_eq_one_iff .illegalCommand).1 ht
  | accept | start | reset => exact nomatch (code_eq_one_iff .none).1 ht
  | reject e hu hv =>
    obtain rfl := (code_eq_one_iff e).1 ht
    exact ⟨hu, hv⟩
  | complete j =>
    cases hk : j.kind with rw [hk] at ht
    | normal | collide => exact absurd ht hs
    | busErr => exact nomatch (code_eq_one_iff .busError).1 ht

/-- In UNCONFIGURED an operation that brings STATUS.ERR to 1 is CONFIGURE, as a command or as its CMD write. -/
theorem configure_of_raises_unsupportedFormat {i : Instr} (hu : s.statusState = unconfigured)
    (h : exec i s = .next t) : i = .configure ∨ i = .regWrite 0x004 1 := by
  have hb := ne_busy_of_unconfigured hu
  have hfails : ∀ j, exec j s = .next (failed s 5#4) → exec j s ≠ .next t := by
    intro j hj h
    cases hj.symm.trans h
    exact nomatch (code_eq_one_iff .illegalCommand).1 ht
  have hnop : exec .nop s ≠ .next t := by rintro ⟨⟩; exact hs ht
  have hreset : exec .softReset s ≠ .next t := by rintro ⟨⟩; exact nomatch (code_eq_one_iff .none).1 ht
  have hexecute := hfails _ (exec_execute_unconfigured hu)
  have hillegal := fun w => hfails _ (exec_illegal_not_busy hb w)
  have hcombine : ∀ f, exec (combineOf f) s ≠ .next t := fun f h => hexecute (exec_execute_of_combine h)
  cases i with
  | regWrite off d =>
    by_cases hc : off = 0x004
    · subst hc
      rw [exec_write_cmd, command_eq_exec] at h
      cases hi : illegalWord d with
      | true => exact absurd (decodeCommand_of_illegal hi ▸ h) (hillegal d)
      | false =>
        obtain rfl | rfl | rfl | rfl := legal_words hi
        · exact absurd h hnop
        · exact .inr rfl
        · exact absurd h hexecute
        · exact absurd h hreset
    · obtain ⟨-, -, herr, -⟩ := regWriteFrame s t off d hc h
      exact absurd (herr.symm.trans ht) hs
  | regRead off =>
    simp only [exec, execRegRead] at h
    split at h <;> cases h
    exact absurd ht hs
  | nop => exact absurd h hnop
  | configure => exact .inl rfl
  | execute => exact absurd h hexecute
  | softReset => exact absurd h hreset
  | illegal w => exact absurd h (hillegal w)
  | engineWrite a =>
    obtain ⟨_, _, -, -, -, rfl⟩ := exec_engineWrite_next h
    exact absurd ht hs
  | engineComplete => exact nomatch (exec_engineComplete_not_enabled (.inl hb)).symm.trans h
  | combineRgb888 => exact absurd h (hcombine .rgb888)
  | combineRgba8888 => exact absurd h (hcombine .rgba8888)
  | combineYuyv422 => exact absurd h (hcombine .yuyv422)
  | combineUyvy422 => exact absurd h (hcombine .uyvy422)
  | combineYuv444 => exact absurd h (hcombine .yuv444)
  | combineIyuv => exact absurd h (hcombine .iyuv)
  | combineNv12 => exact absurd h (hcombine .nv12)
  | combineNv21 => exact absurd h (hcombine .nv21)

end

/-- Settles O22: the validator answers code 1 exactly for an unrecognized format, and no operation but CONFIGURE reports
the validator's answer. -/
theorem unsupportedFormatReported : Obligations.UnsupportedFormatReported := by
  refine ⟨fun s hu hfmt => ?_, fun s t i h ht hs => ?_⟩
  · exact exec_configure_reject hu ((validate_eq_unsupportedFormat_iff s).2 hfmt)
  · obtain ⟨hu, hv⟩ := (exec_effect h).rejects_of_raises_unsupportedFormat ht hs
    exact ⟨hu, (validate_eq_unsupportedFormat_iff s).1 hv, configure_of_raises_unsupportedFormat ht hs hu h⟩

end Sys2Proof.Machine
end
